-- ==== Sys2Proof/Word.lean ====
section
/-! DEFINITION. Word types of the I2C master transaction controller and their plainest arithmetic
(spec/00_scope.md R9 "data width", "address width", R11). -/

namespace Sys2Proof

/-- Every data path is 8 bits wide (00_scope.md R9). -/
abbrev Byte := BitVec 8

/-- A command header or a response word (30_encoding.md R81, R85). -/
abbrev Word := BitVec 32

/-- A 7-bit peripheral address (00_scope.md R9). -/
abbrev Address := BitVec 7

/-- One bit as a word (00_scope.md R11: `zext` of a flag). -/
def bit (b : Bool) : BitVec 1 := if b then 1#1 else 0#1

end Sys2Proof
end

