-- ==== Sys2Proof/Config.lean ====
section
/-! DEFINITION. What an implementation fixes (the parameters of 00_scope.md R9) and the free values of the
environment (10_state.md R22). The types the parameters speak of (status symbols, classes, diagnostic events) stand
here too. -/

namespace Sys2Proof

/-- The eleven known status codes, by symbol (42_status_decoder.md R141). -/
inductive StatusSymbol where
  | start | rstart | slawAck | slawNack | datwAck | datwNack | arbLost | slarAck | slarNack | datrAck | datrNack
  deriving DecidableEq, Repr

/-- The class of a status code (42_status_decoder.md R140). -/
inductive StatusClass where
  | ok | recoverable | fatal | unrecognized
  deriving DecidableEq, Repr

/-- A diagnostic event (42_status_decoder.md R146). -/
inductive DiagEvent where
  | errLine (c : StatusClass) (status : Byte) (addr : Address)
  | rxDump (addr : Address) (bytes : List Byte)
  deriving DecidableEq, Repr

/-- STATUS_TABLE: the numeric value of each known status code (00_scope.md R9). -/
structure StatusTable where
  start    : Byte
  rstart   : Byte
  slawAck  : Byte
  slawNack : Byte
  datwAck  : Byte
  datwNack : Byte
  arbLost  : Byte
  slarAck  : Byte
  slarNack : Byte
  datrAck  : Byte
  datrNack : Byte
  deriving DecidableEq, Repr

/-- PHY_PATTERNS: the BCTL pattern of P.START, P.XFERN, P.XFERA, P.STOP (30_encoding.md R88). -/
structure Patterns where
  start : Byte
  xfern : Byte
  xfera : Byte
  stop  : Byte
  deriving DecidableEq, Repr

/-- DIAG_RENDER (42_status_decoder.md R150): the default texts of R147 and R148, or some other rendering, number
`k` of the free functions `Config.customRender`. -/
inductive RenderChoice where
  | standard
  | custom (k : Nat)
  deriving DecidableEq, Repr

/-- The parameters of 00_scope.md R9. They are fixed for the life of the hardware; no step writes them. -/
structure Config where
  fclk       : Nat
  cap        : Nat
  stageMax   : Nat
  status     : StatusTable
  patterns   : Patterns
  diagRender : RenderChoice
  deriving DecidableEq, Repr

/-- The default status values (42_status_decoder.md R141). -/
def StatusTable.default : StatusTable :=
  { start := 0x08, rstart := 0x10, slawAck := 0x18, slawNack := 0x20, datwAck := 0x28, datwNack := 0x30,
    arbLost := 0x38, slarAck := 0x40, slarNack := 0x48, datrAck := 0x50, datrNack := 0x58 }

/-- The default BCTL patterns (30_encoding.md R88). -/
def Patterns.default : Patterns := { start := 0xa4, xfern := 0x84, xfera := 0xc4, stop := 0x94 }

/-- The defaults of 00_scope.md R9. -/
def Config.default : Config :=
  { fclk := 16000000, cap := 128, stageMax := 63, status := .default, patterns := .default, diagRender := .standard }

/-- The value STATUS_TABLE gives a symbol (42_status_decoder.md R141). -/
def StatusTable.value (t : StatusTable) : StatusSymbol → Byte
  | .start => t.start
  | .rstart => t.rstart
  | .slawAck => t.slawAck
  | .slawNack => t.slawNack
  | .datwAck => t.datwAck
  | .datwNack => t.datwNack
  | .arbLost => t.arbLost
  | .slarAck => t.slarAck
  | .slarNack => t.slarNack
  | .datrAck => t.datrAck
  | .datrNack => t.datrNack

/-- The eleven symbols, in the order of the table of 42_status_decoder.md R141. -/
def StatusSymbol.all : List StatusSymbol :=
  [.start, .rstart, .slawAck, .slawNack, .datwAck, .datwNack, .arbLost, .slarAck, .slarNack, .datrAck, .datrNack]

/-- The eleven values must be distinct (00_scope.md R9). -/
abbrev StatusTable.Distinct (t : StatusTable) : Prop := (StatusSymbol.all.map t.value).Nodup

/-- The four patterns differ (true of the defaults; the spec does not ask it of other values). -/
abbrev Patterns.Distinct (p : Patterns) : Prop := [p.start, p.xfern, p.xfera, p.stop].Nodup

/-- The constraints of 00_scope.md R9 on the parameters. -/
abbrev Config.Valid (c : Config) : Prop := 0 < c.fclk ∧ 2 ≤ c.cap ∧ 1 ≤ c.stageMax ∧ c.status.Distinct

/-- The agents that take steps (10_state.md R20). -/
inductive Agent where
  | host | seq | prod | drain | phy | uart
  deriving DecidableEq, Repr, Inhabited

/-- FREE VALUE (log 2): the agent that moves at the `n`-th open choice of an agent (10_state.md R20: "the order is
otherwise free"). -/
opaque Config.freeAgent : Nat → Agent

/-- FREE VALUE (log 3): the status code PHY gives at the `n`-th draw when no script fixes it (41_bus_phases.md R121:
"draw s : 8 bits"). -/
opaque Config.freeStatus : Nat → Byte

/-- FREE VALUE (log 3): the data byte PHY gives at the `n`-th draw when no script fixes it (41_bus_phases.md R121:
"draw d : 8 bits"). -/
opaque Config.freeData : Nat → Byte

/-- FREE FUNCTION (log 5): rendering number `k` of those that are not the default one (42_status_decoder.md R150: "a
total function of the event alone"). -/
opaque Config.customRender : Nat → DiagEvent → List Byte

end Sys2Proof
end

