-- ==== Sys2Proof/Syntax.lean ====
section
/-! DEFINITION. The operations of spec/opcode_table.json, one constructor a row, and the words they travel in. -/

namespace Sys2Proof

/-- One constructor per row of spec/opcode_table.json. The payload of a command is part of it (30_encoding.md R90,
20_memory.md R73: captured whole). -/
inductive Instr where
  /-- BINIT speed (40_bus_commands.md R101). -/
  | binit (speed : BitVec 24)
  /-- BSEND addr, bytes (40_bus_commands.md R103). -/
  | bsend (addr : Address) (bytes : List Byte)
  /-- BRECV addr, max_count (40_bus_commands.md R104). -/
  | brecv (addr : Address) (maxCount : BitVec 16)
  /-- SINIT baud (43_output_channel.md R161). -/
  | sinit (baud : BitVec 24)
  /-- SSENDB text (43_output_channel.md R162). -/
  | ssendb (text : List Byte)
  /-- SENQ text (43_output_channel.md R166). -/
  | senq (text : List Byte)
  /-- P.START, the BCTL pattern of PStart (30_encoding.md R88, 41_bus_phases.md R120). -/
  | pStart
  /-- P.XFERN, the BCTL pattern of PXmit(b) and of PRecv(false) (30_encoding.md R88). -/
  | pXfern
  /-- P.XFERA, the BCTL pattern of PRecv(true) (30_encoding.md R88). -/
  | pXfera
  /-- P.STOP, the BCTL pattern of PStop (30_encoding.md R88). -/
  | pStop
  /-- PH.START (41_bus_phases.md R123). -/
  | phStart
  /-- PH.ADDR (41_bus_phases.md R124). -/
  | phAddr
  /-- PH.DATA.FIRST, written PH.DATA from ADDR_SENT in 41_bus_phases.md R125. -/
  | phDataFirst
  /-- PH.DATA.W, written PH.DATA from DATA_XFER, DIR = 0, in 41_bus_phases.md R126. -/
  | phDataW
  /-- PH.DATA.R, written PH.DATA from DATA_XFER, DIR = 1, in 41_bus_phases.md R127. -/
  | phDataR
  /-- PH.DONE (41_bus_phases.md R129). -/
  | phDone
  /-- IRQ.DRAIN (43_output_channel.md R171). -/
  | irqDrain
  /-- UART.DONE (43_output_channel.md R165). -/
  | uartDone
  /-- PHY.COMPLETE (41_bus_phases.md R121). -/
  | phyComplete
  deriving DecidableEq, Repr

/-- The encoded things of 30_encoding.md R80, each under the format by which it is known: a command (header word and
the bytes on the payload port), a BCTL pattern, and the selectors PHSEL, IRQSEL and the two ENVSEL. -/
inductive Code where
  | command (header : Word) (payload : List Byte)
  | pattern (p : Byte)
  /-- `{DIR, PH[2:0]}` -/
  | phSel (v : BitVec 4)
  /-- `{TXIE, TXIP}` -/
  | irqSel (v : BitVec 2)
  /-- `{TXEN, TXRDY}` -/
  | uartSel (v : BitVec 2)
  /-- `{BINT}` -/
  | phySel (v : BitVec 1)
  deriving DecidableEq, Repr

/-- The reject codes of 60_exceptions.md R193. -/
inductive RejectCode where
  /-- ILLEGAL_OPCODE, code 1 -/
  | illegalOpcode
  /-- RESERVED_BITS, code 2 -/
  | reservedBits
  /-- NOT_INITIALISED, code 3 -/
  | notInitialised
  /-- ARG_RANGE, code 4 -/
  | argRange
  deriving DecidableEq, Repr

end Sys2Proof
end

