-- ==== Sys2Proof/WellFormed.lean ====
section
/-! DEFINITION. What an instruction must satisfy to have an encoding: the payload of a BSEND, SSENDB or SENQ is no
longer than the 16-bit LEN field can say (30_encoding.md R82, R90). Addresses, frequencies and counts are bounded by
their types. -/

namespace Sys2Proof

/-- A payload's length fits the LEN field (30_encoding.md R90: "bounds len(bytes), len(text) and max_count by
65535"). -/
def payloadFits (bytes : List Byte) : Bool := decide (bytes.length < 65536)

/-- The well-formed instructions. -/
def Instr.wf : Instr → Bool
  | .binit _ => true
  | .bsend _ bytes => payloadFits bytes
  | .brecv _ _ => true
  | .sinit _ => true
  | .ssendb text => payloadFits text
  | .senq text => payloadFits text
  | .pStart => true
  | .pXfern => true
  | .pXfera => true
  | .pStop => true
  | .phStart => true
  | .phAddr => true
  | .phDataFirst => true
  | .phDataW => true
  | .phDataR => true
  | .phDone => true
  | .irqDrain => true
  | .uartDone => true
  | .phyComplete => true

end Sys2Proof
end

