-- ==== Sys2Proof/Decode.lean ====
section
/-! DEFINITION. The decoder, total on any words, and after it the encoder (30_encoding.md R80 to R84, R87, R88, R92;
spec/opcode_table.json for the selectors). -/

namespace Sys2Proof

/-- What the decoder answers: an instruction with the payload bytes left on the port; a reject by name with the bytes
left (30_encoding.md R84, R92); not all of the announced payload has arrived (log 16); or a pattern or selector that
no row has. -/
inductive Decoded where
  | ok (i : Instr) (rest : List Byte)
  | reject (code : RejectCode) (rest : List Byte)
  | short
  | noRow
  deriving DecidableEq, Repr

/-- OPC, bits [31:28] (30_encoding.md R81). -/
def headerOpc (h : Word) : BitVec 4 := h.extractLsb' 28 4

/-- ADDR, bits [22:16] of format HA. -/
def headerAddr (h : Word) : Address := h.extractLsb' 16 7

/-- LEN, bits [15:0] of formats HA and HL. -/
def headerLen (h : Word) : BitVec 16 := h.extractLsb' 0 16

/-- ARG24, bits [23:0] of format HI. -/
def headerArg (h : Word) : BitVec 24 := h.extractLsb' 0 24

/-- RSV of format HI, bits [27:24]. -/
def headerRsvHI (h : Word) : BitVec 4 := h.extractLsb' 24 4

/-- RSV of format HA, bits [27:23]. -/
def headerRsvHA (h : Word) : BitVec 5 := h.extractLsb' 23 5

/-- RSV of format HL, bits [27:16]. -/
def headerRsvHL (h : Word) : BitVec 12 := h.extractLsb' 16 12

/-- How many payload bytes a header announces: LEN for opcodes 0x2, 0xa, 0xb, none for the others (30_encoding.md
R84). -/
def payloadCount (h : Word) : Nat :=
  if headerOpc h = 0x2#4 ∨ headerOpc h = 0xa#4 ∨ headerOpc h = 0xb#4 then (headerLen h).toNat else 0

/-- The fields of a header whose payload has been taken (30_encoding.md R81 to R83, R92). -/
def decodeHeader (h : Word) (payload rest : List Byte) : Decoded :=
  if headerOpc h = 0x1#4 then
    if headerRsvHI h = 0 then .ok (.binit (headerArg h)) rest else .reject .reservedBits rest
  else if headerOpc h = 0x2#4 then
    if headerRsvHA h = 0 then .ok (.bsend (headerAddr h) payload) rest else .reject .reservedBits rest
  else if headerOpc h = 0x3#4 then
    if headerRsvHA h = 0 then .ok (.brecv (headerAddr h) (headerLen h)) rest else .reject .reservedBits rest
  else if headerOpc h = 0x9#4 then
    if headerRsvHI h = 0 then .ok (.sinit (headerArg h)) rest else .reject .reservedBits rest
  else if headerOpc h = 0xa#4 then
    if headerRsvHL h = 0 then .ok (.ssendb payload) rest else .reject .reservedBits rest
  else if headerOpc h = 0xb#4 then
    if headerRsvHL h = 0 then .ok (.senq payload) rest else .reject .reservedBits rest
  else .reject .illegalOpcode rest

/-- A command at the port: all announced payload bytes are taken before anything else, also when the header is
rejected (30_encoding.md R84, 20_memory.md R73). -/
def decodeCommand (h : Word) (bytes : List Byte) : Decoded :=
  if bytes.length < payloadCount h then .short
  else decodeHeader h (bytes.take (payloadCount h)) (bytes.drop (payloadCount h))

/-- A value of BCTL (30_encoding.md R88). -/
def decodePattern (p : Patterns) (v : Byte) : Decoded :=
  if v = p.start then .ok .pStart []
  else if v = p.xfern then .ok .pXfern []
  else if v = p.xfera then .ok .pXfera []
  else if v = p.stop then .ok .pStop []
  else .noRow

/-- The selector PHSEL, `{DIR, PH[2:0]}` (30_encoding.md R80, spec/opcode_table.json): PH.START d000, PH.ADDR d001,
PH.DATA.FIRST d010, PH.DATA.W 0011, PH.DATA.R 1011, PH.DONE d100. -/
def decodePhSel (v : BitVec 4) : Decoded :=
  if v.extractLsb' 0 3 = 0#3 then .ok .phStart []
  else if v.extractLsb' 0 3 = 1#3 then .ok .phAddr []
  else if v.extractLsb' 0 3 = 2#3 then .ok .phDataFirst []
  else if v = 3#4 then .ok .phDataW []
  else if v = 11#4 then .ok .phDataR []
  else if v.extractLsb' 0 3 = 4#3 then .ok .phDone []
  else .noRow

/-- The selector IRQSEL, `{TXIE, TXIP}`: IRQ.DRAIN 11. -/
def decodeIrqSel (v : BitVec 2) : Decoded := if v = 3#2 then .ok .irqDrain [] else .noRow

/-- The selector ENVSEL `{TXEN, TXRDY}`: UART.DONE 10. -/
def decodeUartSel (v : BitVec 2) : Decoded := if v = 2#2 then .ok .uartDone [] else .noRow

/-- The selector ENVSEL `{BINT}`: PHY.COMPLETE 0. -/
def decodePhySel (v : BitVec 1) : Decoded := if v = 0#1 then .ok .phyComplete [] else .noRow

/-- The decoder, total on every code of every format. -/
def decode (p : Patterns) : Code → Decoded
  | .command h bytes => decodeCommand h bytes
  | .pattern v => decodePattern p v
  | .phSel v => decodePhSel v
  | .irqSel v => decodeIrqSel v
  | .uartSel v => decodeUartSel v
  | .phySel v => decodePhySel v

/-- A header of format HI (30_encoding.md R81). -/
def encodeHI (opc : BitVec 4) (arg : BitVec 24) : Word := opc ++ 0#4 ++ arg

/-- A header of format HA (30_encoding.md R81). -/
def encodeHA (opc : BitVec 4) (addr : Address) (len : BitVec 16) : Word := opc ++ 0#5 ++ addr ++ len

/-- A header of format HL (30_encoding.md R81). -/
def encodeHL (opc : BitVec 4) (len : BitVec 16) : Word := opc ++ 0#12 ++ len

/-- The words of an instruction. A selector's don't-care bit (`d` in the table) is encoded as 0. -/
def encode (p : Patterns) : Instr → Code
  | .binit speed => .command (encodeHI 0x1 speed) []
  | .bsend addr bytes => .command (encodeHA 0x2 addr (BitVec.ofNat 16 bytes.length)) bytes
  | .brecv addr n => .command (encodeHA 0x3 addr n) []
  | .sinit baud => .command (encodeHI 0x9 baud) []
  | .ssendb text => .command (encodeHL 0xa (BitVec.ofNat 16 text.length)) text
  | .senq text => .command (encodeHL 0xb (BitVec.ofNat 16 text.length)) text
  | .pStart => .pattern p.start
  | .pXfern => .pattern p.xfern
  | .pXfera => .pattern p.xfera
  | .pStop => .pattern p.stop
  | .phStart => .phSel 0
  | .phAddr => .phSel 1
  | .phDataFirst => .phSel 2
  | .phDataW => .phSel 3
  | .phDataR => .phSel 11
  | .phDone => .phSel 4
  | .irqDrain => .irqSel 3
  | .uartDone => .uartSel 2
  | .phyComplete => .phySel 0

/-- The instruction of a decoder's answer. -/
def Decoded.instr? : Decoded → Option Instr
  | .ok i _ => some i
  | .reject _ _ => none
  | .short => none
  | .noRow => none

/-- The code that stands for `w` where the table gives a row `nbits` bits (log 13): 32 bits are a command header with
a payload of zeros; up to 8 bits are a BCTL pattern or a selector. Four, two and one bits are the selectors' own
widths. In a whole byte the formats overlap: a default pattern is a pattern, then the values of the one- and two-bit
selectors 0, 2 and 3 are PHY.COMPLETE, UART.DONE and IRQ.DRAIN, and any other value below 16 is a PHSEL. -/
def codeOfTableWord (nbits w : Nat) : Option Code :=
  if w ≥ 2 ^ nbits then none
  else if nbits = 32 then
    some (.command (BitVec.ofNat 32 w) (List.replicate (payloadCount (BitVec.ofNat 32 w)) 0))
  else if nbits = 8 then
    if w ≥ 16 then some (.pattern (BitVec.ofNat 8 w))
    else if w = 0 then some (.phySel 0)
    else if w = 2 then some (.uartSel 2)
    else if w = 3 then some (.irqSel 3)
    else some (.phSel (BitVec.ofNat 4 w))
  else if nbits = 4 then some (.phSel (BitVec.ofNat 4 w))
  else if nbits = 2 then if w = 3 then some (.irqSel 3) else some (.uartSel (BitVec.ofNat 2 w))
  else if nbits = 1 then some (.phySel (BitVec.ofNat 1 w))
  else none

/-- The instruction the decoder reads from a table row's word `w` of `nbits` bits (log 13). -/
def decodeTableWord (nbits w : Nat) : Option Instr :=
  match codeOfTableWord nbits w with
  | some c => (decode .default c).instr?
  | none => none

end Sys2Proof
end

