-- ==== Sys2Proof/Machine/State.lean ====
section
/-! DEFINITION. The state of the machine as plain data (10_state.md), the reasons a step can stop, and the state
after reset (70_reset_and_hazards.md R220 to R222). -/

namespace Sys2Proof.Machine

/-- The sequencer's phase register PH (10_state.md R26). The values 5, 6, 7 are never taken and have no constructor
(log 17). -/
inductive Phase where
  | idle | startIssued | addrSent | dataXfer | stopIssued
  deriving DecidableEq, Repr

/-- The direction latch DIR: 0 write, 1 read (10_state.md R28). -/
inductive Direction where
  | write | read
  deriving DecidableEq, Repr

/-- The abstract PHY commands PStart, PXmit(b), PRecv(ack), PStop (30_encoding.md R86). -/
inductive PhyCommand where
  | start
  | xmit (b : Byte)
  | recv (ack : Bool)
  | stop
  deriving DecidableEq, Repr

/-- The memory spaces (10_state.md R44). -/
inductive Space where
  | ring | txpay | rxbuf | stage
  deriving DecidableEq, Repr

/-- A memory: cells in strictly rising order of address. An address with no cell has no value (log 7). -/
abbrev Memory := List Host.Cell

/-- The canonical form: addresses strictly rising. An unlisted address reads as no value, which no cell holds. -/
def Memory.wf : Memory → Bool
  | [] => true
  | [_] => true
  | (a, _) :: (b, v) :: m => decide (a < b) && Memory.wf ((b, v) :: m)

/-- The outstanding command: one that HOST has presented and that has not been answered (10_state.md R20, R21,
log 8). -/
inductive Outstanding where
  /-- a command with its payload that HOST has presented, that has passed its checks, and that its unit, SEQ or PROD,
  has not taken yet -/
  | presented (i : Instr)
  /-- a BSEND accepted, which only PH.START follows: never between two steps, acceptance is part of PH.START
  (41_bus_phases.md R123) -/
  | bsend (addr : Address) (bytes : List Byte)
  /-- a BRECV accepted, as a BSEND -/
  | brecv (addr : Address) (maxCount : BitVec 16)
  /-- a SSENDB and the position in its text (43_output_channel.md R163, 60_exceptions.md R201) -/
  | ssendb (text : List Byte) (pos : Nat)
  /-- a SENQ whose text is in STAGE and waits for its commit (43_output_channel.md R166) -/
  | senq
  deriving DecidableEq, Repr

/-- A response: the word of format RS and the data bytes that follow it (30_encoding.md R85). -/
structure Response where
  word : Word
  data : List Byte
  deriving DecidableEq, Repr

/-- Who moves next (10_state.md R20, log 2), or a write of BCTL taken alone, which the hardware never does
(41_bus_phases.md R120, log 12). -/
inductive Turn where
  | agent (a : Agent)
  | bctl (v : Byte)
  deriving DecidableEq, Repr

/-- The state: registers (10_state.md sections 2 to 5), memories (R44), histories (R51), the command and response
ports (R21, 30_encoding.md R85), and after them the model's own fields (logs 1 to 4). -/
structure State where
  /-- the parameters (00_scope.md R9); no step writes them (log 4) -/
  cfg : Config
  /-- BDIV (R32) -/
  bdiv : Byte
  /-- BCTL (R37) -/
  bctl : Byte
  /-- BSTAT (R36) -/
  bstat : Byte
  /-- BDATA (R34) -/
  bdata : Byte
  /-- BEN (R33) -/
  ben : Bool
  /-- BINT (R35) -/
  bint : Bool
  /-- PH (R26) -/
  ph : Phase
  /-- ADDR (R27) -/
  addr : Address
  /-- DIR (R28) -/
  dir : Direction
  /-- CNT (R29) -/
  cnt : BitVec 16
  /-- IDX (R30) -/
  idx : BitVec 16
  /-- BRES (R43) -/
  bres : StatusClass
  /-- LASTERR (R45) -/
  lasterr : Byte
  /-- SDIV (R46) -/
  sdiv : BitVec 12
  /-- TXEN (R38) -/
  txen : Bool
  /-- TXIE (R39) -/
  txie : Bool
  /-- TXRDY (R40) -/
  txrdy : Bool
  /-- TXIP (R42) -/
  txip : Bool
  /-- TXDATA (R41) -/
  txdata : Byte
  /-- WCUR (R48) -/
  wcur : Nat
  /-- RCUR (R48) -/
  rcur : Nat
  /-- RING (R44) -/
  ring : Memory
  /-- TXPAY (R44) -/
  txpay : Memory
  /-- RXBUF (R44) -/
  rxbuf : Memory
  /-- STAGE (R44) -/
  stage : Memory
  /-- bus_log (R51) -/
  busLog : List PhyCommand
  /-- diag_log (R51) -/
  diagLog : List DiagEvent
  /-- wire (R51) -/
  wire : List Byte
  /-- the outstanding command (R21); one only presented is the model's own (R23, log 8) -/
  cmd : Option Outstanding
  /-- the response port (30_encoding.md R85) -/
  resp : Option Response
  /-- who moves next (log 2) -/
  turns : List Turn
  /-- the header words HOST is going to present (log 1) -/
  hostCmds : List Word
  /-- the bytes HOST is going to give the payload port (log 1) -/
  hostBytes : List Byte
  /-- the status codes PHY is going to answer (log 3) -/
  phyStatus : List Byte
  /-- the data bytes PHY is going to answer (log 3) -/
  phyData : List Byte
  /-- how many free values have been drawn (log 3) -/
  draws : Nat
  deriving DecidableEq, Repr

/-- The reasons a step can stop with a fault. The hardware has none (60_exceptions.md R211): no state that meets the
invariant of Safety.lean reaches one. -/
inductive Fault where
  /-- A read of a byte that has no value: its address does not exist, or no rule has written it (10_state.md R44 "no
  slot is read before it is written", log 7). Raised by the rules that read RING, TXPAY, RXBUF or STAGE. Safe. -/
  | noByte (space : Space) (addr : Nat)
  /-- A write to an address that does not exist (10_state.md R44, log 22). Raised by PH.DATA.R. Safe. -/
  | noSuchAddress (space : Space) (addr : Nat)
  deriving DecidableEq, Repr

/-- The reasons the model gives an operation no meaning. -/
inductive Refusal where
  /-- An instruction that has no meaning in the model yet. Raised by an arm of exec only. Safe. -/
  | notModelled (mnemonic : String)
  /-- A command while another is outstanding: a second command source (93_implementation_defined.md item 1, treatment
  `refuse`; 70_reset_and_hazards.md R224). Raised by the six commands; no step reaches it. Safe. -/
  | commandOutstanding
  /-- An operation taken where its enabling condition does not hold: the step relation has no such step (10_state.md
  R20, log 15). Raised by the selector operations; no step reaches it. Safe. -/
  | notEnabled
  deriving DecidableEq, Repr

/-- The state after reset: 10_state.md R50, R44, R51 and 70_reset_and_hazards.md R220, R221. BSTAT, BDATA and TXDATA
have no reset value in the spec (R222) and are 0x00 here (DESIGN CHOICE, unsafe, log 6). The model's own fields: logs
1 to 4. -/
def State.reset : State :=
  { cfg := .default
    bdiv := 0x00, bctl := 0x00, bstat := 0x00, bdata := 0x00, ben := false, bint := false
    ph := .idle, addr := 0, dir := .write, cnt := 0, idx := 0, bres := .ok, lasterr := 0x00
    sdiv := 0x000, txen := false, txie := false, txrdy := true, txip := false, txdata := 0x00
    wcur := 0, rcur := 0
    ring := [], txpay := [], rxbuf := [], stage := []
    busLog := [], diagLog := [], wire := []
    cmd := none, resp := none
    turns := [], hostCmds := [], hostBytes := [], phyStatus := [], phyData := [], draws := 0 }

end Sys2Proof.Machine
end

