-- ==== Sys2Proof/Machine/Flags.lean ====
section
/-! DEFINITION. The flag registers as words, and the conditions over flags that enable an operation
(10_state.md R31, R50; 41_bus_phases.md; 43_output_channel.md). -/

namespace Sys2Proof.Machine

/-- The numeric encoding of PH (10_state.md R26). -/
def Phase.code : Phase → BitVec 3
  | .idle => 0
  | .startIssued => 1
  | .addrSent => 2
  | .dataXfer => 3
  | .stopIssued => 4

/-- The phase a PH value names; 5, 6, 7 are never taken (10_state.md R26). -/
def Phase.ofCode (v : BitVec 3) : Option Phase :=
  if v = 0 then some .idle
  else if v = 1 then some .startIssued
  else if v = 2 then some .addrSent
  else if v = 3 then some .dataXfer
  else if v = 4 then some .stopIssued
  else none

/-- DIR as a bit: 0 write, 1 read (10_state.md R28). -/
def Direction.code : Direction → BitVec 1
  | .write => 0
  | .read => 1

/-- The class code (42_status_decoder.md R140). -/
def classCode : StatusClass → BitVec 2
  | .ok => 0
  | .recoverable => 1
  | .fatal => 2
  | .unrecognized => 3

/-- BFLG: BEN [0], BINT [1] (10_state.md R50). -/
def bflg (s : State) : BitVec 2 := bit s.bint ++ bit s.ben

/-- BADR: ADDR [6:0], DIR [7] (10_state.md R50). -/
def badr (s : State) : Byte := s.dir.code ++ s.addr

/-- SCTL: TXEN [0], TXIE [1] (10_state.md R50). -/
def sctl (s : State) : BitVec 2 := bit s.txie ++ bit s.txen

/-- SSTAT: TXRDY [0], TXIP [1] (10_state.md R50). -/
def sstat (s : State) : BitVec 2 := bit s.txip ++ bit s.txrdy

/-- SFMT, hardwired: DBITS [3:0] = 8, SBITS [5:4] = 1, PAR [7:6] = 0 (10_state.md R47). -/
def sfmt : Byte := 0#2 ++ 1#2 ++ 8#4

/-- GO, BCTL bit 7: clear the completion flag and launch the phase (30_encoding.md R87). -/
def bctlGo (v : Byte) : Bool := v.getLsbD 7

/-- ACKEN, BCTL bit 6: answer a received byte with ACK (30_encoding.md R87). -/
def bctlAcken (v : Byte) : Bool := v.getLsbD 6

/-- STA, BCTL bit 5: generate a start condition (30_encoding.md R87). -/
def bctlSta (v : Byte) : Bool := v.getLsbD 5

/-- STO, BCTL bit 4: generate a stop condition (30_encoding.md R87). -/
def bctlSto (v : Byte) : Bool := v.getLsbD 4

/-- EN, BCTL bit 2: keep the bus engine enabled (30_encoding.md R87). -/
def bctlEn (v : Byte) : Bool := v.getLsbD 2

/-- BCTL bits 3, 1 and 0, written 0; bit 0 would be the PHY's own interrupt enable (30_encoding.md R87). -/
def bctlZeros (v : Byte) : Bool := v.getLsbD 3 || v.getLsbD 1 || v.getLsbD 0

/-- PH is one of the three phases that wait for a completion (41_bus_phases.md R121, R122). -/
def Phase.waits : Phase → Bool
  | .idle => false
  | .startIssued => true
  | .addrSent => true
  | .dataXfer => true
  | .stopIssued => false

/-- PHY.COMPLETE is enabled (41_bus_phases.md R121). -/
def phyCompleteEnabled (s : State) : Bool := s.ph.waits && !s.bint

/-- UART.DONE is enabled (43_output_channel.md R165). -/
def uartDoneEnabled (s : State) : Bool := !s.txrdy && s.txen

/-- The interrupt request reaches DRAIN (60_exceptions.md R199). -/
def irqRequest (s : State) : Bool := s.txip && s.txie

/-- "transmit-ready flag is currently set and no transmission is in flight" (43_output_channel.md R168). -/
def primeCondition (s : State) : Bool := s.txrdy && !s.txip

/-- HOST may present a command: none is outstanding, no transaction is in progress and the last response has been
taken (10_state.md R21). -/
def portFree (s : State) : Bool := s.cmd.isNone && s.resp.isNone && decide (s.ph = .idle)

/-- Every command of the program has had its response, and PH = IDLE (70_reset_and_hazards.md R231, log 25). -/
def answered (s : State) : Bool := s.hostCmds.isEmpty && portFree s

/-- The run of the program is over: every command has had its response, PH = IDLE, and neither DRAIN nor UART has an
enabled step (70_reset_and_hazards.md R231). -/
def runOver (s : State) : Bool := answered s && !irqRequest s && !uartDoneEnabled s

/-- SEQ waits for a completion (41_bus_phases.md R122, 40_bus_commands.md R105). -/
def seqWaits (s : State) : Bool := s.ph.waits && !s.bint

/-- PROD waits for TXRDY = 1 with bytes of a SSENDB left (43_output_channel.md R162, R163). -/
def prodWaits (s : State) : Bool :=
  match s.cmd with
  | some (.ssendb text pos) => decide (pos < text.length) && !s.txrdy
  | some .senq => false
  | some (.presented _) => false
  | some (.bsend _ _) => false
  | some (.brecv _ _) => false
  | none => false

end Sys2Proof.Machine
end

