-- ==== Sys2Proof/Machine/Operands.lean ====
section
/-! DEFINITION. Every operand an operation computes: the address byte, the two divisors, the acknowledge choice, the
checks of a command, the response word, the BCTL pattern of a PHY command and the PHY command a pattern stands for. -/

namespace Sys2Proof.Machine

/-- The address byte `{ADDR, DIR}` (30_encoding.md R89). -/
def addressByte (addr : Address) (dir : Direction) : Byte := addr ++ dir.code

/-- The bus clock divisor `F_CLK div (2 * speed) - 8` in the mathematical integers, none when `speed = 0` or when it
is outside 0 .. 255 (40_bus_commands.md R101). -/
def busDivisor (fclk : Nat) (speed : BitVec 24) : Option Byte :=
  if speed.toNat = 0 then none
  else
    let d : Int := ((fclk / (2 * speed.toNat) : Nat) : Int) - 8
    if d < 0 ∨ d > 255 then none else some (BitVec.ofNat 8 d.toNat)

/-- The line rate divisor `F_CLK div (16 * baud) - 1` in the mathematical integers, none when `baud = 0` or when it is
outside 0 .. 4095 (43_output_channel.md R161). -/
def lineDivisor (fclk : Nat) (baud : BitVec 24) : Option (BitVec 12) :=
  if baud.toNat = 0 then none
  else
    let d : Int := ((fclk / (16 * baud.toNat) : Nat) : Int) - 1
    if d < 0 ∨ d > 4095 then none else some (BitVec.ofNat 12 d.toNat)

/-- The check of a command after its format that fails, as the code of its reject: unit not initialised (3), argument out
of range (4); none when the command passes. The other operations are no commands and have no check (40_bus_commands.md
R100 to R102, 43_output_channel.md R161, R162, R166, 60_exceptions.md R193). -/
def failedCheck (i : Instr) (s : State) : Option RejectCode :=
  match i with
  | .binit speed => if (busDivisor s.cfg.fclk speed).isSome then none else some .argRange
  | .bsend _ _ => if s.ben then none else some .notInitialised
  | .brecv _ _ => if s.ben then none else some .notInitialised
  | .sinit baud => if (lineDivisor s.cfg.fclk baud).isSome then none else some .argRange
  | .ssendb _ => if s.txen then none else some .notInitialised
  | .senq _ => none
  | .pStart => none
  | .pXfern => none
  | .pXfera => none
  | .pStop => none
  | .phStart => none
  | .phAddr => none
  | .phDataFirst => none
  | .phDataW => none
  | .phDataR => none
  | .phDone => none
  | .irqDrain => none
  | .uartDone => none
  | .phyComplete => none

/-- The acknowledge choice of the data byte number `idx`: ACK exactly when it is not the last (41_bus_phases.md
R131). -/
def ackChoice (idx cnt : BitVec 16) : Bool := decide (idx.toNat + 1 < cnt.toNat)

/-- The numeric reject code (60_exceptions.md R193). -/
def rejectValue : RejectCode → BitVec 4
  | .illegalOpcode => 1
  | .reservedBits => 2
  | .notInitialised => 3
  | .argRange => 4

/-- The response word, format RS: OPC, REJ, zero, COUNT (30_encoding.md R85). -/
def responseWord (opc rej : BitVec 4) (count : BitVec 16) : Word := opc ++ rej ++ 0#8 ++ count

/-- The BCTL pattern of a PHY command (30_encoding.md R88). -/
def patternOf (p : Patterns) : PhyCommand → Byte
  | .start => p.start
  | .xmit _ => p.xfern
  | .recv ack => if ack then p.xfera else p.xfern
  | .stop => p.stop

/-- What P.XFERN means (30_encoding.md R88): after an address byte with direction bit 1 it receives a byte and answers
NACK; for the address byte itself and after an address byte with direction bit 0 it transmits BDATA (log 12). -/
def xfernCommand (s : State) : PhyCommand :=
  if s.dir = .read ∧ (s.ph = .addrSent ∨ s.ph = .dataXfer) then .recv false else .xmit s.bdata

end Sys2Proof.Machine
end

