-- ==== Sys2Proof/Machine/Ops.lean ====
section
/-! DEFINITION. The shared operations: memory access, the ring's arithmetic, the transmit register, the draws of the
environment, the response port, a command reject, PhyIssue and Stop. -/

namespace Sys2Proof.Machine

/-- The value of an address, if it has one. -/
def Memory.read : Memory → Nat → Option Byte
  | [], _ => none
  | (a, v) :: m, x => if a = x then some v else Memory.read m x

/-- Give an address a value, keeping the canonical form. -/
def Memory.write : Memory → Nat → Byte → Memory
  | [], x, v => [(x, v)]
  | (a, w) :: m, x, v =>
    if x < a then (x, v) :: (a, w) :: m
    else if a = x then (x, v) :: m
    else (a, w) :: Memory.write m x v

/-- A byte sequence laid down from address `start` on, index order (20_memory.md R61). -/
def Memory.ofBytesFrom (start : Nat) : List Byte → Memory
  | [] => []
  | b :: bs => (start, b) :: Memory.ofBytesFrom (start + 1) bs

/-- A byte sequence as a memory: byte `i` at address `i` (20_memory.md R76). -/
def Memory.ofBytes (bs : List Byte) : Memory := Memory.ofBytesFrom 0 bs

/-- The bytes of a memory in order of address. -/
def Memory.bytes (m : Memory) : List Byte := m.map (fun c => c.2)

/-- The memory of a space (10_state.md R44). -/
def State.mem (s : State) : Space → Memory
  | .ring => s.ring
  | .txpay => s.txpay
  | .rxbuf => s.rxbuf
  | .stage => s.stage

/-- The size of a space (10_state.md R44). -/
def spaceSize (s : State) : Space → Nat
  | .ring => s.cfg.cap
  | .txpay => s.cnt.toNat
  | .rxbuf => s.cnt.toNat
  | .stage => s.cfg.stageMax

/-- `MemRead(space, addr, 1)` (00_scope.md R11): a byte that has a value at an address that exists. -/
def memRead (sp : Space) (a : Nat) (s : State) : Except Fault Byte :=
  if a < spaceSize s sp then
    match (s.mem sp).read a with
    | some b => .ok b
    | none => .error (.noByte sp a)
  else .error (.noByte sp a)

/-- `n` bytes of a space from address `a` on, in index order. -/
def memReadRange (sp : Space) (s : State) : Nat → Nat → Except Fault (List Byte)
  | _, 0 => .ok []
  | a, n + 1 =>
    match memRead sp a s with
    | .error f => .error f
    | .ok b =>
      match memReadRange sp s (a + 1) n with
      | .error f => .error f
      | .ok bs => .ok (b :: bs)

/-- Occupancy `(WCUR - RCUR) mod CAP`, computed in the mathematical integers and then reduced (20_memory.md R66). -/
def occupied (s : State) : Nat := (((s.wcur : Int) - (s.rcur : Int)) % (s.cfg.cap : Int)).toNat

/-- Free space `CAP - 1 - occupied` (20_memory.md R66). -/
def freeSpace (s : State) : Nat := s.cfg.cap - 1 - occupied s

/-- A cursor advanced by `k`: `(c + k) mod CAP` (20_memory.md R66). -/
def advance (cap c k : Nat) : Nat := (c + k) % cap

/-- The bytes of a run, number `i` on, stored at `(WCUR + i) mod CAP` (20_memory.md R67). -/
def ringStore (cap wcur : Nat) : Nat → List Byte → Memory → Memory
  | _, [], m => m
  | i, b :: bs, m => ringStore cap wcur (i + 1) bs (m.write (advance cap wcur i) b)

/-- `TxWrite(b)` (43_output_channel.md R164). -/
def txWrite (b : Byte) (s : State) : State := { s with txdata := b, txrdy := false }

/-- Take the oldest byte of the ring and hand it to the transmitter: the common part of Prime and IRQ.DRAIN
(43_output_channel.md R168, R171; 20_memory.md R67). -/
def ringToTx (s : State) : Except Fault State :=
  match memRead .ring s.rcur s with
  | .error f => .error f
  | .ok b => .ok (txWrite b { s with rcur := advance s.cfg.cap s.rcur 1 })

/-- `Prime()` (43_output_channel.md R168). -/
def prime (s : State) : Except Fault State := if primeCondition s then ringToTx s else .ok s

/-- `Enqueue(t)`, the enqueue commit, one atomic step (43_output_channel.md R167). -/
def enqueue (t : List Byte) (s : State) : Except Fault State :=
  let n := min t.length (freeSpace s)
  if n = 0 then .ok s
  else
    prime
      { s with
        ring := ringStore s.cfg.cap s.wcur 0 (t.take n) s.ring
        wcur := advance s.cfg.cap s.wcur n }

/-- The stage buffer takes the first STAGE_MAX bytes of a text (43_output_channel.md R166). -/
def stageText (t : List Byte) (s : State) : State := { s with stage := Memory.ofBytes (t.take s.cfg.stageMax) }

/-- The staged text is committed to the ring and the stage buffer holds nothing afterwards (10_state.md R44,
43_output_channel.md R167). -/
def commitStage (s : State) : Except Fault State := enqueue s.stage.bytes { s with stage := [] }

/-- PHY's answer for the status code: the next of the script, or a free value (41_bus_phases.md R121, log 3). -/
def drawStatus (s : State) : Byte × State :=
  match s.phyStatus with
  | b :: bs => (b, { s with phyStatus := bs })
  | [] => (Config.freeStatus s.draws, { s with draws := s.draws + 1 })

/-- PHY's answer for a received byte: the next of the script, or a free value (41_bus_phases.md R121, log 3). -/
def drawData (s : State) : Byte × State :=
  match s.phyData with
  | b :: bs => (b, { s with phyData := bs })
  | [] => (Config.freeData s.draws, { s with draws := s.draws + 1 })

/-- An accepted command has finished: the response port holds its word and data, no command is outstanding
(30_encoding.md R85). -/
def respond (opc : BitVec 4) (count : BitVec 16) (data : List Byte) (s : State) : State :=
  { s with resp := some { word := responseWord opc 0 count, data := data }, cmd := none }

/-- `raise Reject(code)`: the response and nothing else (60_exceptions.md R193, R194). -/
def reject (opc : BitVec 4) (code : RejectCode) (s : State) : State :=
  { s with resp := some { word := responseWord opc (rejectValue code) 0, data := [] } }

/-- `PhyIssue(c)` (41_bus_phases.md R120). -/
def phyIssue (c : PhyCommand) (s : State) : State :=
  { s with
    bdata := match c with
      | .start => s.bdata
      | .xmit b => b
      | .recv _ => s.bdata
      | .stop => s.bdata
    bctl := patternOf s.cfg.patterns c
    bint := false
    busLog := s.busLog ++ [c] }

/-- `Stop()` (41_bus_phases.md R128). -/
def stop (s : State) : State := { phyIssue .stop s with ph := .stopIssued }

/-- An operation's outcome from the shared operations' answer. -/
def outcomeOf : Except Fault State → Host.Outcome State Fault Refusal
  | .ok s => .next s
  | .error f => .fault f

/-- A register on the debug read port, zero-extended; a number not in the map reads as 0 (10_state.md R50, log 23). -/
def debugRead (s : State) (number : Nat) : Nat :=
  match number with
  | 0x00 => s.bdiv.toNat
  | 0x01 => s.bctl.toNat
  | 0x02 => s.bstat.toNat
  | 0x03 => s.bdata.toNat
  | 0x04 => (bflg s).toNat
  | 0x05 => s.ph.code.toNat
  | 0x06 => (badr s).toNat
  | 0x07 => s.cnt.toNat
  | 0x08 => s.idx.toNat
  | 0x09 => (classCode s.bres).toNat
  | 0x0a => s.lasterr.toNat
  | 0x10 => s.sdiv.toNat
  | 0x11 => sfmt.toNat
  | 0x12 => (sctl s).toNat
  | 0x13 => (sstat s).toNat
  | 0x14 => s.txdata.toNat
  | 0x15 => s.wcur
  | 0x16 => s.rcur
  | _ => 0

end Sys2Proof.Machine
end

