-- ==== Sys2Proof/Machine/StatusDecoder.lean ====
section
/-! DEFINITION. The status decoder: classification, description, diagnostic texts, EmitDiag and Fail
(42_status_decoder.md). -/

namespace Sys2Proof.Machine

/-- The class of a known symbol (42_status_decoder.md R141). -/
def symbolClass : StatusSymbol → StatusClass
  | .start => .ok
  | .rstart => .fatal
  | .slawAck => .ok
  | .slawNack => .recoverable
  | .datwAck => .ok
  | .datwNack => .recoverable
  | .arbLost => .fatal
  | .slarAck => .ok
  | .slarNack => .recoverable
  | .datrAck => .ok
  | .datrNack => .ok

/-- A text as bytes, one byte a character (00_scope.md R11). -/
def ascii (text : String) : List Byte := text.toList.map (fun c => BitVec.ofNat 8 c.toNat)

/-- The description text of a known symbol (42_status_decoder.md R141). -/
def symbolText : StatusSymbol → List Byte
  | .start => ascii "start"
  | .rstart => ascii "rep start"
  | .slawAck => ascii "sla+w ack"
  | .slawNack => ascii "sla+w nack"
  | .datwAck => ascii "data tx ack"
  | .datwNack => ascii "data tx nack"
  | .arbLost => ascii "arb lost"
  | .slarAck => ascii "sla+r ack"
  | .slarNack => ascii "sla+r nack"
  | .datrAck => ascii "data rx ack"
  | .datrNack => ascii "data rx nack"

/-- The symbol whose value a status code is, all 8 bits compared (30_encoding.md R91). -/
def lookupStatus (t : StatusTable) (v : Byte) : Option StatusSymbol :=
  StatusSymbol.all.find? (fun k => decide (t.value k = v))

/-- `Classify(s)`, total, of the status code alone (42_status_decoder.md R142). -/
def classify (t : StatusTable) (v : Byte) : StatusClass :=
  match lookupStatus t v with
  | some k => symbolClass k
  | none => .unrecognized

/-- `Describe(s)` (42_status_decoder.md R144). -/
def describe (t : StatusTable) (v : Byte) : List Byte :=
  match lookupStatus t v with
  | some k => symbolText k
  | none => ascii "unknown status"

/-- One hexadecimal digit of `0123456789abcdef` (42_status_decoder.md R149). -/
def hexDigit (n : Nat) : Byte := if n < 10 then BitVec.ofNat 8 (0x30 + n) else BitVec.ofNat 8 (0x61 + (n - 10))

/-- `hex2(v)`: the high nibble then the low nibble (42_status_decoder.md R149). -/
def hex2 (v : Byte) : List Byte := [hexDigit (v.toNat / 16), hexDigit (v.toNat % 16)]

/-- The decimal digits of `n`, most significant first, at most `fuel` of them. -/
def decDigits : Nat → Nat → List Byte
  | 0, _ => []
  | fuel + 1, n =>
    if n < 10 then [BitVec.ofNat 8 (0x30 + n)]
    else decDigits fuel (n / 10) ++ [BitVec.ofNat 8 (0x30 + n % 10)]

/-- `dec(n)` (42_status_decoder.md R149). -/
def dec (n : Nat) : List Byte := decDigits (n + 1) n

/-- `SevName(c)` (42_status_decoder.md R147, 90_conflicts.md C2). An OK phase has no error line. -/
def severityName : StatusClass → List Byte
  | .ok => []
  | .recoverable => ascii "Recoverable"
  | .fatal => ascii "Fatal"
  | .unrecognized => ascii "Fatal"

/-- The default text of an event (42_status_decoder.md R147, R148). -/
def standardRender (t : StatusTable) : DiagEvent → List Byte
  | .errLine c v a =>
    ascii "TWI " ++ severityName c ++ ascii " " ++ describe t v ++ ascii " st=0x" ++ hex2 v ++ ascii " ad=0x" ++
      hex2 (a.setWidth 8) ++ ascii "\n"
  | .rxDump a bs =>
    ascii "TWI rx ad=0x" ++ hex2 (a.setWidth 8) ++ ascii " n=" ++ dec bs.length ++ ascii ":" ++
      bs.flatMap (fun b => ascii " " ++ hex2 b) ++ ascii "\n"

/-- DIAG_RENDER (42_status_decoder.md R150, log 5). -/
def render (cfg : Config) (e : DiagEvent) : List Byte :=
  match cfg.diagRender with
  | .standard => standardRender cfg.status e
  | .custom k => Config.customRender k e

/-- `EmitDiag(e)`: the event is logged, its text goes through the stage buffer to the enqueue commit, all in one step
(42_status_decoder.md R146, R148; log 18). -/
def emitDiag (e : DiagEvent) (s : State) : Except Fault State :=
  commitStage (stageText (render s.cfg e) { s with diagLog := s.diagLog ++ [e] })

/-- `Fail(c)` (42_status_decoder.md R143). -/
def fail (c : StatusClass) (s : State) : Except Fault State :=
  emitDiag (.errLine c s.bstat s.addr) { s with bres := c, lasterr := s.bstat }

/-- `Fail(c); Stop()`: the end of a transaction at its first phase that is not OK (41_bus_phases.md R124 to R127). -/
def failAndStop (c : StatusClass) (s : State) : Except Fault State :=
  match fail c s with
  | .error f => .error f
  | .ok s' => .ok (stop s')

end Sys2Proof.Machine
end

