-- ==== Sys2Proof/Machine/BusCommands.lean ====
section
/-! DEFINITION. The bus commands BINIT, BSEND, BRECV, which SEQ takes from the command port (40_bus_commands.md R100).
Their format checks are the decoder's; the checks here are those of R101 and R102. -/

namespace Sys2Proof.Machine

/-- BINIT (40_bus_commands.md R101). -/
def execBinit (speed : BitVec 24) (s : State) : Host.Outcome State Fault Refusal :=
  if portFree s then
    match busDivisor s.cfg.fclk speed with
    | some d => .next (respond 0x1 0 [] { s with bdiv := d, ben := true })
    | none => .next (reject 0x1 .argRange s)
  else .refused .commandOutstanding

/-- The acceptance of a transaction: BEN = 1, else Reject(3) (40_bus_commands.md R102). -/
def acceptBus (opc : BitVec 4) (c : Outstanding) (s : State) : Host.Outcome State Fault Refusal :=
  if portFree s then
    if s.ben then .next { s with cmd := some c } else .next (reject opc .notInitialised s)
  else .refused .commandOutstanding

/-- BSEND (40_bus_commands.md R103): accepted, the payload captured whole; PH.START follows in the same step
(41_bus_phases.md R123, Agents.lean), its other steps are in BusPhases.lean. -/
def execBsend (addr : Address) (bytes : List Byte) (s : State) : Host.Outcome State Fault Refusal :=
  acceptBus 0x2 (.bsend addr bytes) s

/-- BRECV (40_bus_commands.md R104): accepted; PH.START follows in the same step, as for a BSEND. -/
def execBrecv (addr : Address) (maxCount : BitVec 16) (s : State) : Host.Outcome State Fault Refusal :=
  acceptBus 0x3 (.brecv addr maxCount) s

end Sys2Proof.Machine
end

