-- ==== Sys2Proof/Machine/BusPhases.lean ====
section
/-! DEFINITION. The protocol sequencer's steps and PHY.COMPLETE (41_bus_phases.md). -/

namespace Sys2Proof.Machine

/-- PHY.COMPLETE (41_bus_phases.md R121). The data byte is drawn when the last entry of bus_log is PRecv. -/
def execPhyComplete (s : State) : Host.Outcome State Fault Refusal :=
  if phyCompleteEnabled s then
    let (v, s1) := drawStatus s
    let s2 := { s1 with bstat := v, bint := true }
    match s.busLog.getLast? with
    | some (.recv _) =>
      let (d, s3) := drawData s2
      .next { s3 with bdata := d }
    | some .start => .next s2
    | some (.xmit _) => .next s2
    | some .stop => .next s2
    | none => .next s2
  else .refused .notEnabled

/-- PH.START (41_bus_phases.md R123): the latches are loaded and the start condition is commanded. -/
def startTransaction (addr : Address) (dir : Direction) (cnt : BitVec 16) (s : State) : State :=
  { phyIssue .start { s with addr := addr, dir := dir, cnt := cnt, idx := 0, bres := .ok, cmd := none } with
    ph := .startIssued }

/-- PH.START (41_bus_phases.md R123): enabled in IDLE with an accepted BSEND or BRECV; it is one step with
the acceptance (Agents.lean, log 8). -/
def execPhStart (s : State) : Host.Outcome State Fault Refusal :=
  if s.ph = .idle then
    match s.cmd with
    | some (.bsend addr bytes) =>
      .next (startTransaction addr .write (BitVec.ofNat 16 bytes.length) { s with txpay := Memory.ofBytes bytes })
    | some (.brecv addr n) => .next (startTransaction addr .read n s)
    | some (.presented _) => .refused .notEnabled
    | some (.ssendb _ _) => .refused .notEnabled
    | some .senq => .refused .notEnabled
    | none => .refused .notEnabled
  else .refused .notEnabled

/-- PH.ADDR (41_bus_phases.md R124). -/
def execPhAddr (s : State) : Host.Outcome State Fault Refusal :=
  if s.ph = .startIssued ∧ s.bint = true then
    match classify s.cfg.status s.bstat with
    | .ok => .next { phyIssue (.xmit (addressByte s.addr s.dir)) s with ph := .addrSent }
    | .recoverable => outcomeOf (failAndStop .recoverable s)
    | .fatal => outcomeOf (failAndStop .fatal s)
    | .unrecognized => outcomeOf (failAndStop .unrecognized s)
  else .refused .notEnabled

/-- `IssueData()`: command the data byte number IDX (41_bus_phases.md R131), and be in DATA_XFER. -/
def issueData (s : State) : Except Fault State :=
  match s.dir with
  | .write =>
    match memRead .txpay s.idx.toNat s with
    | .error f => .error f
    | .ok b => .ok { phyIssue (.xmit b) s with ph := .dataXfer }
  | .read => .ok { phyIssue (.recv (ackChoice s.idx s.cnt)) s with ph := .dataXfer }

/-- PH.DATA from ADDR_SENT (41_bus_phases.md R125). -/
def execPhDataFirst (s : State) : Host.Outcome State Fault Refusal :=
  if s.ph = .addrSent ∧ s.bint = true then
    match classify s.cfg.status s.bstat with
    | .ok => if s.cnt = 0 then .next (stop s) else outcomeOf (issueData s)
    | .recoverable => outcomeOf (failAndStop .recoverable s)
    | .fatal => outcomeOf (failAndStop .fatal s)
    | .unrecognized => outcomeOf (failAndStop .unrecognized s)
  else .refused .notEnabled

/-- Command the data byte number IDX if there is one, or stop (41_bus_phases.md R126, R127). -/
def issueDataOrStop (s : State) : Except Fault State :=
  if s.idx.toNat < s.cnt.toNat then issueData s else .ok (stop s)

/-- The data byte number IDX has completed with class OK: count it, then command the next or stop
(41_bus_phases.md R126, R127). -/
def nextData (s : State) : Except Fault State := issueDataOrStop { s with idx := s.idx + 1 }

/-- PH.DATA from DATA_XFER, write direction (41_bus_phases.md R126). -/
def execPhDataW (s : State) : Host.Outcome State Fault Refusal :=
  if s.ph = .dataXfer ∧ s.bint = true ∧ s.dir = .write then
    match classify s.cfg.status s.bstat with
    | .ok => outcomeOf (nextData s)
    | .recoverable => outcomeOf (failAndStop .recoverable s)
    | .fatal => outcomeOf (failAndStop .fatal s)
    | .unrecognized => outcomeOf (failAndStop .unrecognized s)
  else .refused .notEnabled

/-- `MemWrite(RXBUF, IDX, 1, BDATA)` (41_bus_phases.md R127, 20_memory.md R76), at an address that exists. -/
def storeReceived (s : State) : Except Fault State :=
  if s.idx.toNat < spaceSize s .rxbuf then .ok { s with rxbuf := s.rxbuf.write s.idx.toNat s.bdata }
  else .error (.noSuchAddress .rxbuf s.idx.toNat)

/-- PH.DATA from DATA_XFER, read direction (41_bus_phases.md R127). -/
def execPhDataR (s : State) : Host.Outcome State Fault Refusal :=
  if s.ph = .dataXfer ∧ s.bint = true ∧ s.dir = .read then
    match classify s.cfg.status s.bstat with
    | .ok =>
      match storeReceived s with
      | .error f => .fault f
      | .ok s' => outcomeOf (nextData s')
    | .recoverable => outcomeOf (failAndStop .recoverable s)
    | .fatal => outcomeOf (failAndStop .fatal s)
    | .unrecognized => outcomeOf (failAndStop .unrecognized s)
  else .refused .notEnabled

/-- The end of a BRECV: the dump, then the response with the bytes read (41_bus_phases.md R129). -/
def finishReceive (s : State) : Except Fault State :=
  match memReadRange .rxbuf s 0 s.idx.toNat with
  | .error f => .error f
  | .ok bs =>
    match emitDiag (.rxDump s.addr bs) s with
    | .error f => .error f
    | .ok s' => .ok { respond 0x3 s.idx bs s' with ph := .idle }

/-- PH.DONE (41_bus_phases.md R129): enabled in STOP_ISSUED, whatever BINT is. -/
def execPhDone (s : State) : Host.Outcome State Fault Refusal :=
  if s.ph = .stopIssued then
    match s.dir with
    | .read => outcomeOf (finishReceive s)
    | .write => .next { respond 0x2 0 [] s with ph := .idle }
  else .refused .notEnabled

end Sys2Proof.Machine
end

