-- ==== Sys2Proof/Machine/OutputChannel.lean ====
section
/-! DEFINITION. The asynchronous output channel: SINIT, SSENDB, SENQ, which PROD takes from the command port, the
producer's further steps, IRQ.DRAIN and UART.DONE (43_output_channel.md). -/

namespace Sys2Proof.Machine

/-- SINIT (43_output_channel.md R161). -/
def execSinit (baud : BitVec 24) (s : State) : Host.Outcome State Fault Refusal :=
  if portFree s then
    match lineDivisor s.cfg.fclk baud with
    | some d => .next (respond 0x9 0 [] { s with sdiv := d, txen := true, txie := true })
    | none => .next (reject 0x9 .argRange s)
  else .refused .commandOutstanding

/-- SSENDB (43_output_channel.md R162): TXEN = 1, else Reject(3); accepted at position 0 of its text. Its
first byte step follows in the same step when it is enabled (Agents.lean). -/
def execSsendb (text : List Byte) (s : State) : Host.Outcome State Fault Refusal :=
  if portFree s then
    if s.txen then .next { s with cmd := some (.ssendb text 0) } else .next (reject 0xa .notInitialised s)
  else .refused .commandOutstanding

/-- SENQ (43_output_channel.md R166): its first step, the stage; the commit is the producer's next step (log 10). -/
def execSenq (text : List Byte) (s : State) : Host.Outcome State Fault Refusal :=
  if portFree s then .next { stageText text s with cmd := some .senq } else .refused .commandOutstanding

/-- The step of an accepted SSENDB: the next byte when TXRDY = 1, the response when no byte is left; with bytes left
and TXRDY = 0 the producer has no step (43_output_channel.md R163). -/
def ssendbStep (text : List Byte) (pos : Nat) (s : State) : State :=
  match text[pos]? with
  | some b => if s.txrdy then { txWrite b s with cmd := some (.ssendb text (pos + 1)) } else s
  | none => respond 0xa (BitVec.ofNat 16 text.length) [] s

/-- The commit of a SENQ and its response (43_output_channel.md R166, R167). -/
def senqCommit (s : State) : Except Fault State :=
  match commitStage s with
  | .error f => .error f
  | .ok s' => .ok (respond 0xb 0 [] s')

/-- The producer's step in a command that it has taken, whichever it has; without one nothing changes (10_state.md
R20). -/
def prodStep (s : State) : Host.Outcome State Fault Refusal :=
  match s.cmd with
  | some (.ssendb text pos) => .next (ssendbStep text pos s)
  | some .senq => outcomeOf (senqCommit s)
  | some (.presented _) => .next s
  | some (.bsend _ _) => .next s
  | some (.brecv _ _) => .next s
  | none => .next s

/-- IRQ.DRAIN (43_output_channel.md R171). -/
def execIrqDrain (s : State) : Host.Outcome State Fault Refusal :=
  if irqRequest s then
    if s.rcur ≠ s.wcur ∧ s.txrdy = true then outcomeOf (ringToTx { s with txip := false })
    else .next { s with txip := false }
  else .refused .notEnabled

/-- UART.DONE (43_output_channel.md R165). -/
def execUartDone (s : State) : Host.Outcome State Fault Refusal :=
  if uartDoneEnabled s then .next { s with wire := s.wire ++ [s.txdata], txrdy := true, txip := true }
  else .refused .notEnabled

end Sys2Proof.Machine
end

