-- ==== Sys2Proof/Machine/PhyPatterns.lean ====
section
/-! DEFINITION. The four BCTL patterns (30_encoding.md R88): what a write of each to BCTL is, PhyIssue of the PHY command
it stands for (41_bus_phases.md R120). In the hardware such a write is always part of a sequencer step; taken alone it
is a turn `Turn.bctl` (log 12). -/

namespace Sys2Proof.Machine

/-- P.START stands for PStart. -/
def execPStart (s : State) : Host.Outcome State Fault Refusal := .next (phyIssue .start s)

/-- P.XFERN stands for PXmit(BDATA) or PRecv(false), as DIR and PH say. -/
def execPXfern (s : State) : Host.Outcome State Fault Refusal := .next (phyIssue (xfernCommand s) s)

/-- P.XFERA stands for PRecv(true). -/
def execPXfera (s : State) : Host.Outcome State Fault Refusal := .next (phyIssue (.recv true) s)

/-- P.STOP stands for PStop. -/
def execPStop (s : State) : Host.Outcome State Fault Refusal := .next (phyIssue .stop s)

end Sys2Proof.Machine
end

