-- ==== Sys2Proof/Machine/Dispatch.lean ====
section
/-! DEFINITION. One arm per operation of spec/opcode_table.json. -/

namespace Sys2Proof.Machine

def exec (i : Instr) (s : State) : Host.Outcome State Fault Refusal :=
  match i with
  | .binit speed => Sys2Proof.Machine.execBinit speed s
  | .bsend addr bytes => Sys2Proof.Machine.execBsend addr bytes s
  | .brecv addr maxCount => Sys2Proof.Machine.execBrecv addr maxCount s
  | .sinit baud => Sys2Proof.Machine.execSinit baud s
  | .ssendb text => Sys2Proof.Machine.execSsendb text s
  | .senq text => Sys2Proof.Machine.execSenq text s
  | .pStart => Sys2Proof.Machine.execPStart s
  | .pXfern => Sys2Proof.Machine.execPXfern s
  | .pXfera => Sys2Proof.Machine.execPXfera s
  | .pStop => Sys2Proof.Machine.execPStop s
  | .phStart => Sys2Proof.Machine.execPhStart s
  | .phAddr => Sys2Proof.Machine.execPhAddr s
  | .phDataFirst => Sys2Proof.Machine.execPhDataFirst s
  | .phDataW => Sys2Proof.Machine.execPhDataW s
  | .phDataR => Sys2Proof.Machine.execPhDataR s
  | .phDone => Sys2Proof.Machine.execPhDone s
  | .irqDrain => Sys2Proof.Machine.execIrqDrain s
  | .uartDone => Sys2Proof.Machine.execUartDone s
  | .phyComplete => Sys2Proof.Machine.execPhyComplete s

end Sys2Proof.Machine
end

