-- ==== Sys2Proof/Machine/Agents.lean ====
section
/-! DEFINITION. What an agent's turn does (10_state.md R20, 30_encoding.md R80). HOST presents a command, which the
command port checks, or takes a response; SEQ and PROD take the commands of their unit from the port; an agent runs the
operation that its registers select. A turn of an agent that has no enabled step changes nothing (41_bus_phases.md R122).
And the placing of a table row's word before the next step (log 13). -/

namespace Sys2Proof.Machine

/-- Run what the decoder answered for a selector or a pattern; no row, no step. -/
def runDecoded (d : Decoded) (s : State) : Host.Outcome State Fault Refusal :=
  match d with
  | .ok i _ => exec i s
  | .reject _ _ => .next s
  | .short => .next s
  | .noRow => .next s

/-- The agent that takes a command from the command port: SEQ the commands of the BTC, PROD those of the AOC
(10_state.md R20, 40_bus_commands.md R100, 30_encoding.md R82). The other operations are no commands. -/
def commandUnit : Instr → Option Agent
  | .binit _ => some .seq
  | .bsend _ _ => some .seq
  | .brecv _ _ => some .seq
  | .sinit _ => some .prod
  | .ssendb _ => some .prod
  | .senq _ => some .prod
  | .pStart => none
  | .pXfern => none
  | .pXfera => none
  | .pStop => none
  | .phStart => none
  | .phAddr => none
  | .phDataFirst => none
  | .phDataW => none
  | .phDataR => none
  | .phDone => none
  | .irqDrain => none
  | .uartDone => none
  | .phyComplete => none

/-- HOST's step: take the response that waits; else, when no command is outstanding, present the next one at the
command port, once its payload bytes are there. The port checks what is presented, format first: a command that fails
is answered there and then with its reject, and no unit takes a step for it; one that passes is left to its unit
(10_state.md R20, R21, 40_bus_commands.md R100, 41_bus_phases.md R123, 60_exceptions.md R193, logs 8, 9, 16). -/
def hostTurn (s : State) : Host.Outcome State Fault Refusal :=
  if s.resp.isSome then .next { s with resp := none }
  else if portFree s then
    match s.hostCmds with
    | [] => .next s
    | h :: hs =>
      match decodeCommand h s.hostBytes with
      | .ok i rest =>
        match failedCheck i s with
        | some code => .next (reject (headerOpc h) code { s with hostCmds := hs, hostBytes := rest })
        | none => .next { s with hostCmds := hs, hostBytes := rest, cmd := some (.presented i) }
      | .reject code rest => .next (reject (headerOpc h) code { s with hostCmds := hs, hostBytes := rest })
      | .short => .next s
      | .noRow => .next s
  else .next s

/-- The command at the port for an agent to take: presented to its unit, passing its checks, with no transaction in
progress and no response waiting (10_state.md R21, 41_bus_phases.md R123). -/
def atPort (a : Agent) (s : State) : Option Instr :=
  match s.cmd with
  | some (.presented i) =>
    if commandUnit i = some a ∧ failedCheck i s = none ∧ s.resp = none ∧ s.ph = .idle then some i else none
  | some (.bsend _ _) => none
  | some (.brecv _ _) => none
  | some (.ssendb _ _) => none
  | some .senq => none
  | none => none

/-- What the step that accepts a command does besides. The acceptance of a BSEND or BRECV is PH.START (41_bus_phases.md
R123), that of a SSENDB is its first byte step or its response, when enabled (43_output_channel.md R163). The stage of a
SENQ is a step by itself (43_output_channel.md R166), and BINIT and SINIT have been answered. -/
def afterAcceptance (s : State) : Host.Outcome State Fault Refusal :=
  match s.cmd with
  | some (.bsend _ _) => exec .phStart s
  | some (.brecv _ _) => exec .phStart s
  | some (.ssendb text pos) => .next (ssendbStep text pos s)
  | some .senq => .next s
  | some (.presented _) => .next s
  | none => .next s

/-- A unit takes a command from the port and runs it: its first effect, one step (40_bus_commands.md R100,
41_bus_phases.md R123). -/
def takeCommand (i : Instr) (s : State) : Host.Outcome State Fault Refusal :=
  match exec i { s with cmd := none } with
  | .next u => afterAcceptance u
  | .fault f => .fault f
  | .refused r => .refused r

/-- The selector PHSEL of the state, `{DIR, PH}` (30_encoding.md R80). -/
def phSelector (s : State) : BitVec 4 := s.dir.code ++ s.ph.code

/-- What the selected sequencer step needs besides its selector: an accepted BSEND or BRECV in IDLE, BINT = 1
in the phases that wait, nothing in STOP_ISSUED (spec/opcode_table.json, 41_bus_phases.md R122 to R129). -/
def seqReady (s : State) : Bool :=
  match s.ph with
  | .idle =>
    match s.cmd with
    | some (.bsend _ _) => true
    | some (.brecv _ _) => true
    | some (.presented _) => false
    | some (.ssendb _ _) => false
    | some .senq => false
    | none => false
  | .startIssued => s.bint
  | .addrSent => s.bint
  | .dataXfer => s.bint
  | .stopIssued => true

/-- SEQ's step: a command of the BTC at the port, or the step that PHSEL selects. -/
def seqTurn (s : State) : Host.Outcome State Fault Refusal :=
  match atPort .seq s with
  | some i => takeCommand i s
  | none => if seqReady s then runDecoded (decodePhSel (phSelector s)) s else .next s

/-- PROD's step: a command of the AOC at the port, or the next step of the command it has taken. -/
def prodTurn (s : State) : Host.Outcome State Fault Refusal :=
  match atPort .prod s with
  | some i => takeCommand i s
  | none => prodStep s

/-- DRAIN's step, selected by `{TXIE, TXIP}`. -/
def drainTurn (s : State) : Host.Outcome State Fault Refusal :=
  runDecoded (decodeIrqSel (bit s.txie ++ bit s.txip)) s

/-- UART's step, selected by `{TXEN, TXRDY}`. -/
def uartTurn (s : State) : Host.Outcome State Fault Refusal :=
  runDecoded (decodeUartSel (bit s.txen ++ bit s.txrdy)) s

/-- PHY's step, selected by `{BINT}` with PH in 1 .. 3. -/
def phyTurn (s : State) : Host.Outcome State Fault Refusal :=
  if s.ph.waits then runDecoded (decodePhySel (bit s.bint)) s else .next s

/-- The step of one turn. -/
def runTurn (t : Turn) (s : State) : Host.Outcome State Fault Refusal :=
  match t with
  | .agent .host => hostTurn s
  | .agent .seq => seqTurn s
  | .agent .prod => prodTurn s
  | .agent .drain => drainTurn s
  | .agent .uart => uartTurn s
  | .agent .phy => phyTurn s
  | .bctl v => runDecoded (decodePattern s.cfg.patterns v) s

/-- Who moves next, and the state with that choice taken: the head of `turns`, or a free agent (log 2). -/
def nextTurn (s : State) : Turn × State :=
  match s.turns with
  | t :: ts => (t, { s with turns := ts })
  | [] => (.agent (Config.freeAgent s.draws), { s with draws := s.draws + 1 })

/-- A header with its payload bytes placed before HOST, whose very next step presents it. -/
def placeHeader (h : Word) (bytes : List Byte) (s : State) : State :=
  { s with
    cmd := none, resp := none, ph := .idle
    hostCmds := h :: s.hostCmds, hostBytes := bytes ++ s.hostBytes, turns := .agent .host :: s.turns }

/-- A header with its payload placed so that the very next step runs it: at the port before its unit, or before HOST when
it is going to be rejected. -/
def placeCommand (h : Word) (bytes : List Byte) (s : State) : State :=
  match decodeCommand h bytes with
  | .ok i _ =>
    match commandUnit i, failedCheck i s with
    | some a, none => { s with cmd := some (.presented i), resp := none, ph := .idle, turns := .agent a :: s.turns }
    | some _, some _ => placeHeader h bytes s
    | none, _ => placeHeader h bytes s
  | .reject _ _ => placeHeader h bytes s
  | .short => placeHeader h bytes s
  | .noRow => placeHeader h bytes s

/-- The registers a PHSEL names are set, and with them what the step also needs: BINT = 1, or in IDLE an accepted
command of that direction (address 0, no bytes). -/
def placePhSel (v : BitVec 4) (s : State) : State :=
  match Phase.ofCode (v.extractLsb' 0 3) with
  | none => s
  | some ph =>
    { s with
      ph := ph
      dir := if v.getMsbD 0 then .read else .write
      bint := if ph.waits then true else s.bint
      cmd := if ph = .idle then (if v.getMsbD 0 then some (.brecv 0 0) else some (.bsend 0 [])) else s.cmd
      turns := .agent .seq :: s.turns }

/-- The state with a table row's code where the next step takes its operation (log 13). -/
def placeCode (c : Code) (s : State) : State :=
  match c with
  | .command h bytes => placeCommand h bytes s
  | .pattern v => { s with turns := .bctl v :: s.turns }
  | .phSel v => placePhSel v s
  | .irqSel v => { s with txie := v.getMsbD 0, txip := v.getLsbD 0, turns := .agent .drain :: s.turns }
  | .uartSel v => { s with txen := v.getMsbD 0, txrdy := v.getLsbD 0, turns := .agent .uart :: s.turns }
  | .phySel v =>
    { s with
      bint := v.getLsbD 0
      ph := if s.ph.waits then s.ph else .startIssued
      turns := .agent .phy :: s.turns }

/-- The state in which the very next step takes the operation of a table row's word `w` of `nbits` bits. -/
def placeTableWord (s : State) (nbits w : Nat) : State :=
  match codeOfTableWord nbits w with
  | some c => placeCode c s
  | none => s

end Sys2Proof.Machine
end

