-- ==== Sys2Proof/Machine/Step.lean ====
section
/-! DEFINITION. One step of the machine: one atomic step of one agent (10_state.md R20, 20_memory.md R68). -/

namespace Sys2Proof.Machine

/-- One step: the next turn is taken and its agent moves. -/
def step (s : State) : Host.Outcome State Fault Refusal := runTurn (nextTurn s).1 (nextTurn s).2

/-- The state in which the next step runs the instruction of a table row's word (log 13, log 14). -/
def State.withFetchWord (s : State) (nbits w : Nat) : State := placeTableWord s nbits w

end Sys2Proof.Machine
end

