-- ==== Sys2Proof/Safety.lean ====
section
/-! DEFINITION. What the statements speak of: the ring's well-formedness, the invariant of every reachable state, the
byte stream of the output channel, the record a transaction leaves in bus_log, and schedules. -/

namespace Sys2Proof.Machine

/-- The ring can be read and written: CAP is at least 2, the cursors are in range, every slot between them has been
written (20_memory.md R66, R67; 43_output_channel.md R172 b; 10_state.md R44). -/
structure RingOk (s : State) : Prop where
  capTwo  : 2 ≤ s.cfg.cap
  wcurLt  : s.wcur < s.cfg.cap
  rcurLt  : s.rcur < s.cfg.cap
  written : ∀ k, k < occupied s → (s.ring.read (advance s.cfg.cap s.rcur k)).isSome = true

/-- A ring that holds bytes is never idle (43_output_channel.md R172 d). -/
abbrev RingBusy (s : State) : Prop := 0 < occupied s → s.txrdy = false ∨ s.txip = true

/-- A turn of an agent, not a write of BCTL taken alone (41_bus_phases.md R120, log 12). -/
def Turn.isAgent : Turn → Bool
  | .agent _ => true
  | .bctl _ => false

/-- The next turn is an agent's. -/
abbrev NextIsAgent (s : State) : Prop := (nextTurn s).1.isAgent = true

/-- The invariant of the reachable states. -/
structure Invariant (s : State) : Prop where
  /-- 00_scope.md R9 -/
  valid     : s.cfg.Valid
  /-- 43_output_channel.md R172 (a), (b); 10_state.md R44 -/
  ring      : RingOk s
  /-- 43_output_channel.md R172 (d) -/
  busy      : RingBusy s
  /-- every memory is in canonical form -/
  ringWf    : s.ring.wf = true
  txpayWf   : s.txpay.wf = true
  rxbufWf   : s.rxbuf.wf = true
  stageWf   : s.stage.wf = true
  /-- RING has the addresses 0 .. CAP-1 only (10_state.md R44) -/
  ringSize  : ∀ c ∈ s.ring, c.1 < s.cfg.cap
  /-- STAGE holds at most STAGE_MAX bytes (10_state.md R44) -/
  stageSize : s.stage.length ≤ s.cfg.stageMax
  /-- TXEN and TXIE are set together (43_output_channel.md R161) -/
  together  : s.txie = s.txen
  /-- TXIP = 1 only after a UART.DONE, which needs TXEN = 1 (43_output_channel.md R161) -/
  pending   : s.txip = true → s.txen = true
  /-- IDX never passes CNT (10_state.md R30) -/
  idxLe     : s.idx.toNat ≤ s.cnt.toNat
  /-- before the first data byte IDX is 0 (41_bus_phases.md R123) -/
  idxZero   : s.ph = .startIssued ∨ s.ph = .addrSent → s.idx = 0
  /-- a data byte is commanded only with IDX < CNT (41_bus_phases.md R131) -/
  idxLt     : s.ph = .dataXfer → s.idx.toNat < s.cnt.toNat
  /-- the payload of the BSEND in progress (10_state.md R44) -/
  payload   : s.ph.waits = true → s.dir = .write → ∀ i, i < s.cnt.toNat → (s.txpay.read i).isSome = true
  /-- the bytes received so far (10_state.md R44) -/
  received  : s.ph ≠ .idle → s.dir = .read → ∀ i, i < s.idx.toNat → (s.rxbuf.read i).isSome = true
  /-- no phase has failed while the sequencer waits (10_state.md R43) -/
  okSoFar   : s.ph.waits = true → s.bres = .ok
  /-- one command outstanding at most (10_state.md R21) -/
  onePort   : s.cmd ≠ none → s.ph = .idle ∧ s.resp = none
  /-- what stands at the port is a command of a unit, SEQ or PROD, and has passed its checks (10_state.md R20,
  40_bus_commands.md R100) -/
  presented : ∀ i, s.cmd = some (.presented i) → commandUnit i ≠ none ∧ failedCheck i s = none
  /-- the acceptance of a BSEND or BRECV is part of PH.START (41_bus_phases.md R123) -/
  started   : (∀ a b, s.cmd ≠ some (.bsend a b)) ∧ ∀ a n, s.cmd ≠ some (.brecv a n)
  respIdle  : s.resp ≠ none → s.ph = .idle
  /-- STAGE holds nothing but the text of a SENQ that waits for its commit (10_state.md R44) -/
  staged    : s.stage ≠ [] → s.cmd = some .senq
  /-- BCTL holds its reset value or one of the four patterns (10_state.md R37) -/
  bctl      : s.bctl = 0x00 ∨ ∃ c, s.bctl = patternOf s.cfg.patterns c
  /-- no write of BCTL is taken alone (41_bus_phases.md R120) -/
  agents    : ∀ t ∈ s.turns, t.isAgent = true

/-- The bytes the ring holds, oldest first (20_memory.md R67). -/
def ringContents (s : State) : List Byte :=
  (List.range (occupied s)).filterMap (fun k => s.ring.read (advance s.cfg.cap s.rcur k))

/-- The byte in the transmit register that UART has not taken yet (10_state.md R40, R41). -/
def inFlight (s : State) : List Byte := if s.txrdy then [] else [s.txdata]

/-- What the wire has, the byte in flight, then the ring (20_memory.md R71). -/
def stream (s : State) : List Byte := s.wire ++ inFlight s ++ ringContents s

/-- The PHY command of the data byte number `i` of the transaction in progress (41_bus_phases.md R131). -/
def dataCommand (s : State) (i : Nat) : PhyCommand :=
  match s.dir with
  | .write => .xmit ((s.txpay.read i).getD 0)
  | .read => .recv (decide (i + 1 < s.cnt.toNat))

/-- What a transaction has added to bus_log once `n` data bytes are commanded (40_bus_commands.md R106 b). -/
def transactionLog (s : State) (n : Nat) : List PhyCommand :=
  [.start, .xmit (addressByte s.addr s.dir)] ++ (List.range n).map (dataCommand s)

/-- bus_log ends with what the transaction in progress has commanded so far, in protocol order, and every finished
transaction ended with PStop (40_bus_commands.md R106, 20_memory.md R70). -/
def LogFollowsPhase (s : State) : Prop :=
  match s.ph with
  | .idle => s.busLog = [] ∨ s.busLog.getLast? = some .stop
  | .startIssued => [.start] <:+ s.busLog
  | .addrSent => transactionLog s 0 <:+ s.busLog
  | .dataXfer => transactionLog s (s.idx.toNat + 1) <:+ s.busLog
  | .stopIssued =>
    (s.bres = .ok → s.idx = s.cnt ∧ transactionLog s s.idx.toNat ++ [.stop] <:+ s.busLog) ∧
      (s.bres ≠ .ok →
        [.start, .stop] <:+ s.busLog ∨ transactionLog s 0 ++ [.stop] <:+ s.busLog ∨
          transactionLog s (s.idx.toNat + 1) ++ [.stop] <:+ s.busLog)

/-- As many PStop as PStart in bus_log, less the one of a transaction that has not issued it yet
(40_bus_commands.md R106 a). -/
abbrev StopsBalanceStarts (s : State) : Prop :=
  s.busLog.count .start = s.busLog.count .stop + (if s.ph.waits then 1 else 0)

/-- `k` steps, stopping at the first fault or refusal. -/
def runSteps : Nat → State → Host.Outcome State Fault Refusal
  | 0, s => .next s
  | k + 1, s =>
    match step s with
    | .next t => runSteps k t
    | .fault f => .fault f
    | .refused r => .refused r

/-- The state whose next `k` turns are the first `k` of a schedule, an endless list of agents. -/
def scheduled (next : Nat → Agent) (k : Nat) (s : State) : State :=
  { s with turns := (List.range k).map (fun i => .agent (next i)) }

/-- The run from `s` under a schedule is over in `t`, its end state (70_reset_and_hazards.md R231). -/
def EndsIn (next : Nat → Agent) (s t : State) : Prop :=
  ∃ k, runSteps k (scheduled next k s) = .next t ∧ runOver t = true

/-- In the run from `s` under a schedule SEQ waits for ever, or PROD does: a hang (70_reset_and_hazards.md R225, R231;
40_bus_commands.md R105). -/
def WaitsForEver (next : Nat → Agent) (s : State) : Prop :=
  (∀ k, ∃ t, runSteps k (scheduled next k s) = .next t ∧ seqWaits t = true) ∨
  (∀ k, ∃ t, runSteps k (scheduled next k s) = .next t ∧ prodWaits t = true)

/-- `n` times UART then DRAIN: the serial side settling (95_test_vectors.md section 2). -/
def drainSchedule : Nat → List Turn
  | 0 => []
  | n + 1 => .agent .uart :: .agent .drain :: drainSchedule n

/-- `n` times PHY then SEQ: `n` phases completing. -/
def phaseSchedule : Nat → List Turn
  | 0 => []
  | n + 1 => .agent .phy :: .agent .seq :: phaseSchedule n

/-- A transaction of `n` phases: HOST presents it, SEQ takes and starts it, `n` phases complete, SEQ ends it. -/
def transactionSchedule (n : Nat) : List Turn :=
  .agent .host :: .agent .seq :: (phaseSchedule n ++ [.agent .seq])

/-- A SSENDB of `n` bytes whose every byte leaves before the next is written. -/
def sendSchedule : Nat → List Turn
  | 0 => [.agent .prod]
  | n + 1 => .agent .prod :: .agent .uart :: sendSchedule n

end Sys2Proof.Machine
end

