-- ==== Sys2Proof/Certificates/Slice0/Obligations.lean ====
section
/-! DEFINITION. The statements for the provers, one `def Obligations.<Name> : Prop` each. A response word, an address
byte and the fields of a header are written here as numbers from the spec's bit tables (30_encoding.md R81, R85, R89),
not by the model's own functions. -/

open Sys2Proof Sys2Proof.Machine

/-! ### Reset, the invariant, the step -/

/-- The state after reset (70_reset_and_hazards.md R221, 10_state.md R50, R44, R51, R220). -/
def Obligations.ResetLeavesStatedValues : Prop :=
  (State.reset.ph = .idle ∧ State.reset.ben = false ∧ State.reset.bint = false ∧ State.reset.bdiv = 0 ∧
    State.reset.bctl = 0 ∧ State.reset.addr = 0 ∧ State.reset.dir = .write ∧ State.reset.cnt = 0 ∧
    State.reset.idx = 0 ∧ State.reset.bres = .ok ∧ State.reset.lasterr = 0) ∧
  (State.reset.sdiv = 0 ∧ State.reset.txen = false ∧ State.reset.txie = false ∧ State.reset.txrdy = true ∧
    State.reset.txip = false ∧ State.reset.wcur = 0 ∧ State.reset.rcur = 0) ∧
  (State.reset.txpay = [] ∧ State.reset.rxbuf = [] ∧ State.reset.stage = [] ∧ State.reset.busLog = [] ∧
    State.reset.diagLog = [] ∧ State.reset.wire = [] ∧ State.reset.cmd = none ∧ State.reset.resp = none)

/-- The invariant of Safety.lean holds after reset. -/
def Obligations.ResetMeetsInvariant : Prop := Invariant State.reset

/-- After reset bus_log is empty, so the two rules on bus_log that every step keeps hold there
(70_reset_and_hazards.md R221, 40_bus_commands.md R106). -/
def Obligations.ResetMeetsLogInvariants : Prop :=
  StopsBalanceStarts State.reset ∧ LogFollowsPhase State.reset

/-- Every step of every agent keeps the invariant (43_output_channel.md R172 a, b, d; 10_state.md R30, R37, R44). -/
def Obligations.StepKeepsInvariant : Prop := ∀ (s : State) t, Invariant s → step s = .next t → Invariant t

/-- In a state that meets the invariant every step completes: no byte is read before it is written, no access is out of
range, the hardware has no fault (10_state.md R44, 20_memory.md R62, 60_exceptions.md R211). -/
def Obligations.StepFromInvariantCompletes : Prop := ∀ (s : State), Invariant s → ∃ t, step s = .next t

/-- Commands run in their unit. HOST presents a command or takes a response and touches nothing else. The command that
the header and the payload decode to, when it passes its checks, is taken from the port by a turn of SEQ when bit 31 of the
header is 0, of PROD when it is 1, and runs there: BINIT, SINIT and the stage of SENQ are one step; the acceptance of a
BSEND or BRECV is one step with PH.START, that of a SSENDB one with its first byte step (10_state.md R20, R21;
40_bus_commands.md R100; 41_bus_phases.md R123; 43_output_channel.md R163, R166; 30_encoding.md R82, R84;
20_memory.md R73; the command at the port as a field, its being taken in a step after HOST's, and the step that takes a
SSENDB are the model's reading, logs 8 and 11; the turns and scripts are the model's, logs 1 and 2). -/
def Obligations.DecodedCommandRunsInItsUnit : Prop :=
  (∀ (s : State) ts t, s.turns = .agent .host :: ts → step s = .next t →
    t = { s with turns := ts, hostCmds := t.hostCmds, hostBytes := t.hostBytes, cmd := t.cmd, resp := t.resp }) ∧
  (∀ (s : State) ts h hs i rest, s.turns = .agent .host :: ts → portFree s = true → s.hostCmds = h :: hs →
    decodeCommand h s.hostBytes = .ok i rest → failedCheck i s = none →
    step s = .next { s with turns := ts, hostCmds := hs, hostBytes := rest, cmd := some (.presented i) } ∧
    commandUnit i = some (if h.toNat / 2 ^ 31 = 0 then .seq else .prod)) ∧
  (∀ (s : State) a ts i u, s.turns = .agent a :: ts → s.cmd = some (.presented i) → commandUnit i = some a →
    failedCheck i s = none → s.resp = none → s.ph = .idle → u = { s with turns := ts, cmd := none } →
    ((∃ x, i = .binit x ∨ i = .sinit x) ∨ (∃ text, i = .senq text) → step s = exec i u) ∧
    ((∃ d b, i = .bsend d b) ∨ (∃ d n, i = .brecv d n) → ∃ v, exec i u = .next v ∧ step s = exec .phStart v) ∧
    ((∃ text, i = .ssendb text) → ∃ v, exec i u = .next v ∧ step s = prodStep v))

/-- A turn of an agent for which nothing stands at the port runs the operation its selector names, in the state with the
turn taken (spec/opcode_table.json, 30_encoding.md R80, 41_bus_phases.md R121 to R129, 43_output_channel.md R163, R165, R171);
HOST's turn takes a response that waits; a turn of BCTL runs the pattern's row; with no turn listed some agent
moves (log 2). -/
def Obligations.StepRunsSelectedOperation : Prop :=
  ∀ (s : State) ts,
    (s.turns = .agent .seq :: ts →
      (∀ a b, s.ph = .idle → s.cmd = some (.bsend a b) → step s = exec .phStart { s with turns := ts }) ∧
      (∀ a n, s.ph = .idle → s.cmd = some (.brecv a n) → step s = exec .phStart { s with turns := ts }) ∧
      (s.ph = .startIssued → s.bint = true → step s = exec .phAddr { s with turns := ts }) ∧
      (s.ph = .addrSent → s.bint = true → step s = exec .phDataFirst { s with turns := ts }) ∧
      (s.ph = .dataXfer → s.bint = true → s.dir = .write → step s = exec .phDataW { s with turns := ts }) ∧
      (s.ph = .dataXfer → s.bint = true → s.dir = .read → step s = exec .phDataR { s with turns := ts }) ∧
      (s.ph = .stopIssued → step s = exec .phDone { s with turns := ts })) ∧
    (s.turns = .agent .drain :: ts → s.txie = true → s.txip = true → step s = exec .irqDrain { s with turns := ts }) ∧
    (s.turns = .agent .uart :: ts → s.txen = true → s.txrdy = false →
      step s = exec .uartDone { s with turns := ts }) ∧
    (s.turns = .agent .phy :: ts → (s.ph = .startIssued ∨ s.ph = .addrSent ∨ s.ph = .dataXfer) → s.bint = false →
      step s = exec .phyComplete { s with turns := ts }) ∧
    (s.turns = .agent .prod :: ts → (∀ i, s.cmd = some (.presented i) → commandUnit i ≠ some .prod) →
      step s = prodStep { s with turns := ts }) ∧
    (∀ r, s.turns = .agent .host :: ts → s.resp = some r → step s = .next { s with turns := ts, resp := none }) ∧
    (∀ v i, s.turns = .bctl v :: ts → decodePattern s.cfg.patterns v = .ok i [] →
      step s = exec i { s with turns := ts }) ∧
    (s.turns = [] → ∃ a, step s = runTurn (.agent a) { s with draws := s.draws + 1 })

/-- A turn of an agent that has no enabled step changes nothing: the sequencer polls BINT, SSENDB polls TXRDY, HOST is
blocked or has not given all payload bytes, what stands at the port is another unit's or fails its checks, the others are
not enabled (41_bus_phases.md R121, R122, R123; 40_bus_commands.md R105; 43_output_channel.md R163, R165, R171;
10_state.md R21; such a turn, and waiting for payload bytes, are the model's, logs 2, 8 and 16). -/
def Obligations.WaitingTurnChangesNothing : Prop :=
  ∀ (s : State) ts,
    (s.turns = .agent .seq :: ts →
      ((s.ph = .startIssued ∨ s.ph = .addrSent ∨ s.ph = .dataXfer) ∧ s.bint = false ∨
        s.ph = .idle ∧ (∀ a b, s.cmd ≠ some (.bsend a b)) ∧ (∀ a n, s.cmd ≠ some (.brecv a n)) ∧
          (∀ i, s.cmd = some (.presented i) → commandUnit i ≠ some .seq ∨ failedCheck i s ≠ none)) →
      step s = .next { s with turns := ts }) ∧
    (s.turns = .agent .prod :: ts →
      ((∃ text pos, s.cmd = some (.ssendb text pos) ∧ pos < text.length ∧ s.txrdy = false) ∨ s.cmd = none ∨
        (∃ a b, s.cmd = some (.bsend a b)) ∨ (∃ a n, s.cmd = some (.brecv a n)) ∨
        (∃ i, s.cmd = some (.presented i) ∧ (commandUnit i ≠ some .prod ∨ failedCheck i s ≠ none))) →
      step s = .next { s with turns := ts }) ∧
    (s.turns = .agent .drain :: ts → (s.txie = false ∨ s.txip = false) → step s = .next { s with turns := ts }) ∧
    (s.turns = .agent .uart :: ts → (s.txen = false ∨ s.txrdy = true) → step s = .next { s with turns := ts }) ∧
    (s.turns = .agent .phy :: ts → (s.ph = .idle ∨ s.ph = .stopIssued ∨ s.bint = true) →
      step s = .next { s with turns := ts }) ∧
    (s.turns = .agent .host :: ts → s.resp = none →
      (s.cmd ≠ none ∨ s.ph ≠ .idle ∨ s.hostCmds = [] ∨
        (∃ h hs, s.hostCmds = h :: hs ∧ decodeCommand h s.hostBytes = .short)) →
      step s = .next { s with turns := ts })

/-- No retry, no timeout, no abort: while a phase has not completed, no agent but PHY changes the phase, the
completion flag, IDX, bus_log, the response or the outstanding command, and SEQ, PROD and HOST have no step at all
(40_bus_commands.md R105). -/
def Obligations.OnlyPhyEndsAWait : Prop :=
  ∀ (s : State) a ts t, Invariant s → s.turns = .agent a :: ts → a ≠ .phy →
    (s.ph = .startIssued ∨ s.ph = .addrSent ∨ s.ph = .dataXfer) → s.bint = false → step s = .next t →
    t.ph = s.ph ∧ t.bint = false ∧ t.busLog = s.busLog ∧ t.idx = s.idx ∧ t.resp = none ∧ t.cmd = none ∧
    (a = .seq ∨ a = .prod ∨ a = .host → t = { s with turns := ts })

/-! ### Encoding -/

/-- Decoding the words of a well-formed instruction gives the instruction back, and payload bytes of later commands
stay on the port (30_encoding.md R81 to R84, R88, R80). -/
def Obligations.DecodeOfEncodeIsIdentity : Prop :=
  (∀ (p : Patterns) (i : Instr), p.Distinct → i.wf = true → decode p (encode p i) = .ok i []) ∧
  (∀ (p : Patterns) (i : Instr) (h : Word) (b rest : List Byte), i.wf = true → encode p i = .command h b →
    decodeCommand h (b ++ rest) = .ok i rest)

/-- A command is accepted from exactly its own words: what decodes to an instruction is that instruction's encoding
(30_encoding.md R81 to R84). -/
def Obligations.DecodedCommandReencodes : Prop :=
  ∀ (p : Patterns) (h : Word) (bytes : List Byte) (i : Instr) (rest : List Byte),
    decodeCommand h bytes = .ok i rest →
    i.wf = true ∧ ∃ b, bytes = b ++ rest ∧ encode p i = .command h b

/-- A reserved opcode is illegal and takes no payload; a legal opcode with a reserved bit set is illegal and its
announced payload is discarded; with fewer payload bytes than announced nothing is taken yet
(30_encoding.md R84, R92; the last clause is the model's choice, log 16). -/
def Obligations.HeaderFormatChecks : Prop :=
  ∀ (h : Word) (bytes : List Byte) (opc n : Nat), opc = h.toNat / 2 ^ 28 →
    n = (if opc = 2 ∨ opc = 10 ∨ opc = 11 then h.toNat % 2 ^ 16 else 0) →
    (opc ≠ 1 ∧ opc ≠ 2 ∧ opc ≠ 3 ∧ opc ≠ 9 ∧ opc ≠ 10 ∧ opc ≠ 11 →
      decodeCommand h bytes = .reject .illegalOpcode bytes) ∧
    (n ≤ bytes.length →
      ((opc = 1 ∨ opc = 9) ∧ h.toNat / 2 ^ 24 % 2 ^ 4 ≠ 0 ∨
        (opc = 2 ∨ opc = 3) ∧ h.toNat / 2 ^ 23 % 2 ^ 5 ≠ 0 ∨
        (opc = 10 ∨ opc = 11) ∧ h.toNat / 2 ^ 16 % 2 ^ 12 ≠ 0) →
      decodeCommand h bytes = .reject .reservedBits (bytes.drop n)) ∧
    (bytes.length < n → decodeCommand h bytes = .short)

/-- The worked encodings of 30_encoding.md R96 and the words of R88 and of the selectors decode to what they stand
for. -/
def Obligations.WorkedEncodingsDecode : Prop :=
  decodeCommand 0x100186a0 [] = .ok (.binit 100000) [] ∧
  decodeCommand 0x203c0001 [0x00] = .ok (.bsend 0x3c [0x00]) [] ∧
  decodeCommand 0x30230002 [] = .ok (.brecv 0x23 2) [] ∧
  decodeCommand 0x90002580 [] = .ok (.sinit 9600) [] ∧
  decodeCommand 0xa0000002 [0x68, 0x69] = .ok (.ssendb [0x68, 0x69]) [] ∧
  decodeCommand 0xb0000005 [0x68, 0x65, 0x6c, 0x6c, 0x6f] = .ok (.senq [0x68, 0x65, 0x6c, 0x6c, 0x6f]) [] ∧
  decodeCommand 0x40000000 [] = .reject .illegalOpcode [] ∧
  decodeCommand 0x283c0001 [0x00] = .reject .reservedBits [] ∧
  decodePattern .default 0xa4 = .ok .pStart [] ∧ decodePattern .default 0x84 = .ok .pXfern [] ∧
  decodePattern .default 0xc4 = .ok .pXfera [] ∧ decodePattern .default 0x94 = .ok .pStop [] ∧
  decodePhSel 0b1000 = .ok .phStart [] ∧ decodePhSel 0b0011 = .ok .phDataW [] ∧
  decodePhSel 0b1011 = .ok .phDataR [] ∧ decodePhSel 0b0101 = .noRow

/-! ### Rejects -/

/-- Rejects are answered at the command port. An illegal header (codes 1 and 2), and a command that fails a check (code 3
for BSEND and BRECV with BEN = 0 and SSENDB with TXEN = 0, code 4 for BINIT and SINIT out of range), is answered with its
opcode, the code and COUNT 0 in HOST's step that presents it, and nothing else changes but the port's own queues; it is
the answer that the command's meaning gives. A rejected command takes no step of SEQ: no step but HOST's leaves a reject
(40_bus_commands.md R100, R101, R102; 41_bus_phases.md R123; 43_output_channel.md R161, R162, R166; 60_exceptions.md R193,
R194; 30_encoding.md R85, R92; that the port answers in HOST's step, for the AOC too, is the model's reading, log 8). -/
def Obligations.RejectsAreAnsweredAtThePort : Prop :=
  (∀ (s : State) ts h hs code rest, s.turns = .agent .host :: ts → portFree s = true → s.hostCmds = h :: hs →
    decodeCommand h s.hostBytes = .reject code rest →
    (code = .illegalOpcode ∨ code = .reservedBits) ∧
    step s = .next { s with
      turns := ts, hostCmds := hs, hostBytes := rest
      resp := some { word := BitVec.ofNat 32 (h.toNat / 2 ^ 28 * 2 ^ 28 +
        (if code = .illegalOpcode then 1 else 2) * 2 ^ 24), data := [] } }) ∧
  (∀ (s : State) ts h hs i code rest u, s.turns = .agent .host :: ts → portFree s = true → s.hostCmds = h :: hs →
    decodeCommand h s.hostBytes = .ok i rest → failedCheck i s = some code →
    u = { s with turns := ts, hostCmds := hs, hostBytes := rest } →
    step s = exec i u ∧ (code = .notInitialised ∨ code = .argRange) ∧
    step s = .next { u with
      resp := some { word := BitVec.ofNat 32 (h.toNat / 2 ^ 28 * 2 ^ 28 +
        (if code = .notInitialised then 3 else 4) * 2 ^ 24), data := [] } }) ∧
  (∀ (s : State) (x : BitVec 24) d b n q,
    failedCheck (.bsend d b) s = (if s.ben then none else some .notInitialised) ∧
    failedCheck (.brecv d n) s = (if s.ben then none else some .notInitialised) ∧
    failedCheck (.ssendb b) s = (if s.txen then none else some .notInitialised) ∧
    failedCheck (.senq b) s = none ∧
    (q = s.cfg.fclk / (2 * x.toNat) →
      failedCheck (.binit x) s = (if 0 < x.toNat ∧ 8 ≤ q ∧ q ≤ 263 then none else some .argRange)) ∧
    (q = s.cfg.fclk / (16 * x.toNat) →
      failedCheck (.sinit x) s = (if 0 < x.toNat ∧ 1 ≤ q ∧ q ≤ 4096 then none else some .argRange))) ∧
  (∀ (s : State) t r, (nextTurn s).1 ≠ .agent .host → step s = .next t → s.resp = none → t.resp = some r →
    r.word.toNat / 2 ^ 24 % 2 ^ 4 = 0)

/-- A command answered with a reject code has changed no register, memory or history, and its COUNT is 0
(60_exceptions.md R193, R194). -/
def Obligations.RejectedCommandChangesNothing : Prop :=
  ∀ i s t r, s.resp = none → exec i s = .next t → t.resp = some r → r.word.toNat / 2 ^ 24 % 2 ^ 4 ≠ 0 →
    t = { s with resp := some r } ∧ r.data = [] ∧ r.word.toNat % 2 ^ 24 = 0 ∧
    (r.word.toNat / 2 ^ 24 % 2 ^ 4 = 3 ∨ r.word.toNat / 2 ^ 24 % 2 ^ 4 = 4)

/-- The model's stops: a command while another is outstanding, an operation whose enabling condition does not hold
(log 15; 93_implementation_defined.md item 1), and an access to a byte that has no value or does not exist (logs 7
and 22). -/
def Obligations.StopsByName : Prop :=
  ∀ (s : State),
    (portFree s = false → ∀ v a b n,
      exec (.binit v) s = .refused .commandOutstanding ∧ exec (.bsend a b) s = .refused .commandOutstanding ∧
      exec (.brecv a n) s = .refused .commandOutstanding ∧ exec (.sinit v) s = .refused .commandOutstanding ∧
      exec (.ssendb b) s = .refused .commandOutstanding ∧ exec (.senq b) s = .refused .commandOutstanding) ∧
    ((s.ph ≠ .idle ∨ (∀ a b, s.cmd ≠ some (.bsend a b)) ∧ (∀ a n, s.cmd ≠ some (.brecv a n))) →
      exec .phStart s = .refused .notEnabled) ∧
    ((s.ph ≠ .startIssued ∨ s.bint = false) → exec .phAddr s = .refused .notEnabled) ∧
    ((s.ph ≠ .addrSent ∨ s.bint = false) → exec .phDataFirst s = .refused .notEnabled) ∧
    ((s.ph ≠ .dataXfer ∨ s.bint = false ∨ s.dir = .read) → exec .phDataW s = .refused .notEnabled) ∧
    ((s.ph ≠ .dataXfer ∨ s.bint = false ∨ s.dir = .write) → exec .phDataR s = .refused .notEnabled) ∧
    (s.ph ≠ .stopIssued → exec .phDone s = .refused .notEnabled) ∧
    ((s.txie = false ∨ s.txip = false) → exec .irqDrain s = .refused .notEnabled) ∧
    ((s.txen = false ∨ s.txrdy = true) → exec .uartDone s = .refused .notEnabled) ∧
    ((s.ph = .idle ∨ s.ph = .stopIssued ∨ s.bint = true) → exec .phyComplete s = .refused .notEnabled) ∧
    (s.txie = true → s.txip = true → s.txrdy = true → s.rcur ≠ s.wcur → s.ring.read s.rcur = none →
      exec .irqDrain s = .fault (.noByte .ring s.rcur)) ∧
    (s.ph = .addrSent → s.bint = true → s.dir = .write → classify s.cfg.status s.bstat = .ok → s.cnt ≠ 0 →
      s.txpay.read s.idx.toNat = none → exec .phDataFirst s = .fault (.noByte .txpay s.idx.toNat)) ∧
    (s.ph = .dataXfer → s.bint = true → s.dir = .read → classify s.cfg.status s.bstat = .ok →
      s.cnt.toNat ≤ s.idx.toNat → exec .phDataR s = .fault (.noSuchAddress .rxbuf s.idx.toNat))

/-! ### The bus commands -/

/-- BINIT with a divisor in range stores it and enables the bus (40_bus_commands.md R101). -/
def Obligations.BinitSetsDivisorAndEnable : Prop :=
  ∀ (s : State) (speed : BitVec 24) q, portFree s = true → 0 < speed.toNat →
    q = s.cfg.fclk / (2 * speed.toNat) → 8 ≤ q → q ≤ 263 →
    exec (.binit speed) s = .next { s with
      bdiv := BitVec.ofNat 8 (q - 8), ben := true, resp := some { word := 0x10000000, data := [] } }

/-- BINIT with frequency 0 or a divisor out of range is rejected with code 4 (40_bus_commands.md R101). -/
def Obligations.BinitRejectsArgumentOutOfRange : Prop :=
  ∀ (s : State) (speed : BitVec 24), portFree s = true →
    (speed.toNat = 0 ∨ s.cfg.fclk / (2 * speed.toNat) < 8 ∨ 263 < s.cfg.fclk / (2 * speed.toNat)) →
    exec (.binit speed) s = .next { s with resp := some { word := 0x14000000, data := [] } }

/-- At F_CLK = 16 000 000 BINIT accepts exactly the speeds 30 304 to 1 000 000 (40_bus_commands.md R101). -/
def Obligations.BinitRangeAtSixteenMegahertz : Prop :=
  ∀ (s : State) (speed : BitVec 24), portFree s = true → s.cfg.fclk = 16000000 →
    ((∃ t, exec (.binit speed) s = .next t ∧ t.resp = some { word := 0x10000000, data := [] }) ↔
      30304 ≤ speed.toNat ∧ speed.toNat ≤ 1000000)

/-- BINIT is idempotent: a second one with the same speed, its predecessor's response taken, changes nothing but the
response port (40_bus_commands.md R101). -/
def Obligations.BinitIsIdempotent : Prop :=
  ∀ (s : State) t (speed : BitVec 24), exec (.binit speed) s = .next t →
    exec (.binit speed) { t with resp := none } = .next t

/-- A BSEND or BRECV is accepted, its payload captured, only when BEN = 1; otherwise it is rejected with code 3. PH.START
follows in the step that accepts it (DecodedCommandRunsInItsUnit) (40_bus_commands.md R102, 20_memory.md R73; the
accepted command as an intermediate state of that step is the model's, log 8). -/
def Obligations.BusCommandsNeedEnable : Prop :=
  ∀ (s : State) a b n, portFree s = true →
    (s.ben = true →
      exec (.bsend a b) s = .next { s with cmd := some (.bsend a b) } ∧
      exec (.brecv a n) s = .next { s with cmd := some (.brecv a n) }) ∧
    (s.ben = false →
      exec (.bsend a b) s = .next { s with resp := some { word := 0x23000000, data := [] } } ∧
      exec (.brecv a n) s = .next { s with resp := some { word := 0x33000000, data := [] } })

/-- An accepted BSEND starts: the latches and TXPAY are loaded, the start condition is commanded
(41_bus_phases.md R123, R120). -/
def Obligations.BsendStartsTransaction : Prop :=
  ∀ (s : State) a (b : List Byte), portFree s = true → s.ben = true → b.length < 65536 →
    ∃ u, exec (.bsend a b) s = .next u ∧
      ∃ m : Memory, (∀ i, m.read i = b[i]?) ∧ m.wf = true ∧
        exec .phStart u = .next { s with
          addr := a, dir := .write, cnt := BitVec.ofNat 16 b.length, txpay := m, idx := 0, bres := .ok
          bctl := s.cfg.patterns.start, bint := false, busLog := s.busLog ++ [.start], ph := .startIssued }

/-- An accepted BRECV starts: the latches are loaded, TXPAY and RXBUF keep what they hold, the start condition is
commanded (41_bus_phases.md R123, R120). -/
def Obligations.BrecvStartsTransaction : Prop :=
  ∀ (s : State) a n, portFree s = true → s.ben = true →
    ∃ u, exec (.brecv a n) s = .next u ∧
      exec .phStart u = .next { s with
        addr := a, dir := .read, cnt := n, idx := 0, bres := .ok
        bctl := s.cfg.patterns.start, bint := false, busLog := s.busLog ++ [.start], ph := .startIssued }

/-! ### The sequencer's steps -/

/-- PH.ADDR after an OK start commands the address byte `ADDR * 2 + DIR` (41_bus_phases.md R124, 30_encoding.md
R89). -/
def Obligations.PhAddrCommandsAddressByte : Prop :=
  ∀ (s : State) (b : Byte), s.ph = .startIssued → s.bint = true → classify s.cfg.status s.bstat = .ok →
    b = BitVec.ofNat 8 (s.addr.toNat * 2 + (if s.dir = .read then 1 else 0)) →
    exec .phAddr s = .next { s with
      bdata := b, bctl := s.cfg.patterns.xfern, bint := false, busLog := s.busLog ++ [.xmit b], ph := .addrSent }

/-- PH.DATA from ADDR_SENT after an OK address phase: the stop when CNT = 0, else the first data byte
(41_bus_phases.md R125, R131). -/
def Obligations.PhDataFirstCommandsDataOrStop : Prop :=
  ∀ (s : State), s.ph = .addrSent → s.bint = true → classify s.cfg.status s.bstat = .ok →
    (s.cnt = 0 →
      exec .phDataFirst s = .next { s with
        bctl := s.cfg.patterns.stop, bint := false, busLog := s.busLog ++ [.stop], ph := .stopIssued }) ∧
    (∀ b, s.idx.toNat < s.cnt.toNat → s.dir = .write → s.txpay.read s.idx.toNat = some b →
      exec .phDataFirst s = .next { s with
        bdata := b, bctl := s.cfg.patterns.xfern, bint := false, busLog := s.busLog ++ [.xmit b]
        ph := .dataXfer }) ∧
    (s.idx.toNat < s.cnt.toNat → s.dir = .read →
      exec .phDataFirst s = .next { s with
        bctl := if s.idx.toNat + 1 < s.cnt.toNat then s.cfg.patterns.xfera else s.cfg.patterns.xfern
        bint := false, busLog := s.busLog ++ [.recv (decide (s.idx.toNat + 1 < s.cnt.toNat))], ph := .dataXfer })

/-- PH.DATA from DATA_XFER, write direction, after an OK byte: IDX counts it, then the next byte or the stop
(41_bus_phases.md R126, R131). -/
def Obligations.PhDataWriteCountsAndContinues : Prop :=
  ∀ (s : State), s.ph = .dataXfer → s.bint = true → s.dir = .write → classify s.cfg.status s.bstat = .ok →
    s.idx.toNat < s.cnt.toNat →
    (∀ b, s.idx.toNat + 1 < s.cnt.toNat → s.txpay.read (s.idx.toNat + 1) = some b →
      exec .phDataW s = .next { s with
        idx := BitVec.ofNat 16 (s.idx.toNat + 1), bdata := b, bctl := s.cfg.patterns.xfern, bint := false
        busLog := s.busLog ++ [.xmit b] }) ∧
    (s.idx.toNat + 1 = s.cnt.toNat →
      exec .phDataW s = .next { s with
        idx := s.cnt, bctl := s.cfg.patterns.stop, bint := false, busLog := s.busLog ++ [.stop]
        ph := .stopIssued })

/-- PH.DATA from DATA_XFER, read direction, after an OK byte: BDATA is stored at RXBUF[IDX] and nowhere else, IDX
counts it, then the next byte (acknowledged unless it is the last) or the stop (41_bus_phases.md R127, R131). -/
def Obligations.PhDataReadStoresAndContinues : Prop :=
  ∀ (s : State), s.ph = .dataXfer → s.bint = true → s.dir = .read → classify s.cfg.status s.bstat = .ok →
    s.idx.toNat < s.cnt.toNat →
    ∃ m : Memory, m.read s.idx.toNat = some s.bdata ∧ (∀ a, a ≠ s.idx.toNat → m.read a = s.rxbuf.read a) ∧
      (s.idx.toNat + 1 < s.cnt.toNat →
        exec .phDataR s = .next { s with
          rxbuf := m, idx := BitVec.ofNat 16 (s.idx.toNat + 1)
          bctl := if s.idx.toNat + 2 < s.cnt.toNat then s.cfg.patterns.xfera else s.cfg.patterns.xfern
          bint := false, busLog := s.busLog ++ [.recv (decide (s.idx.toNat + 2 < s.cnt.toNat))] }) ∧
      (s.idx.toNat + 1 = s.cnt.toNat →
        exec .phDataR s = .next { s with
          rxbuf := m, idx := s.cnt, bctl := s.cfg.patterns.stop, bint := false
          busLog := s.busLog ++ [.stop], ph := .stopIssued })

/-- A start, address or data phase that is not OK: BRES and LASTERR record it, one error line is logged and enqueued,
and the stop is issued, in one step; IDX, RXBUF and every other register keep their values (42_status_decoder.md
R143, R146; 41_bus_phases.md R124 to R128). -/
def Obligations.FailedPhaseRecordsAndStops : Prop :=
  ∀ (s : State) i c,
    (i = .phAddr ∧ s.ph = .startIssued ∨ i = .phDataFirst ∧ s.ph = .addrSent ∨
      i = .phDataW ∧ s.ph = .dataXfer ∧ s.dir = .write ∨ i = .phDataR ∧ s.ph = .dataXfer ∧ s.dir = .read) →
    s.bint = true → classify s.cfg.status s.bstat = c → c ≠ .ok → RingOk s →
    ∃ v, enqueue ((render s.cfg (.errLine c s.bstat s.addr)).take s.cfg.stageMax) s = .ok v ∧
      exec i s = .next { v with
        bres := c, lasterr := s.bstat, diagLog := s.diagLog ++ [.errLine c s.bstat s.addr], stage := []
        bctl := s.cfg.patterns.stop, bint := false, busLog := s.busLog ++ [.stop], ph := .stopIssued }

/-- PH.DONE of a BSEND answers `0x20000000` and is IDLE again (41_bus_phases.md R129, 30_encoding.md R85). -/
def Obligations.PhDoneAnswersBsend : Prop :=
  ∀ (s : State), s.ph = .stopIssued → s.dir = .write →
    exec .phDone s = .next { s with resp := some { word := 0x20000000, data := [] }, cmd := none, ph := .idle }

/-- PH.DONE of a BRECV logs and enqueues the dump, then answers with COUNT = IDX and the IDX bytes read
(41_bus_phases.md R129, 42_status_decoder.md R146, 30_encoding.md R85). -/
def Obligations.PhDoneAnswersBrecv : Prop :=
  ∀ (s : State) (bs : List Byte), s.ph = .stopIssued → s.dir = .read → RingOk s → s.idx.toNat ≤ s.cnt.toNat →
    bs.length = s.idx.toNat → (∀ i, i < bs.length → s.rxbuf.read i = bs[i]?) →
    ∃ v, enqueue ((render s.cfg (.rxDump s.addr bs)).take s.cfg.stageMax) s = .ok v ∧
      exec .phDone s = .next { v with
        diagLog := s.diagLog ++ [.rxDump s.addr bs], stage := []
        resp := some { word := BitVec.ofNat 32 (0x30000000 + s.idx.toNat), data := bs }, cmd := none, ph := .idle }

/-- PHY.COMPLETE: BSTAT takes any status, BDATA any byte when a receive was commanded, BINT is set; a script fixes the
answers it has (41_bus_phases.md R121, 10_state.md R22; the script is the model's, log 3). -/
def Obligations.PhyCompleteReportsAnyStatus : Prop :=
  ∀ (s : State), (s.ph = .startIssued ∨ s.ph = .addrSent ∨ s.ph = .dataXfer) → s.bint = false →
    ((∀ k, s.busLog.getLast? ≠ some (.recv k)) →
      (∀ v vs, s.phyStatus = v :: vs →
        exec .phyComplete s = .next { s with bstat := v, bint := true, phyStatus := vs }) ∧
      (s.phyStatus = [] →
        ∃ v, exec .phyComplete s = .next { s with bstat := v, bint := true, draws := s.draws + 1 })) ∧
    (∀ k, s.busLog.getLast? = some (.recv k) →
      (∀ v vs d ds, s.phyStatus = v :: vs → s.phyData = d :: ds →
        exec .phyComplete s =
          .next { s with bstat := v, bdata := d, bint := true, phyStatus := vs, phyData := ds }) ∧
      (∀ v vs, s.phyStatus = v :: vs → s.phyData = [] →
        ∃ d, exec .phyComplete s =
          .next { s with bstat := v, bdata := d, bint := true, phyStatus := vs, draws := s.draws + 1 }) ∧
      (∀ d ds, s.phyStatus = [] → s.phyData = d :: ds →
        ∃ v, exec .phyComplete s =
          .next { s with bstat := v, bdata := d, bint := true, phyData := ds, draws := s.draws + 1 }) ∧
      (s.phyStatus = [] → s.phyData = [] →
        ∃ v d, exec .phyComplete s =
          .next { s with bstat := v, bdata := d, bint := true, draws := s.draws + 2 }))

/-- A BCTL pattern commands its PHY command: P.START PStart, P.XFERA PRecv(true), P.STOP PStop; P.XFERN
PRecv(false) after an address byte with direction bit 1 and PXmit(BDATA) otherwise (41_bus_phases.md R120,
30_encoding.md R88; the reading of P.XFERN outside the phases it is issued in is the model's, log 12). -/
def Obligations.PatternsCommandThePhy : Prop :=
  ∀ (s : State),
    exec .pStart s = .next { s with
      bctl := s.cfg.patterns.start, bint := false, busLog := s.busLog ++ [.start] } ∧
    exec .pXfera s = .next { s with
      bctl := s.cfg.patterns.xfera, bint := false, busLog := s.busLog ++ [.recv true] } ∧
    exec .pStop s = .next { s with
      bctl := s.cfg.patterns.stop, bint := false, busLog := s.busLog ++ [.stop] } ∧
    (s.dir = .read → (s.ph = .addrSent ∨ s.ph = .dataXfer) →
      exec .pXfern s = .next { s with
        bctl := s.cfg.patterns.xfern, bint := false, busLog := s.busLog ++ [.recv false] }) ∧
    (s.dir = .write ∨ (s.ph ≠ .addrSent ∧ s.ph ≠ .dataXfer) →
      exec .pXfern s = .next { s with
        bctl := s.cfg.patterns.xfern, bint := false, busLog := s.busLog ++ [.xmit s.bdata] })

/-- With the default patterns the fields of BCTL say the PHY command: GO and EN are 1 in every pattern, ACKEN exactly in
PRecv(true), STA exactly in PStart, STO exactly in PStop, and bits 3, 1 and 0 are 0 (30_encoding.md R87, R88). -/
def Obligations.DefaultPatternsHaveTheFields : Prop :=
  ∀ c : PhyCommand,
    bctlGo (patternOf .default c) = true ∧ bctlEn (patternOf .default c) = true ∧
    (bctlAcken (patternOf .default c) = true ↔ c = .recv true) ∧
    (bctlSta (patternOf .default c) = true ↔ c = .start) ∧
    (bctlSto (patternOf .default c) = true ↔ c = .stop) ∧
    bctlZeros (patternOf .default c) = false

/-! ### The status decoder -/

/-- Classify, for every table of eleven distinct values and every one of the 256 codes: the class of the symbol whose
value the code is, Unrecognized for a code that is none of the eleven values (42_status_decoder.md R142; the classes
are those of R141). -/
def Obligations.ClassifyIsTheTable : Prop :=
  ∀ (t : StatusTable) (v : Byte), t.Distinct →
    (classify t v = .ok ↔
      v = t.start ∨ v = t.slawAck ∨ v = t.datwAck ∨ v = t.slarAck ∨ v = t.datrAck ∨ v = t.datrNack) ∧
    (classify t v = .recoverable ↔ v = t.slawNack ∨ v = t.datwNack ∨ v = t.slarNack) ∧
    (classify t v = .fatal ↔ v = t.rstart ∨ v = t.arbLost) ∧
    (classify t v = .unrecognized ↔ ∀ k, t.value k ≠ v)

/-- The error line of a phase that is not OK: it begins `TWI Recoverable` or `TWI Fatal` as its class says, ends in a
line terminator and has at most 45 bytes, whatever the status table (42_status_decoder.md R147). -/
def Obligations.ErrorLineHasItsShape : Prop :=
  ∀ (t : StatusTable) (v : Byte) (a : Address), classify t v ≠ .ok →
    (standardRender t (.errLine (classify t v) v a)).length ≤ 45 ∧
    (standardRender t (.errLine (classify t v) v a)).getLast? = some 0x0a ∧
    (classify t v = .recoverable →
      ascii "TWI Recoverable" <+: standardRender t (.errLine (classify t v) v a)) ∧
    (classify t v ≠ .recoverable → ascii "TWI Fatal" <+: standardRender t (.errLine (classify t v) v a))

/-- The length of a receive dump: `20 + 3 * n` bytes plus one for every decimal digit of the count after the first,
and it ends in a line terminator (42_status_decoder.md R148). -/
def Obligations.ReceiveDumpLength : Prop :=
  ∀ (t : StatusTable) (a : Address) (bs : List Byte) (k : Nat), 10 ^ k ≤ max bs.length 1 →
    bs.length < 10 ^ (k + 1) →
    (standardRender t (.rxDump a bs)).length = 20 + 3 * bs.length + k ∧
    (standardRender t (.rxDump a bs)).getLast? = some 0x0a

/-- Numbers as text: `hex2(v)` is the high nibble then the low nibble, each a character of `0123456789abcdef`, an
address zero-extended to 8 bits first; `dec(n)` is the decimal numeral of `n`: digits only, the most significant first,
no leading zero, `0` for zero (42_status_decoder.md R149). -/
def Obligations.NumbersRenderAsText : Prop :=
  (∀ v : Byte, (hex2 v).length = 2 ∧
    (hex2 v)[0]? = (ascii "0123456789abcdef")[v.toNat / 16]? ∧
    (hex2 v)[1]? = (ascii "0123456789abcdef")[v.toNat % 16]?) ∧
  (∀ (t : StatusTable) (a : Address) (v : Byte), v.toNat = a.toNat →
    standardRender t (.rxDump a []) = ascii "TWI rx ad=0x" ++ hex2 v ++ ascii " n=0:\n") ∧
  ∀ n,
    (dec n).foldl (fun v b => 10 * v + (b.toNat - 0x30)) 0 = n ∧
    (∀ b ∈ dec n, 0x30 ≤ b.toNat ∧ b.toNat ≤ 0x39) ∧
    (0 < n → (dec n).head? ≠ some 0x30) ∧ dec 0 = [0x30]

/-! ### The output channel -/

/-- Cursor arithmetic: a cursor advances modulo CAP and stays in range, occupancy is `(WCUR - RCUR) mod CAP`, free
space is `CAP - 1 - occupied`, and both lie in `0 .. CAP-1` (20_memory.md R66). -/
def Obligations.OccupancyIsBounded : Prop :=
  ∀ (s : State), 2 ≤ s.cfg.cap →
    (∀ c k, advance s.cfg.cap c k = (c + k) % s.cfg.cap ∧ advance s.cfg.cap c k < s.cfg.cap) ∧
    (occupied s : Int) = ((s.wcur : Int) - (s.rcur : Int)) % (s.cfg.cap : Int) ∧
    occupied s ≤ s.cfg.cap - 1 ∧ occupied s + freeSpace s = s.cfg.cap - 1 ∧
    (s.wcur < s.cfg.cap → s.rcur < s.cfg.cap →
      (s.rcur ≤ s.wcur → occupied s = s.wcur - s.rcur) ∧
      (s.wcur < s.rcur → occupied s = s.wcur + s.cfg.cap - s.rcur))

/-- SINIT with a divisor in range stores it and sets TXEN and TXIE; the ring and the transmit register stay as they
are; with frequency 0 or a divisor out of range it is rejected with code 4 (43_output_channel.md R161). -/
def Obligations.SinitSetsLineRateAndEnables : Prop :=
  ∀ (s : State) (baud : BitVec 24) q, portFree s = true → q = s.cfg.fclk / (16 * baud.toNat) →
    (0 < baud.toNat → 1 ≤ q → q ≤ 4096 →
      exec (.sinit baud) s = .next { s with
        sdiv := BitVec.ofNat 12 (q - 1), txen := true, txie := true
        resp := some { word := 0x90000000, data := [] } }) ∧
    (baud.toNat = 0 ∨ q < 1 ∨ 4096 < q →
      exec (.sinit baud) s = .next { s with resp := some { word := 0x94000000, data := [] } })

/-- At F_CLK = 16 000 000 SINIT accepts exactly the rates 245 to 1 000 000 (43_output_channel.md R161). -/
def Obligations.SinitRangeAtSixteenMegahertz : Prop :=
  ∀ (s : State) (baud : BitVec 24), portFree s = true → s.cfg.fclk = 16000000 →
    ((∃ t, exec (.sinit baud) s = .next t ∧ t.resp = some { word := 0x90000000, data := [] }) ↔
      245 ≤ baud.toNat ∧ baud.toNat ≤ 1000000)

/-- SSENDB is accepted when TXEN = 1, at position 0 of its text, and rejected with code 3 otherwise
(43_output_channel.md R162; that the text and the position are held, and that the first byte step follows in the step that
accepts it, are the model's reading, logs 8 and 11). -/
def Obligations.SsendbNeedsTransmitter : Prop :=
  ∀ (s : State) text, portFree s = true →
    (s.txen = true → exec (.ssendb text) s = .next { s with cmd := some (.ssendb text 0) }) ∧
    (s.txen = false → exec (.ssendb text) s = .next { s with resp := some { word := 0xa3000000, data := [] } })

/-- The step of an accepted SSENDB: with TXRDY = 1 the next byte is written to TXDATA; with no byte left it answers
COUNT = LEN, whatever TXRDY is; the ring, the cursors, TXIE and TXIP are not touched (43_output_channel.md R162, R163,
R164). -/
def Obligations.SsendbWritesByteByByte : Prop :=
  ∀ (s : State) (text : List Byte) pos, s.cmd = some (.ssendb text pos) → text.length < 65536 →
    (∀ b, text[pos]? = some b → s.txrdy = true →
      prodStep s = .next { s with txdata := b, txrdy := false, cmd := some (.ssendb text (pos + 1)) }) ∧
    (pos = text.length →
      prodStep s = .next { s with
        cmd := none, resp := some { word := BitVec.ofNat 32 (0xa0000000 + text.length), data := [] } })

/-- A SSENDB, accepted or about to be taken from the port, whose bytes leave one by one puts exactly its text on the wire,
answers COUNT = LEN, and leaves the ring, the cursors and the bus controller alone (43_output_channel.md R162, R163, R165;
the order of the turns is the schedule sendSchedule, log 2; the number of steps rests on the acceptance being part of the
first byte step and on the response being a step of its own, the model's reading, logs 8 and 11). -/
def Obligations.SsendbRunSendsItsText : Prop :=
  ∀ (s : State) (text : List Byte) ts,
    (s.cmd = some (.ssendb text 0) ∨ s.cmd = some (.presented (.ssendb text)) ∧ s.resp = none ∧ s.ph = .idle) →
    s.txen = true → s.txrdy = true →
    text.length < 65536 → s.turns = sendSchedule text.length ++ ts →
    runSteps (2 * text.length + 1) s = .next { s with
      wire := s.wire ++ text, txdata := text.getLastD s.txdata, txip := s.txip || !text.isEmpty
      cmd := none, resp := some { word := BitVec.ofNat 32 (0xa0000000 + text.length), data := [] }, turns := ts }

/-- SENQ: the stage keeps the first STAGE_MAX bytes; the producer's next step commits them, empties the stage and
answers COUNT = 0, whatever TXEN and TXIE are and however much fitted (43_output_channel.md R166, R167; that PROD holds the
command between the two steps is the model's reading, log 10). -/
def Obligations.SenqStagesThenCommits : Prop :=
  ∀ (s : State) (text : List Byte), portFree s = true →
    ∃ u, exec (.senq text) s = .next u ∧ u = { s with stage := u.stage, cmd := some .senq } ∧
      u.stage.bytes = text.take s.cfg.stageMax ∧
      (RingOk s →
        ∃ v, enqueue (text.take s.cfg.stageMax) s = .ok v ∧
          prodStep u = .next { v with
            stage := [], cmd := none, resp := some { word := 0xb0000000, data := [] } })

/-- The enqueue commit: the first `min(len, free)` bytes are stored from WCUR on modulo CAP and every other slot keeps
its byte; with nothing to append or a full ring nothing changes; Prime sends the oldest byte when TXRDY = 1 and
TXIP = 0; nothing else is touched, TXIE among it (43_output_channel.md R167, R168, R169; 20_memory.md R67). -/
def Obligations.EnqueueAppendsWhatFits : Prop :=
  ∀ (s : State) (t : List Byte) n, RingOk s → n = min t.length (s.cfg.cap - 1 - occupied s) →
    ∃ v, enqueue t s = .ok v ∧ (n = 0 → v = s) ∧
      v = { s with ring := v.ring, wcur := v.wcur, rcur := v.rcur, txdata := v.txdata, txrdy := v.txrdy } ∧
      v.wcur = (s.wcur + n) % s.cfg.cap ∧
      (∀ i, i < n → v.ring.read ((s.wcur + i) % s.cfg.cap) = t[i]?) ∧
      (∀ a, (∀ i, i < n → a ≠ (s.wcur + i) % s.cfg.cap) → v.ring.read a = s.ring.read a) ∧
      (0 < n → s.txrdy = true → s.txip = false →
        v.rcur = (s.rcur + 1) % s.cfg.cap ∧ v.txrdy = false ∧ v.ring.read s.rcur = some v.txdata) ∧
      (n = 0 ∨ s.txrdy = false ∨ s.txip = true →
        v.rcur = s.rcur ∧ v.txrdy = s.txrdy ∧ v.txdata = s.txdata)

/-- The enqueue commit adds the bytes that fit at the end of the stream and loses none of the old ones
(20_memory.md R71, 43_output_channel.md R167, R168). -/
def Obligations.EnqueueExtendsTheStream : Prop :=
  ∀ (s : State) v (t : List Byte), RingOk s → RingBusy s → enqueue t s = .ok v →
    stream v = stream s ++ t.take (s.cfg.cap - 1 - occupied s) ∧ RingOk v ∧ RingBusy v

/-- IRQ.DRAIN: with a byte in the ring and TXRDY = 1 the oldest byte goes to TXDATA and RCUR advances; otherwise only
TXIP changes (43_output_channel.md R171, R164). -/
def Obligations.IrqDrainSendsOneByte : Prop :=
  ∀ (s : State), s.txie = true → s.txip = true →
    (∀ b, s.rcur ≠ s.wcur → s.txrdy = true → s.rcur < s.cfg.cap → s.ring.read s.rcur = some b →
      exec .irqDrain s = .next { s with
        txip := false, txdata := b, rcur := (s.rcur + 1) % s.cfg.cap, txrdy := false }) ∧
    (s.rcur = s.wcur ∨ s.txrdy = false → exec .irqDrain s = .next { s with txip := false })

/-- UART.DONE: the wire takes TXDATA, TXRDY and TXIP are set, whatever TXIE is (43_output_channel.md R165). -/
def Obligations.UartDoneTakesTheByte : Prop :=
  ∀ (s : State), s.txrdy = false → s.txen = true →
    exec .uartDone s = .next { s with wire := s.wire ++ [s.txdata], txrdy := true, txip := true }

/-- FIFO: no step loses, doubles or reorders a byte of the stream. A step leaves the stream as it is, but for three that
add bytes at its end, cut to the ring's free space: the commit of a SENQ adds the staged text, and a failed phase or the
end of a BRECV (whatever logs an event) adds the event's text, cut to STAGE_MAX; and for the byte step of a SSENDB, whose
byte enters at the transmit register, before the ring (20_memory.md R71, 43_output_channel.md R167,
42_status_decoder.md R146, 70_reset_and_hazards.md R228; the cut to STAGE_MAX is a deduction, log 18; that a SSENDB's
first byte may go in the step that takes it from the port, logs 8 and 11). -/
def Obligations.StreamIsFirstInFirstOut : Prop :=
  ∀ (s : State) t room, Invariant s → step s = .next t → room = s.cfg.cap - 1 - occupied s →
    (stream t = stream s ∧ t.diagLog = s.diagLog ∧ (s.cmd = some .senq → t.cmd = some .senq) ∧
      (∀ text pos, s.cmd = some (.ssendb text pos) → pos < text.length → t.cmd = s.cmd) ∧
      ∀ text, s.cmd = some (.presented (.ssendb text)) → t.cmd ≠ some (.ssendb text 1)) ∨
    (s.cmd = some .senq ∧ t.cmd = none ∧ t.diagLog = s.diagLog ∧
      stream t = stream s ++ s.stage.bytes.take room) ∨
    (∃ e, t.diagLog = s.diagLog ++ [e] ∧
      stream t = stream s ++ ((render s.cfg e).take s.cfg.stageMax).take room) ∨
    (∃ text pos b, (s.cmd = some (.ssendb text pos) ∨ s.cmd = some (.presented (.ssendb text)) ∧ pos = 0) ∧
      text[pos]? = some b ∧ s.txrdy = true ∧
      t.cmd = some (.ssendb text (pos + 1)) ∧ t.diagLog = s.diagLog ∧
      stream s = s.wire ++ ringContents s ∧ stream t = s.wire ++ [b] ++ ringContents s)

/-- The channel drains: when UART and DRAIN run in turn, the wire gains the byte in flight, if there is one, and then
the whole ring in order, and the channel is idle and empty at the end (43_output_channel.md R173, R172 d; the order of
the turns is a schedule, log 2). -/
def Obligations.SettlingPutsTheStreamOnTheWire : Prop :=
  ∀ (s : State) ts, Invariant s → s.txen = true → s.turns = drainSchedule (occupied s + 1) ++ ts →
    ∃ d, runSteps (2 * (occupied s + 1)) s = .next { s with
      wire := stream s, rcur := s.wcur, txrdy := true, txip := false, txdata := d, turns := ts }

/-- The end of a run. It is over when every command has had its response, PH = IDLE and neither DRAIN nor UART has a
step: with TXEN = 1 that means TXRDY = 1 and TXIP = 0, and the ring is empty; with TXEN = 0 the responses and PH are
all. No step changes a register, memory or history after it. A run in which SEQ waits for a completion that PHY never
gives, or PROD for a register that UART never frees, waits for ever, and has no end state
(70_reset_and_hazards.md R231, R225; 40_bus_commands.md R105; the program is the list hostCmds and a response is had
when HOST has taken it, logs 1, 9 and 25; schedules, log 2). -/
def Obligations.RunIsOverOrWaits : Prop :=
  ∀ (s : State), Invariant s →
    (s.txen = true →
      (runOver s = true ↔
        s.hostCmds = [] ∧ s.cmd = none ∧ s.resp = none ∧ s.ph = .idle ∧ s.txrdy = true ∧ s.txip = false) ∧
      (runOver s = true → occupied s = 0)) ∧
    (s.txen = false →
      (runOver s = true ↔ s.hostCmds = [] ∧ s.cmd = none ∧ s.resp = none ∧ s.ph = .idle)) ∧
    (runOver s = true → ∀ t, step s = .next t →
      runOver t = true ∧ t = { s with turns := t.turns, draws := t.draws }) ∧
    (∀ next : Nat → Agent,
      (s.ph = .startIssued ∨ s.ph = .addrSent ∨ s.ph = .dataXfer) → s.bint = false →
      (∀ k, next k ≠ .phy) → WaitsForEver next s) ∧
    (∀ (next : Nat → Agent) text pos, s.cmd = some (.ssendb text pos) → pos < text.length → s.txrdy = false →
      (∀ k, next k ≠ .uart) → WaitsForEver next s) ∧
    (∀ next, WaitsForEver next s → ∀ t, ¬ EndsIn next s t)

/-! ### Whole-machine rules -/

/-- Every transition of PH and the PHY command it issues; no other exists, and bus_log grows by nothing else
(41_bus_phases.md R130, R123; the command at the port as a field is the model's, log 8). -/
def Obligations.PhaseTransitionsAreTheTable : Prop :=
  ∀ (s : State) t, Invariant s → step s = .next t →
    (t.ph = s.ph ∧ t.busLog = s.busLog) ∨
    (s.ph = .idle ∧ s.ben = true ∧
      ((∃ a b, s.cmd = some (.presented (.bsend a b))) ∨ (∃ a n, s.cmd = some (.presented (.brecv a n)))) ∧
      t.ph = .startIssued ∧ t.busLog = s.busLog ++ [.start]) ∨
    (s.ph = .startIssued ∧ s.bint = true ∧ classify s.cfg.status s.bstat = .ok ∧
      t.ph = .addrSent ∧ t.busLog = s.busLog ++ [.xmit (addressByte s.addr s.dir)]) ∨
    (s.ph = .startIssued ∧ s.bint = true ∧ classify s.cfg.status s.bstat ≠ .ok ∧
      t.ph = .stopIssued ∧ t.busLog = s.busLog ++ [.stop]) ∨
    (s.ph = .addrSent ∧ s.bint = true ∧ classify s.cfg.status s.bstat = .ok ∧ 0 < s.cnt.toNat ∧
      t.ph = .dataXfer ∧ t.busLog = s.busLog ++ [dataCommand s 0]) ∨
    (s.ph = .addrSent ∧ s.bint = true ∧ (s.cnt = 0 ∨ classify s.cfg.status s.bstat ≠ .ok) ∧
      t.ph = .stopIssued ∧ t.busLog = s.busLog ++ [.stop]) ∨
    (s.ph = .dataXfer ∧ s.bint = true ∧ classify s.cfg.status s.bstat = .ok ∧ s.idx.toNat + 1 < s.cnt.toNat ∧
      t.ph = .dataXfer ∧ t.busLog = s.busLog ++ [dataCommand s (s.idx.toNat + 1)]) ∨
    (s.ph = .dataXfer ∧ s.bint = true ∧
      (s.idx.toNat + 1 = s.cnt.toNat ∨ classify s.cfg.status s.bstat ≠ .ok) ∧
      t.ph = .stopIssued ∧ t.busLog = s.busLog ++ [.stop]) ∨
    (s.ph = .stopIssued ∧ t.ph = .idle ∧ t.busLog = s.busLog)

/-- A stop is issued exactly once per transaction: as many PStop as PStart in bus_log, less the one a running
transaction has not issued yet, kept by every step of an agent (40_bus_commands.md R106 a). -/
def Obligations.EveryTransactionStopsOnce : Prop :=
  ∀ (s : State) t, NextIsAgent s → StopsBalanceStarts s → step s = .next t → StopsBalanceStarts t

/-- bus_log follows the protocol: PStart, the address byte, the data commands in order (a read acknowledges all but
the final byte), PStop last; kept by every step (40_bus_commands.md R106 b, R104; 20_memory.md R70). -/
def Obligations.BusLogFollowsTheProtocol : Prop :=
  ∀ (s : State) t, Invariant s → LogFollowsPhase s → step s = .next t → LogFollowsPhase t

/-- BRES, LASTERR and diag_log change by a failed phase only, but for the clearing of BRES at PH.START and the dump at
PH.DONE of a BRECV (10_state.md R43, R45; 42_status_decoder.md R143; 40_bus_commands.md R106 c). -/
def Obligations.FailureRecordsChangeOnlyByFailure : Prop :=
  ∀ (s : State) t, step s = .next t →
    (t.lasterr = s.lasterr ∧ t.bres = s.bres ∧ t.diagLog = s.diagLog) ∨
    (s.ph = .idle ∧ t.ph = .startIssued ∧ t.lasterr = s.lasterr ∧ t.bres = .ok ∧ t.diagLog = s.diagLog) ∨
    (s.ph = .stopIssued ∧ s.dir = .read ∧ t.ph = .idle ∧ t.lasterr = s.lasterr ∧ t.bres = s.bres ∧
      ∃ bs, t.diagLog = s.diagLog ++ [.rxDump s.addr bs]) ∨
    ((s.ph = .startIssued ∨ s.ph = .addrSent ∨ s.ph = .dataXfer) ∧ s.bint = true ∧
      classify s.cfg.status s.bstat ≠ .ok ∧ t.ph = .stopIssued ∧ t.lasterr = s.bstat ∧
      t.bres = classify s.cfg.status s.bstat ∧
      t.diagLog = s.diagLog ++ [.errLine (classify s.cfg.status s.bstat) s.bstat s.addr])

/-- No step clears BEN, TXEN or TXIE, and none changes a parameter (10_state.md R33, R38, R39; 43_output_channel.md
R174; 70_reset_and_hazards.md R223). -/
def Obligations.EnablesAndParametersPersist : Prop :=
  ∀ (s : State) t, step s = .next t →
    t.cfg = s.cfg ∧ (s.ben = true → t.ben = true) ∧ (s.txen = true → t.txen = true) ∧
    (s.txie = true → t.txie = true)

/-- The steps of DRAIN, UART and PROD touch no state of the bus controller (43_output_channel.md R160,
60_exceptions.md R200, R201). -/
def Obligations.ChannelStepsLeaveTheBusController : Prop :=
  ∀ (s : State) t a ts, s.turns = .agent a :: ts → (a = .drain ∨ a = .uart ∨ a = .prod) → step s = .next t →
    t.ph = s.ph ∧ t.addr = s.addr ∧ t.dir = s.dir ∧ t.cnt = s.cnt ∧ t.idx = s.idx ∧ t.bdiv = s.bdiv ∧
    t.bctl = s.bctl ∧ t.bstat = s.bstat ∧ t.bdata = s.bdata ∧ t.ben = s.ben ∧ t.bint = s.bint ∧
    t.bres = s.bres ∧ t.lasterr = s.lasterr ∧ t.txpay = s.txpay ∧ t.rxbuf = s.rxbuf ∧
    t.busLog = s.busLog ∧ t.diagLog = s.diagLog

/-- The debug read port: every register of the map at its number, flags at their bits, any other number 0
(10_state.md R50, R47). -/
def Obligations.DebugPortReadsTheMap : Prop :=
  ∀ (s : State),
    (debugRead s 0x00 = s.bdiv.toNat ∧ debugRead s 0x01 = s.bctl.toNat ∧ debugRead s 0x02 = s.bstat.toNat ∧
      debugRead s 0x03 = s.bdata.toNat ∧
      debugRead s 0x04 = (if s.ben then 1 else 0) + (if s.bint then 2 else 0) ∧
      debugRead s 0x06 = s.addr.toNat + (if s.dir = .read then 128 else 0) ∧ debugRead s 0x07 = s.cnt.toNat ∧
      debugRead s 0x08 = s.idx.toNat ∧ debugRead s 0x0a = s.lasterr.toNat) ∧
    (debugRead s 0x10 = s.sdiv.toNat ∧ debugRead s 0x11 = 0x18 ∧
      debugRead s 0x12 = (if s.txen then 1 else 0) + (if s.txie then 2 else 0) ∧
      debugRead s 0x13 = (if s.txrdy then 1 else 0) + (if s.txip then 2 else 0) ∧
      debugRead s 0x14 = s.txdata.toNat ∧ debugRead s 0x15 = s.wcur ∧ debugRead s 0x16 = s.rcur) ∧
    ((s.ph = .idle → debugRead s 0x05 = 0) ∧ (s.ph = .startIssued → debugRead s 0x05 = 1) ∧
      (s.ph = .addrSent → debugRead s 0x05 = 2) ∧ (s.ph = .dataXfer → debugRead s 0x05 = 3) ∧
      (s.ph = .stopIssued → debugRead s 0x05 = 4)) ∧
    ((s.bres = .ok → debugRead s 0x09 = 0) ∧ (s.bres = .recoverable → debugRead s 0x09 = 1) ∧
      (s.bres = .fatal → debugRead s 0x09 = 2) ∧ (s.bres = .unrecognized → debugRead s 0x09 = 3)) ∧
    (∀ n, (0x0a < n ∧ n < 0x10) ∨ 0x16 < n → debugRead s n = 0)

/-! ### Whole transactions -/

/-- A BSEND whose every phase completes OK: PStart, the address byte with direction bit 0, every payload byte in order,
PStop; no diagnostic; BRES OK, IDX = LEN, the response; the output channel is untouched
(40_bus_commands.md R103, R106; the scripts of HOST and PHY, the order of the turns and the number of steps are the
model's, logs 1, 2, 3 and 8). -/
def Obligations.BsendRunsToItsResponse : Prop :=
  ∀ (s : State) (a : Address) (b sts rs bs : List Byte) (h : Word) hs ts,
    portFree s = true → s.ben = true → b.length < 65536 →
    h.toNat = 2 * 2 ^ 28 + a.toNat * 2 ^ 16 + b.length →
    s.hostCmds = h :: hs → s.hostBytes = b ++ bs → s.phyStatus = sts ++ rs → sts.length = b.length + 2 →
    (∀ v ∈ sts, classify s.cfg.status v = .ok) →
    s.turns = transactionSchedule (b.length + 2) ++ ts →
    ∃ t, runSteps (2 * (b.length + 2) + 3) s = .next t ∧
      t.busLog = s.busLog ++ .start :: .xmit (BitVec.ofNat 8 (a.toNat * 2)) :: b.map .xmit ++ [.stop] ∧
      t.resp = some { word := 0x20000000, data := [] } ∧ t.cmd = none ∧ t.ph = .idle ∧ t.bres = .ok ∧
      t.idx.toNat = b.length ∧ t.cnt.toNat = b.length ∧ t.addr = a ∧ t.dir = .write ∧
      t.diagLog = s.diagLog ∧ t.lasterr = s.lasterr ∧
      t.ring = s.ring ∧ t.wcur = s.wcur ∧ t.rcur = s.rcur ∧ t.txdata = s.txdata ∧ t.txrdy = s.txrdy ∧
      t.txip = s.txip ∧ t.wire = s.wire ∧
      t.turns = ts ∧ t.hostCmds = hs ∧ t.hostBytes = bs ∧ t.phyStatus = rs

/-- A BRECV whose every phase completes OK: PStart, the address byte with direction bit 1, one receive per byte, each
answered with ACK but the last, PStop; the dump and nothing else in diag_log; COUNT and the bytes in the order the
peripheral gave them (40_bus_commands.md R104, R106; the scripts of HOST and PHY, the order of the turns and the number
of steps are the model's, logs 1, 2, 3 and 8). -/
def Obligations.BrecvRunsToItsResponse : Prop :=
  ∀ (s : State) (a : Address) (d sts rs ds : List Byte) (h : Word) hs ts,
    portFree s = true → s.ben = true → RingOk s → d.length < 65536 →
    h.toNat = 3 * 2 ^ 28 + a.toNat * 2 ^ 16 + d.length →
    s.hostCmds = h :: hs → s.phyStatus = sts ++ rs → sts.length = d.length + 2 → s.phyData = d ++ ds →
    (∀ v ∈ sts, classify s.cfg.status v = .ok) →
    s.turns = transactionSchedule (d.length + 2) ++ ts →
    ∃ t, runSteps (2 * (d.length + 2) + 3) s = .next t ∧
      t.busLog = s.busLog ++ .start :: .xmit (BitVec.ofNat 8 (a.toNat * 2 + 1)) ::
        (List.range d.length).map (fun i => .recv (decide (i + 1 < d.length))) ++ [.stop] ∧
      t.resp = some { word := BitVec.ofNat 32 (0x30000000 + d.length), data := d } ∧ t.cmd = none ∧
      t.ph = .idle ∧ t.bres = .ok ∧ t.idx.toNat = d.length ∧ t.cnt.toNat = d.length ∧ t.addr = a ∧
      t.dir = .read ∧ (∀ i, i < d.length → t.rxbuf.read i = d[i]?) ∧
      t.diagLog = s.diagLog ++ [.rxDump a d] ∧ t.lasterr = s.lasterr ∧ t.wire = s.wire ∧
      t.turns = ts ∧ t.hostCmds = hs ∧ t.phyStatus = rs ∧ t.phyData = ds
end

