-- ==== Sys2Proof/Laws/Memory.lean ====
section
/-! SUPPORT. The laws of memory: a read after a write, and every operation keeps the canonical form. -/

namespace Sys2Proof.Machine

@[simp] theorem Memory.read_nil (x : Nat) : Memory.read [] x = none := rfl

@[simp] theorem Memory.read_cons (a : Nat) (v : Byte) (m : Memory) (x : Nat) :
    Memory.read ((a, v) :: m) x = if a = x then some v else Memory.read m x := rfl

theorem Memory.read_write_same (m : Memory) (x : Nat) (v : Byte) : (m.write x v).read x = some v := by
  induction m with
  | nil => simp [Memory.write]
  | cons c m ih =>
    obtain ⟨a, w⟩ := c
    by_cases h1 : x < a
    · simp [Memory.write, h1]
    · by_cases h2 : a = x
      · simp [Memory.write, h2]
      · simp [Memory.write, h1, h2, ih]

theorem Memory.read_write_other (m : Memory) {x y : Nat} (v : Byte) (h : y ≠ x) :
    (m.write x v).read y = m.read y := by
  induction m with
  | nil => simp [Memory.write, Ne.symm h]
  | cons c m ih =>
    obtain ⟨a, w⟩ := c
    by_cases h1 : x < a
    · simp [Memory.write, h1, Ne.symm h]
    · by_cases h2 : a = x
      · subst h2; simp [Memory.write, Ne.symm h]
      · simp [Memory.write, h1, h2, ih]

theorem Memory.read_write (m : Memory) (x y : Nat) (v : Byte) :
    (m.write x v).read y = if y = x then some v else m.read y := by
  by_cases h : y = x
  · subst h; simp [Memory.read_write_same]
  · simp [h, Memory.read_write_other]

/-- The canonical form, cell by cell. -/
theorem Memory.wf_cons (a : Nat) (v : Byte) (m : Memory) :
    Memory.wf ((a, v) :: m) = true ↔ (∀ c ∈ m.head?, a < c.1) ∧ Memory.wf m = true := by
  cases m with
  | nil => simp [Memory.wf]
  | cons c m => obtain ⟨b, w⟩ := c; simp [Memory.wf]

theorem Memory.head_write (m : Memory) (x : Nat) (v : Byte) (a : Nat) (hx : a < x)
    (hm : ∀ c ∈ m.head?, a < c.1) : ∀ c ∈ (m.write x v).head?, a < c.1 := by
  cases m with
  | nil => simpa [Memory.write] using hx
  | cons c m =>
    obtain ⟨b, w⟩ := c
    by_cases h1 : x < b
    · simpa [Memory.write, h1] using hx
    · by_cases h2 : b = x
      · simpa [Memory.write, h2] using hx
      · simpa [Memory.write, h1, h2] using hm

/-- A write keeps the canonical form. -/
theorem Memory.wf_write (m : Memory) (x : Nat) (v : Byte) (h : m.wf = true) : (m.write x v).wf = true := by
  induction m with
  | nil => rfl
  | cons c m ih =>
    obtain ⟨a, w⟩ := c
    rw [Memory.wf_cons] at h
    by_cases h1 : x < a
    · simp only [Memory.write, h1, if_true]
      rw [Memory.wf_cons, Memory.wf_cons]
      exact ⟨by simpa using h1, h⟩
    · by_cases h2 : a = x
      · subst h2; simp only [Memory.write, h1, if_false, if_true]; rw [Memory.wf_cons]; exact h
      · simp only [Memory.write, h1, h2, if_false]
        rw [Memory.wf_cons]
        exact ⟨Memory.head_write m x v a (by omega) h.1, ih h.2⟩

/-- A write lists no address but the written one anew. -/
theorem Memory.mem_write (m : Memory) (x : Nat) (v : Byte) (c : Host.Cell) (h : c ∈ m.write x v) :
    c = (x, v) ∨ c ∈ m := by
  induction m with
  | nil => simpa [Memory.write] using h
  | cons d m ih =>
    obtain ⟨a, w⟩ := d
    by_cases h1 : x < a
    · simp only [Memory.write, h1, if_true] at h
      rcases List.mem_cons.1 h with h | h
      · exact .inl h
      · exact .inr h
    · by_cases h2 : a = x
      · subst h2
        simp only [Memory.write, h1, if_false, if_true] at h
        rcases List.mem_cons.1 h with h | h
        · exact .inl h
        · exact .inr (List.mem_cons_of_mem _ h)
      · simp only [Memory.write, h1, h2, if_false] at h
        rcases List.mem_cons.1 h with h | h
        · exact .inr (by simp [h])
        · exact (ih h).imp id (List.mem_cons_of_mem _)

theorem Memory.wf_ofBytesFrom (start : Nat) (bs : List Byte) : (Memory.ofBytesFrom start bs).wf = true := by
  induction bs generalizing start with
  | nil => rfl
  | cons b bs ih =>
    rw [Memory.ofBytesFrom, Memory.wf_cons]
    refine ⟨?_, ih _⟩
    cases bs with
    | nil => simp [Memory.ofBytesFrom]
    | cons c cs => simp [Memory.ofBytesFrom]

/-- A byte sequence laid down is in canonical form. -/
theorem Memory.wf_ofBytes (bs : List Byte) : (Memory.ofBytes bs).wf = true := Memory.wf_ofBytesFrom 0 bs

theorem Memory.read_ofBytesFrom (start : Nat) (bs : List Byte) (i : Nat) :
    (Memory.ofBytesFrom start bs).read i = if i < start then none else bs[i - start]? := by
  induction bs generalizing start with
  | nil => simp [Memory.ofBytesFrom]
  | cons b bs ih =>
    rw [Memory.ofBytesFrom, Memory.read_cons, ih]
    by_cases h : start = i
    · subst h; simp
    · by_cases h2 : i < start
      · simp [h, h2, show i < start + 1 by omega]
      · have h3 : ¬ i < start + 1 := by omega
        have h4 : i - start = (i - (start + 1)) + 1 := by omega
        simp [h, h2, h3, h4]

/-- Byte `i` of the sequence stands at address `i` (20_memory.md R76). -/
@[simp] theorem Memory.read_ofBytes (bs : List Byte) (i : Nat) : (Memory.ofBytes bs).read i = bs[i]? := by
  simp [Memory.ofBytes, Memory.read_ofBytesFrom]

theorem Memory.bytes_ofBytesFrom (start : Nat) (bs : List Byte) : (Memory.ofBytesFrom start bs).bytes = bs := by
  induction bs generalizing start with
  | nil => rfl
  | cons b bs ih =>
    have := ih (start + 1)
    simp only [Memory.bytes] at this
    simp [Memory.ofBytesFrom, Memory.bytes, this]

@[simp] theorem Memory.bytes_ofBytes (bs : List Byte) : (Memory.ofBytes bs).bytes = bs :=
  Memory.bytes_ofBytesFrom 0 bs

theorem Memory.length_ofBytesFrom (start : Nat) (bs : List Byte) :
    (Memory.ofBytesFrom start bs).length = bs.length := by
  induction bs generalizing start with
  | nil => rfl
  | cons b bs ih => simp [Memory.ofBytesFrom, ih]

@[simp] theorem Memory.length_ofBytes (bs : List Byte) : (Memory.ofBytes bs).length = bs.length :=
  Memory.length_ofBytesFrom 0 bs

/-- The store of a run keeps the canonical form. -/
theorem wf_ringStore (cap wcur i : Nat) (bs : List Byte) (m : Memory) (h : m.wf = true) :
    (ringStore cap wcur i bs m).wf = true := by
  induction bs generalizing i m with
  | nil => exact h
  | cons b bs ih => exact ih _ _ (Memory.wf_write _ _ _ h)

/-- The store of a run lists addresses below CAP only. -/
theorem ringStore_size (cap wcur i : Nat) (bs : List Byte) (m : Memory) (hc : 0 < cap)
    (h : ∀ c ∈ m, c.1 < cap) : ∀ c ∈ ringStore cap wcur i bs m, c.1 < cap := by
  induction bs generalizing i m with
  | nil => exact h
  | cons b bs ih =>
    refine ih _ _ fun c hcm => ?_
    rcases Memory.mem_write _ _ _ _ hcm with h1 | h1
    · subst h1; exact Nat.mod_lt _ hc
    · exact h c h1

/-- Two slots of one run differ when the run is no longer than the ring. -/
theorem advance_ne {cap wcur i j : Nat} (hij : i < j) (hj : j < i + cap) :
    advance cap wcur i ≠ advance cap wcur j := by
  intro h
  have h1 : (wcur + i) % cap = (wcur + j) % cap := h
  have h2 : ((wcur + j) - (wcur + i)) % cap = 0 := Nat.sub_mod_eq_zero_of_mod_eq h1.symm
  have h3 : (wcur + j) - (wcur + i) = j - i := by omega
  rw [h3, Nat.mod_eq_of_lt (by omega)] at h2
  omega

/-- A slot outside the run keeps its byte. -/
theorem read_ringStore_other (cap wcur i : Nat) (bs : List Byte) (m : Memory) (a : Nat)
    (h : ∀ k, k < bs.length → a ≠ advance cap wcur (i + k)) :
    (ringStore cap wcur i bs m).read a = m.read a := by
  induction bs generalizing i m with
  | nil => rfl
  | cons b bs ih =>
    rw [ringStore, ih]
    · exact Memory.read_write_other _ _ (by simpa using h 0 (by simp))
    · intro k hk
      have := h (k + 1) (by simpa using hk)
      rwa [show i + (k + 1) = i + 1 + k by omega] at this

/-- Byte `k` of a run stands at `(WCUR + i + k) mod CAP` (20_memory.md R67). -/
theorem read_ringStore (cap wcur i : Nat) (bs : List Byte) (m : Memory) (k : Nat) (hk : k < bs.length)
    (hlen : bs.length ≤ cap) :
    (ringStore cap wcur i bs m).read (advance cap wcur (i + k)) = bs[k]? := by
  induction bs generalizing i m k with
  | nil => simp at hk
  | cons b bs ih =>
    rw [ringStore]
    simp only [List.length_cons] at hk hlen
    cases k with
    | zero =>
      rw [read_ringStore_other, Memory.read_write]
      · simp
      · intro j hj
        exact advance_ne (by omega) (by omega)
    | succ k =>
      rw [show i + (k + 1) = i + 1 + k by omega, ih _ _ _ (by omega) (by omega)]
      simp

end Sys2Proof.Machine
end

