-- ==== Sys2Proof/Laws/State.lean ====
section
/-! SUPPORT. One lemma per field per update of the state, true by rfl, so that no later proof unfolds an update. -/

namespace Sys2Proof.Machine

@[simp] theorem txWrite_cfg (b : Byte) (s : State) : (txWrite b s).cfg = s.cfg := rfl
@[simp] theorem txWrite_bdiv (b : Byte) (s : State) : (txWrite b s).bdiv = s.bdiv := rfl
@[simp] theorem txWrite_bctl (b : Byte) (s : State) : (txWrite b s).bctl = s.bctl := rfl
@[simp] theorem txWrite_bstat (b : Byte) (s : State) : (txWrite b s).bstat = s.bstat := rfl
@[simp] theorem txWrite_bdata (b : Byte) (s : State) : (txWrite b s).bdata = s.bdata := rfl
@[simp] theorem txWrite_ben (b : Byte) (s : State) : (txWrite b s).ben = s.ben := rfl
@[simp] theorem txWrite_bint (b : Byte) (s : State) : (txWrite b s).bint = s.bint := rfl
@[simp] theorem txWrite_ph (b : Byte) (s : State) : (txWrite b s).ph = s.ph := rfl
@[simp] theorem txWrite_addr (b : Byte) (s : State) : (txWrite b s).addr = s.addr := rfl
@[simp] theorem txWrite_dir (b : Byte) (s : State) : (txWrite b s).dir = s.dir := rfl
@[simp] theorem txWrite_cnt (b : Byte) (s : State) : (txWrite b s).cnt = s.cnt := rfl
@[simp] theorem txWrite_idx (b : Byte) (s : State) : (txWrite b s).idx = s.idx := rfl
@[simp] theorem txWrite_bres (b : Byte) (s : State) : (txWrite b s).bres = s.bres := rfl
@[simp] theorem txWrite_lasterr (b : Byte) (s : State) : (txWrite b s).lasterr = s.lasterr := rfl
@[simp] theorem txWrite_sdiv (b : Byte) (s : State) : (txWrite b s).sdiv = s.sdiv := rfl
@[simp] theorem txWrite_txen (b : Byte) (s : State) : (txWrite b s).txen = s.txen := rfl
@[simp] theorem txWrite_txie (b : Byte) (s : State) : (txWrite b s).txie = s.txie := rfl
@[simp] theorem txWrite_txrdy (b : Byte) (s : State) : (txWrite b s).txrdy = false := rfl
@[simp] theorem txWrite_txip (b : Byte) (s : State) : (txWrite b s).txip = s.txip := rfl
@[simp] theorem txWrite_txdata (b : Byte) (s : State) : (txWrite b s).txdata = b := rfl
@[simp] theorem txWrite_wcur (b : Byte) (s : State) : (txWrite b s).wcur = s.wcur := rfl
@[simp] theorem txWrite_rcur (b : Byte) (s : State) : (txWrite b s).rcur = s.rcur := rfl
@[simp] theorem txWrite_ring (b : Byte) (s : State) : (txWrite b s).ring = s.ring := rfl
@[simp] theorem txWrite_txpay (b : Byte) (s : State) : (txWrite b s).txpay = s.txpay := rfl
@[simp] theorem txWrite_rxbuf (b : Byte) (s : State) : (txWrite b s).rxbuf = s.rxbuf := rfl
@[simp] theorem txWrite_stage (b : Byte) (s : State) : (txWrite b s).stage = s.stage := rfl
@[simp] theorem txWrite_busLog (b : Byte) (s : State) : (txWrite b s).busLog = s.busLog := rfl
@[simp] theorem txWrite_diagLog (b : Byte) (s : State) : (txWrite b s).diagLog = s.diagLog := rfl
@[simp] theorem txWrite_wire (b : Byte) (s : State) : (txWrite b s).wire = s.wire := rfl
@[simp] theorem txWrite_cmd (b : Byte) (s : State) : (txWrite b s).cmd = s.cmd := rfl
@[simp] theorem txWrite_resp (b : Byte) (s : State) : (txWrite b s).resp = s.resp := rfl
@[simp] theorem txWrite_turns (b : Byte) (s : State) : (txWrite b s).turns = s.turns := rfl
@[simp] theorem txWrite_hostCmds (b : Byte) (s : State) : (txWrite b s).hostCmds = s.hostCmds := rfl
@[simp] theorem txWrite_hostBytes (b : Byte) (s : State) : (txWrite b s).hostBytes = s.hostBytes := rfl
@[simp] theorem txWrite_phyStatus (b : Byte) (s : State) : (txWrite b s).phyStatus = s.phyStatus := rfl
@[simp] theorem txWrite_phyData (b : Byte) (s : State) : (txWrite b s).phyData = s.phyData := rfl
@[simp] theorem txWrite_draws (b : Byte) (s : State) : (txWrite b s).draws = s.draws := rfl

@[simp] theorem stageText_cfg (t : List Byte) (s : State) : (stageText t s).cfg = s.cfg := rfl
@[simp] theorem stageText_bdiv (t : List Byte) (s : State) : (stageText t s).bdiv = s.bdiv := rfl
@[simp] theorem stageText_bctl (t : List Byte) (s : State) : (stageText t s).bctl = s.bctl := rfl
@[simp] theorem stageText_bstat (t : List Byte) (s : State) : (stageText t s).bstat = s.bstat := rfl
@[simp] theorem stageText_bdata (t : List Byte) (s : State) : (stageText t s).bdata = s.bdata := rfl
@[simp] theorem stageText_ben (t : List Byte) (s : State) : (stageText t s).ben = s.ben := rfl
@[simp] theorem stageText_bint (t : List Byte) (s : State) : (stageText t s).bint = s.bint := rfl
@[simp] theorem stageText_ph (t : List Byte) (s : State) : (stageText t s).ph = s.ph := rfl
@[simp] theorem stageText_addr (t : List Byte) (s : State) : (stageText t s).addr = s.addr := rfl
@[simp] theorem stageText_dir (t : List Byte) (s : State) : (stageText t s).dir = s.dir := rfl
@[simp] theorem stageText_cnt (t : List Byte) (s : State) : (stageText t s).cnt = s.cnt := rfl
@[simp] theorem stageText_idx (t : List Byte) (s : State) : (stageText t s).idx = s.idx := rfl
@[simp] theorem stageText_bres (t : List Byte) (s : State) : (stageText t s).bres = s.bres := rfl
@[simp] theorem stageText_lasterr (t : List Byte) (s : State) : (stageText t s).lasterr = s.lasterr := rfl
@[simp] theorem stageText_sdiv (t : List Byte) (s : State) : (stageText t s).sdiv = s.sdiv := rfl
@[simp] theorem stageText_txen (t : List Byte) (s : State) : (stageText t s).txen = s.txen := rfl
@[simp] theorem stageText_txie (t : List Byte) (s : State) : (stageText t s).txie = s.txie := rfl
@[simp] theorem stageText_txrdy (t : List Byte) (s : State) : (stageText t s).txrdy = s.txrdy := rfl
@[simp] theorem stageText_txip (t : List Byte) (s : State) : (stageText t s).txip = s.txip := rfl
@[simp] theorem stageText_txdata (t : List Byte) (s : State) : (stageText t s).txdata = s.txdata := rfl
@[simp] theorem stageText_wcur (t : List Byte) (s : State) : (stageText t s).wcur = s.wcur := rfl
@[simp] theorem stageText_rcur (t : List Byte) (s : State) : (stageText t s).rcur = s.rcur := rfl
@[simp] theorem stageText_ring (t : List Byte) (s : State) : (stageText t s).ring = s.ring := rfl
@[simp] theorem stageText_txpay (t : List Byte) (s : State) : (stageText t s).txpay = s.txpay := rfl
@[simp] theorem stageText_rxbuf (t : List Byte) (s : State) : (stageText t s).rxbuf = s.rxbuf := rfl
@[simp] theorem stageText_stage (t : List Byte) (s : State) : (stageText t s).stage = Memory.ofBytes (t.take s.cfg.stageMax) := rfl
@[simp] theorem stageText_busLog (t : List Byte) (s : State) : (stageText t s).busLog = s.busLog := rfl
@[simp] theorem stageText_diagLog (t : List Byte) (s : State) : (stageText t s).diagLog = s.diagLog := rfl
@[simp] theorem stageText_wire (t : List Byte) (s : State) : (stageText t s).wire = s.wire := rfl
@[simp] theorem stageText_cmd (t : List Byte) (s : State) : (stageText t s).cmd = s.cmd := rfl
@[simp] theorem stageText_resp (t : List Byte) (s : State) : (stageText t s).resp = s.resp := rfl
@[simp] theorem stageText_turns (t : List Byte) (s : State) : (stageText t s).turns = s.turns := rfl
@[simp] theorem stageText_hostCmds (t : List Byte) (s : State) : (stageText t s).hostCmds = s.hostCmds := rfl
@[simp] theorem stageText_hostBytes (t : List Byte) (s : State) : (stageText t s).hostBytes = s.hostBytes := rfl
@[simp] theorem stageText_phyStatus (t : List Byte) (s : State) : (stageText t s).phyStatus = s.phyStatus := rfl
@[simp] theorem stageText_phyData (t : List Byte) (s : State) : (stageText t s).phyData = s.phyData := rfl
@[simp] theorem stageText_draws (t : List Byte) (s : State) : (stageText t s).draws = s.draws := rfl

@[simp] theorem respond_cfg (opc : BitVec 4) (n : BitVec 16) (d : List Byte) (s : State) : (respond opc n d s).cfg = s.cfg := rfl
@[simp] theorem respond_bdiv (opc : BitVec 4) (n : BitVec 16) (d : List Byte) (s : State) : (respond opc n d s).bdiv = s.bdiv := rfl
@[simp] theorem respond_bctl (opc : BitVec 4) (n : BitVec 16) (d : List Byte) (s : State) : (respond opc n d s).bctl = s.bctl := rfl
@[simp] theorem respond_bstat (opc : BitVec 4) (n : BitVec 16) (d : List Byte) (s : State) : (respond opc n d s).bstat = s.bstat := rfl
@[simp] theorem respond_bdata (opc : BitVec 4) (n : BitVec 16) (d : List Byte) (s : State) : (respond opc n d s).bdata = s.bdata := rfl
@[simp] theorem respond_ben (opc : BitVec 4) (n : BitVec 16) (d : List Byte) (s : State) : (respond opc n d s).ben = s.ben := rfl
@[simp] theorem respond_bint (opc : BitVec 4) (n : BitVec 16) (d : List Byte) (s : State) : (respond opc n d s).bint = s.bint := rfl
@[simp] theorem respond_ph (opc : BitVec 4) (n : BitVec 16) (d : List Byte) (s : State) : (respond opc n d s).ph = s.ph := rfl
@[simp] theorem respond_addr (opc : BitVec 4) (n : BitVec 16) (d : List Byte) (s : State) : (respond opc n d s).addr = s.addr := rfl
@[simp] theorem respond_dir (opc : BitVec 4) (n : BitVec 16) (d : List Byte) (s : State) : (respond opc n d s).dir = s.dir := rfl
@[simp] theorem respond_cnt (opc : BitVec 4) (n : BitVec 16) (d : List Byte) (s : State) : (respond opc n d s).cnt = s.cnt := rfl
@[simp] theorem respond_idx (opc : BitVec 4) (n : BitVec 16) (d : List Byte) (s : State) : (respond opc n d s).idx = s.idx := rfl
@[simp] theorem respond_bres (opc : BitVec 4) (n : BitVec 16) (d : List Byte) (s : State) : (respond opc n d s).bres = s.bres := rfl
@[simp] theorem respond_lasterr (opc : BitVec 4) (n : BitVec 16) (d : List Byte) (s : State) : (respond opc n d s).lasterr = s.lasterr := rfl
@[simp] theorem respond_sdiv (opc : BitVec 4) (n : BitVec 16) (d : List Byte) (s : State) : (respond opc n d s).sdiv = s.sdiv := rfl
@[simp] theorem respond_txen (opc : BitVec 4) (n : BitVec 16) (d : List Byte) (s : State) : (respond opc n d s).txen = s.txen := rfl
@[simp] theorem respond_txie (opc : BitVec 4) (n : BitVec 16) (d : List Byte) (s : State) : (respond opc n d s).txie = s.txie := rfl
@[simp] theorem respond_txrdy (opc : BitVec 4) (n : BitVec 16) (d : List Byte) (s : State) : (respond opc n d s).txrdy = s.txrdy := rfl
@[simp] theorem respond_txip (opc : BitVec 4) (n : BitVec 16) (d : List Byte) (s : State) : (respond opc n d s).txip = s.txip := rfl
@[simp] theorem respond_txdata (opc : BitVec 4) (n : BitVec 16) (d : List Byte) (s : State) : (respond opc n d s).txdata = s.txdata := rfl
@[simp] theorem respond_wcur (opc : BitVec 4) (n : BitVec 16) (d : List Byte) (s : State) : (respond opc n d s).wcur = s.wcur := rfl
@[simp] theorem respond_rcur (opc : BitVec 4) (n : BitVec 16) (d : List Byte) (s : State) : (respond opc n d s).rcur = s.rcur := rfl
@[simp] theorem respond_ring (opc : BitVec 4) (n : BitVec 16) (d : List Byte) (s : State) : (respond opc n d s).ring = s.ring := rfl
@[simp] theorem respond_txpay (opc : BitVec 4) (n : BitVec 16) (d : List Byte) (s : State) : (respond opc n d s).txpay = s.txpay := rfl
@[simp] theorem respond_rxbuf (opc : BitVec 4) (n : BitVec 16) (d : List Byte) (s : State) : (respond opc n d s).rxbuf = s.rxbuf := rfl
@[simp] theorem respond_stage (opc : BitVec 4) (n : BitVec 16) (d : List Byte) (s : State) : (respond opc n d s).stage = s.stage := rfl
@[simp] theorem respond_busLog (opc : BitVec 4) (n : BitVec 16) (d : List Byte) (s : State) : (respond opc n d s).busLog = s.busLog := rfl
@[simp] theorem respond_diagLog (opc : BitVec 4) (n : BitVec 16) (d : List Byte) (s : State) : (respond opc n d s).diagLog = s.diagLog := rfl
@[simp] theorem respond_wire (opc : BitVec 4) (n : BitVec 16) (d : List Byte) (s : State) : (respond opc n d s).wire = s.wire := rfl
@[simp] theorem respond_cmd (opc : BitVec 4) (n : BitVec 16) (d : List Byte) (s : State) : (respond opc n d s).cmd = none := rfl
@[simp] theorem respond_resp (opc : BitVec 4) (n : BitVec 16) (d : List Byte) (s : State) : (respond opc n d s).resp = some ⟨responseWord opc 0 n, d⟩ := rfl
@[simp] theorem respond_turns (opc : BitVec 4) (n : BitVec 16) (d : List Byte) (s : State) : (respond opc n d s).turns = s.turns := rfl
@[simp] theorem respond_hostCmds (opc : BitVec 4) (n : BitVec 16) (d : List Byte) (s : State) : (respond opc n d s).hostCmds = s.hostCmds := rfl
@[simp] theorem respond_hostBytes (opc : BitVec 4) (n : BitVec 16) (d : List Byte) (s : State) : (respond opc n d s).hostBytes = s.hostBytes := rfl
@[simp] theorem respond_phyStatus (opc : BitVec 4) (n : BitVec 16) (d : List Byte) (s : State) : (respond opc n d s).phyStatus = s.phyStatus := rfl
@[simp] theorem respond_phyData (opc : BitVec 4) (n : BitVec 16) (d : List Byte) (s : State) : (respond opc n d s).phyData = s.phyData := rfl
@[simp] theorem respond_draws (opc : BitVec 4) (n : BitVec 16) (d : List Byte) (s : State) : (respond opc n d s).draws = s.draws := rfl

@[simp] theorem reject_cfg (opc : BitVec 4) (code : RejectCode) (s : State) : (reject opc code s).cfg = s.cfg := rfl
@[simp] theorem reject_bdiv (opc : BitVec 4) (code : RejectCode) (s : State) : (reject opc code s).bdiv = s.bdiv := rfl
@[simp] theorem reject_bctl (opc : BitVec 4) (code : RejectCode) (s : State) : (reject opc code s).bctl = s.bctl := rfl
@[simp] theorem reject_bstat (opc : BitVec 4) (code : RejectCode) (s : State) : (reject opc code s).bstat = s.bstat := rfl
@[simp] theorem reject_bdata (opc : BitVec 4) (code : RejectCode) (s : State) : (reject opc code s).bdata = s.bdata := rfl
@[simp] theorem reject_ben (opc : BitVec 4) (code : RejectCode) (s : State) : (reject opc code s).ben = s.ben := rfl
@[simp] theorem reject_bint (opc : BitVec 4) (code : RejectCode) (s : State) : (reject opc code s).bint = s.bint := rfl
@[simp] theorem reject_ph (opc : BitVec 4) (code : RejectCode) (s : State) : (reject opc code s).ph = s.ph := rfl
@[simp] theorem reject_addr (opc : BitVec 4) (code : RejectCode) (s : State) : (reject opc code s).addr = s.addr := rfl
@[simp] theorem reject_dir (opc : BitVec 4) (code : RejectCode) (s : State) : (reject opc code s).dir = s.dir := rfl
@[simp] theorem reject_cnt (opc : BitVec 4) (code : RejectCode) (s : State) : (reject opc code s).cnt = s.cnt := rfl
@[simp] theorem reject_idx (opc : BitVec 4) (code : RejectCode) (s : State) : (reject opc code s).idx = s.idx := rfl
@[simp] theorem reject_bres (opc : BitVec 4) (code : RejectCode) (s : State) : (reject opc code s).bres = s.bres := rfl
@[simp] theorem reject_lasterr (opc : BitVec 4) (code : RejectCode) (s : State) : (reject opc code s).lasterr = s.lasterr := rfl
@[simp] theorem reject_sdiv (opc : BitVec 4) (code : RejectCode) (s : State) : (reject opc code s).sdiv = s.sdiv := rfl
@[simp] theorem reject_txen (opc : BitVec 4) (code : RejectCode) (s : State) : (reject opc code s).txen = s.txen := rfl
@[simp] theorem reject_txie (opc : BitVec 4) (code : RejectCode) (s : State) : (reject opc code s).txie = s.txie := rfl
@[simp] theorem reject_txrdy (opc : BitVec 4) (code : RejectCode) (s : State) : (reject opc code s).txrdy = s.txrdy := rfl
@[simp] theorem reject_txip (opc : BitVec 4) (code : RejectCode) (s : State) : (reject opc code s).txip = s.txip := rfl
@[simp] theorem reject_txdata (opc : BitVec 4) (code : RejectCode) (s : State) : (reject opc code s).txdata = s.txdata := rfl
@[simp] theorem reject_wcur (opc : BitVec 4) (code : RejectCode) (s : State) : (reject opc code s).wcur = s.wcur := rfl
@[simp] theorem reject_rcur (opc : BitVec 4) (code : RejectCode) (s : State) : (reject opc code s).rcur = s.rcur := rfl
@[simp] theorem reject_ring (opc : BitVec 4) (code : RejectCode) (s : State) : (reject opc code s).ring = s.ring := rfl
@[simp] theorem reject_txpay (opc : BitVec 4) (code : RejectCode) (s : State) : (reject opc code s).txpay = s.txpay := rfl
@[simp] theorem reject_rxbuf (opc : BitVec 4) (code : RejectCode) (s : State) : (reject opc code s).rxbuf = s.rxbuf := rfl
@[simp] theorem reject_stage (opc : BitVec 4) (code : RejectCode) (s : State) : (reject opc code s).stage = s.stage := rfl
@[simp] theorem reject_busLog (opc : BitVec 4) (code : RejectCode) (s : State) : (reject opc code s).busLog = s.busLog := rfl
@[simp] theorem reject_diagLog (opc : BitVec 4) (code : RejectCode) (s : State) : (reject opc code s).diagLog = s.diagLog := rfl
@[simp] theorem reject_wire (opc : BitVec 4) (code : RejectCode) (s : State) : (reject opc code s).wire = s.wire := rfl
@[simp] theorem reject_cmd (opc : BitVec 4) (code : RejectCode) (s : State) : (reject opc code s).cmd = s.cmd := rfl
@[simp] theorem reject_resp (opc : BitVec 4) (code : RejectCode) (s : State) : (reject opc code s).resp = some ⟨responseWord opc (rejectValue code) 0, []⟩ := rfl
@[simp] theorem reject_turns (opc : BitVec 4) (code : RejectCode) (s : State) : (reject opc code s).turns = s.turns := rfl
@[simp] theorem reject_hostCmds (opc : BitVec 4) (code : RejectCode) (s : State) : (reject opc code s).hostCmds = s.hostCmds := rfl
@[simp] theorem reject_hostBytes (opc : BitVec 4) (code : RejectCode) (s : State) : (reject opc code s).hostBytes = s.hostBytes := rfl
@[simp] theorem reject_phyStatus (opc : BitVec 4) (code : RejectCode) (s : State) : (reject opc code s).phyStatus = s.phyStatus := rfl
@[simp] theorem reject_phyData (opc : BitVec 4) (code : RejectCode) (s : State) : (reject opc code s).phyData = s.phyData := rfl
@[simp] theorem reject_draws (opc : BitVec 4) (code : RejectCode) (s : State) : (reject opc code s).draws = s.draws := rfl

@[simp] theorem phyIssue_cfg (c : PhyCommand) (s : State) : (phyIssue c s).cfg = s.cfg := rfl
@[simp] theorem phyIssue_bdiv (c : PhyCommand) (s : State) : (phyIssue c s).bdiv = s.bdiv := rfl
@[simp] theorem phyIssue_bctl (c : PhyCommand) (s : State) : (phyIssue c s).bctl = patternOf s.cfg.patterns c := rfl
@[simp] theorem phyIssue_bstat (c : PhyCommand) (s : State) : (phyIssue c s).bstat = s.bstat := rfl
@[simp] theorem phyIssue_ben (c : PhyCommand) (s : State) : (phyIssue c s).ben = s.ben := rfl
@[simp] theorem phyIssue_bint (c : PhyCommand) (s : State) : (phyIssue c s).bint = false := rfl
@[simp] theorem phyIssue_ph (c : PhyCommand) (s : State) : (phyIssue c s).ph = s.ph := rfl
@[simp] theorem phyIssue_addr (c : PhyCommand) (s : State) : (phyIssue c s).addr = s.addr := rfl
@[simp] theorem phyIssue_dir (c : PhyCommand) (s : State) : (phyIssue c s).dir = s.dir := rfl
@[simp] theorem phyIssue_cnt (c : PhyCommand) (s : State) : (phyIssue c s).cnt = s.cnt := rfl
@[simp] theorem phyIssue_idx (c : PhyCommand) (s : State) : (phyIssue c s).idx = s.idx := rfl
@[simp] theorem phyIssue_bres (c : PhyCommand) (s : State) : (phyIssue c s).bres = s.bres := rfl
@[simp] theorem phyIssue_lasterr (c : PhyCommand) (s : State) : (phyIssue c s).lasterr = s.lasterr := rfl
@[simp] theorem phyIssue_sdiv (c : PhyCommand) (s : State) : (phyIssue c s).sdiv = s.sdiv := rfl
@[simp] theorem phyIssue_txen (c : PhyCommand) (s : State) : (phyIssue c s).txen = s.txen := rfl
@[simp] theorem phyIssue_txie (c : PhyCommand) (s : State) : (phyIssue c s).txie = s.txie := rfl
@[simp] theorem phyIssue_txrdy (c : PhyCommand) (s : State) : (phyIssue c s).txrdy = s.txrdy := rfl
@[simp] theorem phyIssue_txip (c : PhyCommand) (s : State) : (phyIssue c s).txip = s.txip := rfl
@[simp] theorem phyIssue_txdata (c : PhyCommand) (s : State) : (phyIssue c s).txdata = s.txdata := rfl
@[simp] theorem phyIssue_wcur (c : PhyCommand) (s : State) : (phyIssue c s).wcur = s.wcur := rfl
@[simp] theorem phyIssue_rcur (c : PhyCommand) (s : State) : (phyIssue c s).rcur = s.rcur := rfl
@[simp] theorem phyIssue_ring (c : PhyCommand) (s : State) : (phyIssue c s).ring = s.ring := rfl
@[simp] theorem phyIssue_txpay (c : PhyCommand) (s : State) : (phyIssue c s).txpay = s.txpay := rfl
@[simp] theorem phyIssue_rxbuf (c : PhyCommand) (s : State) : (phyIssue c s).rxbuf = s.rxbuf := rfl
@[simp] theorem phyIssue_stage (c : PhyCommand) (s : State) : (phyIssue c s).stage = s.stage := rfl
@[simp] theorem phyIssue_busLog (c : PhyCommand) (s : State) : (phyIssue c s).busLog = s.busLog ++ [c] := rfl
@[simp] theorem phyIssue_diagLog (c : PhyCommand) (s : State) : (phyIssue c s).diagLog = s.diagLog := rfl
@[simp] theorem phyIssue_wire (c : PhyCommand) (s : State) : (phyIssue c s).wire = s.wire := rfl
@[simp] theorem phyIssue_cmd (c : PhyCommand) (s : State) : (phyIssue c s).cmd = s.cmd := rfl
@[simp] theorem phyIssue_resp (c : PhyCommand) (s : State) : (phyIssue c s).resp = s.resp := rfl
@[simp] theorem phyIssue_turns (c : PhyCommand) (s : State) : (phyIssue c s).turns = s.turns := rfl
@[simp] theorem phyIssue_hostCmds (c : PhyCommand) (s : State) : (phyIssue c s).hostCmds = s.hostCmds := rfl
@[simp] theorem phyIssue_hostBytes (c : PhyCommand) (s : State) : (phyIssue c s).hostBytes = s.hostBytes := rfl
@[simp] theorem phyIssue_phyStatus (c : PhyCommand) (s : State) : (phyIssue c s).phyStatus = s.phyStatus := rfl
@[simp] theorem phyIssue_phyData (c : PhyCommand) (s : State) : (phyIssue c s).phyData = s.phyData := rfl
@[simp] theorem phyIssue_draws (c : PhyCommand) (s : State) : (phyIssue c s).draws = s.draws := rfl

@[simp] theorem stop_cfg (s : State) : (stop s).cfg = s.cfg := rfl
@[simp] theorem stop_bdiv (s : State) : (stop s).bdiv = s.bdiv := rfl
@[simp] theorem stop_bctl (s : State) : (stop s).bctl = s.cfg.patterns.stop := rfl
@[simp] theorem stop_bstat (s : State) : (stop s).bstat = s.bstat := rfl
@[simp] theorem stop_bdata (s : State) : (stop s).bdata = s.bdata := rfl
@[simp] theorem stop_ben (s : State) : (stop s).ben = s.ben := rfl
@[simp] theorem stop_bint (s : State) : (stop s).bint = false := rfl
@[simp] theorem stop_ph (s : State) : (stop s).ph = .stopIssued := rfl
@[simp] theorem stop_addr (s : State) : (stop s).addr = s.addr := rfl
@[simp] theorem stop_dir (s : State) : (stop s).dir = s.dir := rfl
@[simp] theorem stop_cnt (s : State) : (stop s).cnt = s.cnt := rfl
@[simp] theorem stop_idx (s : State) : (stop s).idx = s.idx := rfl
@[simp] theorem stop_bres (s : State) : (stop s).bres = s.bres := rfl
@[simp] theorem stop_lasterr (s : State) : (stop s).lasterr = s.lasterr := rfl
@[simp] theorem stop_sdiv (s : State) : (stop s).sdiv = s.sdiv := rfl
@[simp] theorem stop_txen (s : State) : (stop s).txen = s.txen := rfl
@[simp] theorem stop_txie (s : State) : (stop s).txie = s.txie := rfl
@[simp] theorem stop_txrdy (s : State) : (stop s).txrdy = s.txrdy := rfl
@[simp] theorem stop_txip (s : State) : (stop s).txip = s.txip := rfl
@[simp] theorem stop_txdata (s : State) : (stop s).txdata = s.txdata := rfl
@[simp] theorem stop_wcur (s : State) : (stop s).wcur = s.wcur := rfl
@[simp] theorem stop_rcur (s : State) : (stop s).rcur = s.rcur := rfl
@[simp] theorem stop_ring (s : State) : (stop s).ring = s.ring := rfl
@[simp] theorem stop_txpay (s : State) : (stop s).txpay = s.txpay := rfl
@[simp] theorem stop_rxbuf (s : State) : (stop s).rxbuf = s.rxbuf := rfl
@[simp] theorem stop_stage (s : State) : (stop s).stage = s.stage := rfl
@[simp] theorem stop_busLog (s : State) : (stop s).busLog = s.busLog ++ [.stop] := rfl
@[simp] theorem stop_diagLog (s : State) : (stop s).diagLog = s.diagLog := rfl
@[simp] theorem stop_wire (s : State) : (stop s).wire = s.wire := rfl
@[simp] theorem stop_cmd (s : State) : (stop s).cmd = s.cmd := rfl
@[simp] theorem stop_resp (s : State) : (stop s).resp = s.resp := rfl
@[simp] theorem stop_turns (s : State) : (stop s).turns = s.turns := rfl
@[simp] theorem stop_hostCmds (s : State) : (stop s).hostCmds = s.hostCmds := rfl
@[simp] theorem stop_hostBytes (s : State) : (stop s).hostBytes = s.hostBytes := rfl
@[simp] theorem stop_phyStatus (s : State) : (stop s).phyStatus = s.phyStatus := rfl
@[simp] theorem stop_phyData (s : State) : (stop s).phyData = s.phyData := rfl
@[simp] theorem stop_draws (s : State) : (stop s).draws = s.draws := rfl

@[simp] theorem phyIssue_bdata_start (s : State) : (phyIssue .start s).bdata = s.bdata := rfl
@[simp] theorem phyIssue_bdata_xmit (b : Byte) (s : State) : (phyIssue (.xmit b) s).bdata = b := rfl
@[simp] theorem phyIssue_bdata_recv (k : Bool) (s : State) : (phyIssue (.recv k) s).bdata = s.bdata := rfl
@[simp] theorem phyIssue_bdata_stop (s : State) : (phyIssue .stop s).bdata = s.bdata := rfl

end Sys2Proof.Machine
end

