-- ==== Sys2Proof/Laws/Ring.lean ====
section
/-! SUPPORT. The ring's arithmetic and what each shared operation of the output channel can do. -/

namespace Sys2Proof.Machine

/-- The occupancy, in the two cases of 20_memory.md R66. -/
theorem occupied_eq {s : State} (hw : s.wcur < s.cfg.cap) (hr : s.rcur < s.cfg.cap) :
    occupied s = if s.rcur ≤ s.wcur then s.wcur - s.rcur else s.wcur + s.cfg.cap - s.rcur := by
  unfold occupied
  split
  · rw [Int.emod_eq_of_lt (by omega) (by omega)]; omega
  · have h : ((s.wcur : Int) - s.rcur) % s.cfg.cap = ((s.wcur : Int) - s.rcur + s.cfg.cap) % s.cfg.cap := by simp
    rw [h, Int.emod_eq_of_lt (by omega) (by omega)]; omega

/-- Occupancy depends on the two cursors and CAP only. -/
theorem occupied_congr {s t : State} (hc : t.cfg = s.cfg) (hw : t.wcur = s.wcur) (hr : t.rcur = s.rcur) :
    occupied t = occupied s := by simp only [occupied, hc, hw, hr]

theorem advance_lt {cap c k : Nat} (h : 0 < cap) : advance cap c k < cap := Nat.mod_lt _ h

/-- Advancing within the ring, with and without the wrap. -/
theorem advance_eq {cap c k : Nat} (hc : c < cap) (hk : k ≤ cap) :
    advance cap c k = if c + k < cap then c + k else c + k - cap := by
  unfold advance
  split
  · exact Nat.mod_eq_of_lt ‹_›
  · rw [Nat.mod_eq_sub_mod (by omega), Nat.mod_eq_of_lt (by omega)]

theorem advance_advance (cap c j k : Nat) : advance cap (advance cap c j) k = advance cap c (j + k) := by
  simp only [advance, Nat.mod_add_mod, Nat.add_assoc]

theorem RingOk.capPos {s : State} (h : RingOk s) : 0 < s.cfg.cap := by have := h.capTwo; omega

/-- `0 <= occupied <= CAP - 1`. -/
theorem RingOk.occupied_lt {s : State} (h : RingOk s) : occupied s < s.cfg.cap := by
  have h1 := h.wcurLt; have h2 := h.rcurLt
  rw [occupied_eq h1 h2]; split <;> omega

/-- The write-cursor is the read-cursor advanced by the occupancy. -/
theorem RingOk.wcur_eq {s : State} (h : RingOk s) : s.wcur = advance s.cfg.cap s.rcur (occupied s) := by
  have h1 := h.wcurLt; have h2 := h.rcurLt; have h3 := h.occupied_lt
  rw [advance_eq h2 (by omega), occupied_eq h1 h2]
  split <;> split <;> omega

/-- The ring is empty exactly when the cursors are equal (10_state.md R49). -/
theorem RingOk.occupied_eq_zero {s : State} (h : RingOk s) : occupied s = 0 ↔ s.rcur = s.wcur := by
  have h1 := h.wcurLt; have h2 := h.rcurLt
  rw [occupied_eq h1 h2]; split <;> omega

/-- RingOk depends on CAP, the cursors and RING only. -/
theorem RingOk.congr {s t : State} (hc : t.cfg = s.cfg) (hw : t.wcur = s.wcur) (hr : t.rcur = s.rcur)
    (hg : t.ring = s.ring) (h : RingOk s) : RingOk t := by
  obtain ⟨h1, h2, h3, h4⟩ := h
  refine ⟨by rw [hc]; exact h1, by rw [hc, hw]; exact h2, by rw [hc, hr]; exact h3, ?_⟩
  rw [occupied_congr hc hw hr, hc, hr, hg]; exact h4

/-- A read that succeeds read a listed byte. -/
theorem memRead_ok {sp : Space} {a : Nat} {s : State} {b : Byte} (h : memRead sp a s = .ok b) :
    a < spaceSize s sp ∧ (s.mem sp).read a = some b := by
  unfold memRead at h
  split at h
  · refine ⟨‹_›, ?_⟩
    split at h
    · next b' hb => cases h; exact hb
    · cases h
  · cases h

/-- A listed byte at an address that exists is read. -/
theorem memRead_eq {sp : Space} {a : Nat} {s : State} {b : Byte} (ha : a < spaceSize s sp)
    (hb : (s.mem sp).read a = some b) : memRead sp a s = .ok b := by
  simp [memRead, ha, hb]

/-- `ringToTx` takes the oldest byte: all it can do. -/
theorem ringToTx_eq {s : State} {b : Byte} (hr : s.rcur < s.cfg.cap) (hb : s.ring.read s.rcur = some b) :
    ringToTx s = .ok { s with rcur := advance s.cfg.cap s.rcur 1, txdata := b, txrdy := false } := by
  rw [ringToTx, memRead_eq (sp := .ring) hr hb]; rfl

theorem ringToTx_cases {s s' : State} (h : ringToTx s = .ok s') :
    ∃ b, s.rcur < s.cfg.cap ∧ s.ring.read s.rcur = some b ∧
      s' = { s with rcur := advance s.cfg.cap s.rcur 1, txdata := b, txrdy := false } := by
  unfold ringToTx at h
  split at h
  · cases h
  · next b hb =>
    cases h
    obtain ⟨h1, h2⟩ := memRead_ok hb
    exact ⟨b, h1, h2, rfl⟩

/-- The oldest byte of a ring that holds bytes. -/
theorem RingOk.oldest {s : State} (h : RingOk s) (hn : 0 < occupied s) :
    ∃ b, s.ring.read s.rcur = some b := by
  have := h.written 0 hn
  rw [advance_eq h.rcurLt (by omega)] at this
  simp only [Nat.add_zero, h.rcurLt, if_true] at this
  exact Option.isSome_iff_exists.1 this

/-- Taking the oldest byte leaves the rest of the ring. -/
theorem RingOk.pop {s : State} (h : RingOk s) (hn : 0 < occupied s) :
    RingOk { s with rcur := advance s.cfg.cap s.rcur 1 } ∧
      occupied { s with rcur := advance s.cfg.cap s.rcur 1 } = occupied s - 1 := by
  have hw := h.wcurLt; have hr := h.rcurLt; have hl := h.occupied_lt
  have hr' : advance s.cfg.cap s.rcur 1 < s.cfg.cap := advance_lt h.capPos
  have ho : occupied { s with rcur := advance s.cfg.cap s.rcur 1 } = occupied s - 1 := by
    have h1 := occupied_eq hw hr
    rw [occupied_eq (s := { s with rcur := advance s.cfg.cap s.rcur 1 }) hw hr']
    simp only [advance_eq hr (show 1 ≤ s.cfg.cap by have := h.capTwo; omega)] at hr' ⊢
    split at h1 <;> split <;> split <;> omega
  refine ⟨⟨h.capTwo, hw, hr', fun k hk => ?_⟩, ho⟩
  rw [ho] at hk
  show (s.ring.read (advance s.cfg.cap (advance s.cfg.cap s.rcur 1) k)).isSome = true
  rw [advance_advance]
  exact h.written _ (by omega)

/-- The state an enqueue commit reaches before Prime, when it appends `n` bytes. -/
def appended (t : List Byte) (n : Nat) (s : State) : State :=
  { s with ring := ringStore s.cfg.cap s.wcur 0 (t.take n) s.ring, wcur := advance s.cfg.cap s.wcur n }

theorem enqueue_def (t : List Byte) (s : State) :
    enqueue t s =
      if min t.length (freeSpace s) = 0 then .ok s else prime (appended t (min t.length (freeSpace s)) s) := rfl

/-- Appending what fits keeps the ring's well-formedness and adds to the occupancy. -/
theorem RingOk.append {s : State} (h : RingOk s) (t : List Byte) {n : Nat} (hn : n ≤ freeSpace s)
    (hl : n ≤ t.length) : RingOk (appended t n s) ∧ occupied (appended t n s) = occupied s + n := by
  have hw := h.wcurLt; have hr := h.rcurLt; have hlt := h.occupied_lt
  have hf : n ≤ s.cfg.cap - 1 - occupied s := hn
  have hw' : advance s.cfg.cap s.wcur n < s.cfg.cap := advance_lt h.capPos
  have ho : occupied (appended t n s) = occupied s + n := by
    have h1 := occupied_eq hw hr
    rw [occupied_eq (s := appended t n s) hw' hr]
    simp only [appended, advance_eq hw (show n ≤ s.cfg.cap by omega)] at hw' ⊢
    split at h1 <;> split <;> split <;> omega
  refine ⟨⟨h.capTwo, hw', hr, fun k hk => ?_⟩, ho⟩
  rw [ho] at hk
  show ((ringStore s.cfg.cap s.wcur 0 (t.take n) s.ring).read (advance s.cfg.cap s.rcur k)).isSome = true
  have hlen : (t.take n).length = n := by simp [hl]
  by_cases hko : k < occupied s
  · rw [read_ringStore_other]
    · exact h.written k hko
    · intro j hj
      rw [hlen] at hj
      rw [h.wcur_eq, advance_advance]
      exact advance_ne (by omega) (by omega)
  · have he : advance s.cfg.cap s.rcur k = advance s.cfg.cap s.wcur (0 + (k - occupied s)) := by
      rw [h.wcur_eq, advance_advance]; congr 1; omega
    rw [he, read_ringStore _ _ _ _ _ _ (by omega) (by omega)]
    have : k - occupied s < (t.take n).length := by omega
    simp only [List.getElem?_eq_getElem this, Option.isSome_some]

/-- An enqueue commit never stops on a ring that is well formed, and all it can do. -/
theorem enqueue_cases {s : State} (h : RingOk s) (t : List Byte) :
    (min t.length (freeSpace s) = 0 ∧ enqueue t s = .ok s) ∨
    (0 < min t.length (freeSpace s) ∧ primeCondition s = false ∧
      enqueue t s = .ok (appended t (min t.length (freeSpace s)) s)) ∨
    (0 < min t.length (freeSpace s) ∧ primeCondition s = true ∧
      ∃ b, (appended t (min t.length (freeSpace s)) s).ring.read s.rcur = some b ∧
        enqueue t s =
          .ok { appended t (min t.length (freeSpace s)) s with
                rcur := advance s.cfg.cap s.rcur 1, txdata := b, txrdy := false }) := by
  rw [enqueue_def]
  by_cases h0 : min t.length (freeSpace s) = 0
  · exact .inl ⟨h0, by simp [h0]⟩
  · right
    have hn : 0 < min t.length (freeSpace s) := Nat.pos_of_ne_zero h0
    simp only [h0, if_false]
    have ha := h.append t (Nat.min_le_right t.length _) (Nat.min_le_left _ (freeSpace s))
    generalize min t.length (freeSpace s) = n at *
    have hp : primeCondition (appended t n s) = primeCondition s := rfl
    by_cases hc : primeCondition s = true
    · right
      obtain ⟨b, hb⟩ := ha.1.oldest (by omega)
      refine ⟨hn, hc, b, hb, ?_⟩
      rw [prime, hp, hc, if_pos rfl, ringToTx_eq ha.1.rcurLt hb]
      rfl
    · left
      exact ⟨hn, by simpa using hc, by rw [prime, hp]; simp [hc]⟩

/-- An enqueue commit touches RING, the cursors, TXDATA and TXRDY only. -/
theorem enqueue_frame {t : List Byte} {s s' : State} (h : enqueue t s = .ok s') :
    s' = { s with ring := s'.ring, wcur := s'.wcur, rcur := s'.rcur, txdata := s'.txdata, txrdy := s'.txrdy } := by
  rw [enqueue_def] at h
  split at h
  · cases h; rfl
  · unfold prime at h
    split at h
    · obtain ⟨b, -, -, rfl⟩ := ringToTx_cases h; rfl
    · cases h; rfl

/-- Enqueue neither reads nor writes what EmitDiag and Fail write beside it: their changes pass through. -/
theorem enqueue_passes (t : List Byte) (s : State) (l : List DiagEvent) (g : Memory) (c : StatusClass) (e : Byte) :
    enqueue t { s with diagLog := l, stage := g, bres := c, lasterr := e } =
      (enqueue t s).map (fun v => { v with diagLog := l, stage := g, bres := c, lasterr := e }) := by
  rw [enqueue_def, enqueue_def]
  have hf : freeSpace { s with diagLog := l, stage := g, bres := c, lasterr := e } = freeSpace s := rfl
  rw [hf]
  split
  · rfl
  · generalize min t.length (freeSpace s) = n
    unfold prime
    have hp : primeCondition (appended t n { s with diagLog := l, stage := g, bres := c, lasterr := e }) =
        primeCondition (appended t n s) := rfl
    rw [hp]
    split
    · have hm : memRead .ring (appended t n { s with diagLog := l, stage := g, bres := c, lasterr := e }).rcur
          (appended t n { s with diagLog := l, stage := g, bres := c, lasterr := e }) =
          memRead .ring (appended t n s).rcur (appended t n s) := rfl
      unfold ringToTx
      rw [hm]
      cases memRead .ring (appended t n s).rcur (appended t n s) <;> rfl
    · rfl

/-- Enqueue reads CAP, RING, the cursors, TXRDY and TXIP only: two states that agree on these change alike. -/
theorem enqueue_transfers (t : List Byte) (s w : State) (hc : w.cfg = s.cfg) (hg : w.ring = s.ring)
    (hw : w.wcur = s.wcur) (hr : w.rcur = s.rcur) (hd : w.txdata = s.txdata) (hy : w.txrdy = s.txrdy)
    (hp : w.txip = s.txip) :
    enqueue t w =
      (enqueue t s).map (fun v =>
        { w with ring := v.ring, wcur := v.wcur, rcur := v.rcur, txdata := v.txdata, txrdy := v.txrdy }) := by
  have hf : freeSpace w = freeSpace s := by simp only [freeSpace, occupied, hc, hw, hr]
  rw [enqueue_def, enqueue_def, hf]
  split
  · simp only [Except.map, ← hg, ← hw, ← hr, ← hd, ← hy]
  · generalize min t.length (freeSpace s) = n
    have hpc : primeCondition (appended t n w) = primeCondition (appended t n s) := by
      simp only [primeCondition, appended, hy, hp]
    have hm : memRead .ring (appended t n w).rcur (appended t n w) =
        memRead .ring (appended t n s).rcur (appended t n s) := by
      simp only [memRead, spaceSize, State.mem, appended, hc, hg, hw, hr]; rfl
    rw [prime, prime, hpc]
    split
    · rw [ringToTx, ringToTx, hm]
      cases memRead .ring (appended t n s).rcur (appended t n s) with
      | error f => rfl
      | ok b => simp only [Except.map, txWrite, appended, hc, hg, hw, hr]
    · simp only [Except.map, appended, hc, hg, hw, ← hr, ← hd, ← hy]

/-- An enqueue commit keeps what the ring needs, the canonical form, and the ring's size. -/
theorem enqueue_keeps {s v : State} {t : List Byte} (h : RingOk s) (hb : RingBusy s) (hw : s.ring.wf = true)
    (hs : ∀ c ∈ s.ring, c.1 < s.cfg.cap) (he : enqueue t s = .ok v) :
    RingOk v ∧ RingBusy v ∧ v.ring.wf = true ∧ (∀ c ∈ v.ring, c.1 < s.cfg.cap) := by
  rcases enqueue_cases h t with ⟨-, h1⟩ | ⟨hn, hp, h1⟩ | ⟨hn, hp, b, hr, h1⟩ <;> rw [h1] at he <;> cases he
  · exact ⟨h, hb, hw, hs⟩
  · have ha := h.append t (Nat.min_le_right t.length _) (Nat.min_le_left _ (freeSpace s))
    refine ⟨ha.1, fun _ => ?_, wf_ringStore _ _ _ _ _ hw, ringStore_size _ _ _ _ _ h.capPos hs⟩
    simp only [primeCondition, Bool.and_eq_false_iff] at hp
    simpa [appended] using hp
  · have ha := h.append t (Nat.min_le_right t.length _) (Nat.min_le_left _ (freeSpace s))
    have hp' := ha.1.pop (by omega)
    exact ⟨by apply hp'.1.congr <;> rfl, fun _ => .inl rfl, wf_ringStore _ _ _ _ _ hw,
      ringStore_size _ _ _ _ _ h.capPos hs⟩

end Sys2Proof.Machine
end

