-- ==== Sys2Proof/Laws/Diagnostics.lean ====
section
/-! SUPPORT. EmitDiag, Fail and the failing end of a transaction, each as one enqueue commit and a record update. -/

namespace Sys2Proof.Machine

/-- The text of an event as it reaches the enqueue commit: cut at STAGE_MAX (42_status_decoder.md R146, R148). -/
def diagText (s : State) (e : DiagEvent) : List Byte := (render s.cfg e).take s.cfg.stageMax

theorem emitDiag_eq (e : DiagEvent) (s : State) :
    emitDiag e s =
      (enqueue (diagText s e) s).map (fun v => { v with diagLog := s.diagLog ++ [e], stage := [] }) := by
  have h1 : emitDiag e s = enqueue (Memory.ofBytes (diagText s e)).bytes
      { s with diagLog := s.diagLog ++ [e], stage := [], bres := s.bres, lasterr := s.lasterr } := rfl
  rw [h1, Memory.bytes_ofBytes, enqueue_passes]
  cases h : enqueue (diagText s e) s with
  | error f => rfl
  | ok v => rw [enqueue_frame h]; rfl

theorem fail_eq (c : StatusClass) (s : State) :
    fail c s =
      (enqueue (diagText s (.errLine c s.bstat s.addr)) s).map (fun v =>
        { v with
          diagLog := s.diagLog ++ [.errLine c s.bstat s.addr], stage := [], bres := c, lasterr := s.bstat }) := by
  have h1 : fail c s = enqueue (Memory.ofBytes (diagText s (.errLine c s.bstat s.addr))).bytes
      { s with
        diagLog := s.diagLog ++ [.errLine c s.bstat s.addr], stage := [], bres := c, lasterr := s.bstat } := rfl
  rw [h1, Memory.bytes_ofBytes, enqueue_passes]

theorem failAndStop_eq (c : StatusClass) (s : State) :
    failAndStop c s =
      (enqueue (diagText s (.errLine c s.bstat s.addr)) s).map (fun v =>
        stop { v with
          diagLog := s.diagLog ++ [.errLine c s.bstat s.addr], stage := [], bres := c, lasterr := s.bstat }) := by
  rw [failAndStop, fail_eq]
  cases enqueue (diagText s (.errLine c s.bstat s.addr)) s <;> rfl

/-- The commit of a SENQ: one enqueue commit of the staged text, STAGE emptied, the response. -/
theorem senqCommit_eq (s : State) :
    senqCommit s =
      (enqueue s.stage.bytes s).map (fun v => respond 0xb 0 [] { v with stage := [] }) := by
  have h1 : commitStage s = enqueue s.stage.bytes
      { s with diagLog := s.diagLog, stage := [], bres := s.bres, lasterr := s.lasterr } := rfl
  rw [senqCommit, h1, enqueue_passes]
  cases h : enqueue s.stage.bytes s with
  | error f => rfl
  | ok v => rw [enqueue_frame h]; rfl

end Sys2Proof.Machine
end

