-- ==== Sys2Proof/Laws/Effect.lean ====
section
/-! SUPPORT. Everything a step can do, said once: `Effect t u v` lists the changes a turn `t` can make to the state `u`
that the turn is taken from, and `step_effect` says that every step makes one of them. -/

namespace Sys2Proof.Machine

/-- The state with a header and its payload taken from the port. -/
def taken (hs : List Word) (rest : List Byte) (s : State) : State := { s with hostCmds := hs, hostBytes := rest }

/-- When HOST may present a command. -/
theorem portFree_iff {s : State} : portFree s = true ↔ s.cmd = none ∧ s.resp = none ∧ s.ph = .idle := by
  simp [portFree, and_assoc]

/-- When an agent finds a command at the port. -/
theorem atPort_iff {a : Agent} {s : State} {i : Instr} :
    atPort a s = some i ↔
      s.cmd = some (.presented i) ∧ commandUnit i = some a ∧ failedCheck i s = none ∧ s.resp = none ∧ s.ph = .idle := by
  unfold atPort
  cases s.cmd with
  | none => simp
  | some c =>
    cases c with
    | presented j =>
      simp only [Option.ite_none_right_eq_some, Option.some.injEq, Outstanding.presented.injEq]
      constructor
      · rintro ⟨h, rfl⟩; exact ⟨rfl, h⟩
      · rintro ⟨rfl, h⟩; exact ⟨h, rfl⟩
    | _ => simp

/-- A SSENDB at a position of its text: accepted and at that position, or at the port and about to be accepted at
position 0. -/
def Sending (s : State) (text : List Byte) (pos : Nat) : Prop :=
  s.cmd = some (.ssendb text pos) ∨ atPort .prod s = some (.ssendb text) ∧ pos = 0

/-- Everything a turn can do to the state it is taken from, and whose turn it is. -/
inductive Effect (t : Turn) (u : State) : State → Prop
  | nothing : Effect t u u
  | takeResponse (ht : t = .agent .host) (r : Response) (h : u.resp = some r) : Effect t u { u with resp := none }
  | present (ht : t = .agent .host) (hs rest i) (hp : portFree u = true) (hu : commandUnit i ≠ none)
      (hk : failedCheck i u = none) : Effect t u { taken hs rest u with cmd := some (.presented i) }
  | rejected (ht : t = .agent .host) (hs rest opc code) (hp : portFree u = true) :
      Effect t u (reject opc code (taken hs rest u))
  | binit (ht : t = .agent .seq) (x d) (hc : atPort .seq u = some (.binit x)) :
      Effect t u (respond 0x1 0 [] { u with bdiv := d, ben := true })
  | sinit (ht : t = .agent .prod) (x d) (hc : atPort .prod u = some (.sinit x)) :
      Effect t u (respond 0x9 0 [] { u with sdiv := d, txen := true, txie := true })
  | stage (ht : t = .agent .prod) (text) (hc : atPort .prod u = some (.senq text)) :
      Effect t u { stageText text u with cmd := some .senq }
  | startWrite (ht : t = .agent .seq) (a b) (hi : u.ph = .idle)
      (hc : u.cmd = some (.bsend a b) ∨ atPort .seq u = some (.bsend a b) ∧ u.ben = true) :
      Effect t u (startTransaction a .write (BitVec.ofNat 16 b.length) { u with txpay := Memory.ofBytes b })
  | startRead (ht : t = .agent .seq) (a n) (hi : u.ph = .idle)
      (hc : u.cmd = some (.brecv a n) ∨ atPort .seq u = some (.brecv a n) ∧ u.ben = true) :
      Effect t u (startTransaction a .read n u)
  | address (ht : t = .agent .seq) (hi : u.ph = .startIssued) (hb : u.bint = true)
      (hk : classify u.cfg.status u.bstat = .ok) :
      Effect t u { phyIssue (.xmit (addressByte u.addr u.dir)) u with ph := .addrSent }
  | failed (ht : t = .agent .seq) (c v) (hi : u.ph.waits = true) (hb : u.bint = true)
      (hk : classify u.cfg.status u.bstat = c)
      (hn : c ≠ .ok) (h : failAndStop c u = .ok v) : Effect t u v
  | emptyStop (ht : t = .agent .seq) (hi : u.ph = .addrSent) (hb : u.bint = true)
      (hk : classify u.cfg.status u.bstat = .ok)
      (hc : u.cnt = 0) : Effect t u (stop u)
  | firstData (ht : t = .agent .seq) (v) (hi : u.ph = .addrSent) (hb : u.bint = true)
      (hk : classify u.cfg.status u.bstat = .ok)
      (hc : u.cnt ≠ 0) (h : issueData u = .ok v) : Effect t u v
  | written (ht : t = .agent .seq) (v) (hi : u.ph = .dataXfer) (hb : u.bint = true) (hd : u.dir = .write)
      (hk : classify u.cfg.status u.bstat = .ok) (h : nextData u = .ok v) : Effect t u v
  | received (ht : t = .agent .seq) (w v) (hi : u.ph = .dataXfer) (hb : u.bint = true) (hd : u.dir = .read)
      (hk : classify u.cfg.status u.bstat = .ok) (hw : storeReceived u = .ok w) (h : nextData w = .ok v) :
      Effect t u v
  | doneWrite (ht : t = .agent .seq) (hi : u.ph = .stopIssued) (hd : u.dir = .write) :
      Effect t u { respond 0x2 0 [] u with ph := .idle }
  | doneRead (ht : t = .agent .seq) (v) (hi : u.ph = .stopIssued) (hd : u.dir = .read) (h : finishReceive u = .ok v) :
      Effect t u v
  | sendByte (ht : t = .agent .prod) (text pos b) (hc : Sending u text pos)
      (hb : text[pos]? = some b) (hr : u.txrdy = true) :
      Effect t u { txWrite b u with cmd := some (.ssendb text (pos + 1)) }
  | sendWait (ht : t = .agent .prod) (text b) (hc : atPort .prod u = some (.ssendb text))
      (hb : text[0]? = some b) (hr : u.txrdy = false) :
      Effect t u { u with cmd := some (.ssendb text 0) }
  | sendEnd (ht : t = .agent .prod) (text pos) (hc : Sending u text pos) (hb : text[pos]? = none) :
      Effect t u (respond 0xa (BitVec.ofNat 16 text.length) [] u)
  | commit (ht : t = .agent .prod) (v) (hc : u.cmd = some .senq) (h : senqCommit u = .ok v) : Effect t u v
  | drain (ht : t = .agent .drain) (v) (hq : irqRequest u = true) (hn : u.rcur ≠ u.wcur) (hr : u.txrdy = true)
      (h : ringToTx { u with txip := false } = .ok v) : Effect t u v
  | drainNothing (ht : t = .agent .drain) (hq : irqRequest u = true) (hn : u.rcur = u.wcur ∨ u.txrdy = false) :
      Effect t u { u with txip := false }
  | uart (ht : t = .agent .uart) (hr : u.txrdy = false) (he : u.txen = true) :
      Effect t u { u with wire := u.wire ++ [u.txdata], txrdy := true, txip := true }
  | phy (ht : t = .agent .phy) (v b d ss ds n) (hi : u.ph.waits = true) (hb : u.bint = false)
      (hv : v = { u with bstat := b, bdata := d, bint := true, phyStatus := ss, phyData := ds, draws := n }) :
      Effect t u v
  | bctl (c) (ht : t.isAgent = false) : Effect t u (phyIssue c u)

theorem outcomeOf_next {r : Except Fault State} {v : State} (h : outcomeOf r = .next v) : r = .ok v := by
  cases r <;> simp_all [outcomeOf]

/-- PHY.COMPLETE writes BSTAT, BDATA, BINT and takes its answers. -/
theorem phyComplete_effect {u v : State} (h : execPhyComplete u = .next v) : Effect (.agent .phy) u v := by
  unfold execPhyComplete at h
  split at h
  · next he =>
    simp only [phyCompleteEnabled, Bool.and_eq_true, Bool.not_eq_true'] at he
    refine .phy rfl v v.bstat v.bdata v.phyStatus v.phyData v.draws he.1 he.2 ?_
    unfold drawStatus drawData at h
    cases hp : u.phyStatus <;> cases hd : u.phyData <;> simp only [hp, hd] at h <;> split at h <;> cases h <;>
      simp_all
  · cases h

/-- A next state of a sequencer operation is one of the effects of SEQ's step. -/
theorem seq_effect {u v : State} (i : Instr)
    (hi : i = .phStart ∨ i = .phAddr ∨ i = .phDataFirst ∨ i = .phDataW ∨ i = .phDataR ∨ i = .phDone)
    (h : exec i u = .next v) : Effect (.agent .seq) u v := by
  have fails : ∀ c, u.ph.waits = true → u.bint = true → classify u.cfg.status u.bstat = c → c ≠ .ok →
      outcomeOf (failAndStop c u) = .next v → Effect (.agent .seq) u v :=
    fun c h1 h2 h3 h4 h5 => .failed rfl c v h1 h2 h3 h4 (outcomeOf_next h5)
  rcases hi with rfl | rfl | rfl | rfl | rfl | rfl
  · simp only [exec, execPhStart] at h
    split at h
    · next hi =>
      split at h <;> cases h
      · exact .startWrite rfl _ _ hi (.inl ‹_›)
      · exact .startRead rfl _ _ hi (.inl ‹_›)
    · cases h
  · simp only [exec, execPhAddr] at h
    split at h
    · next he =>
      have hw : u.ph.waits = true := by rw [he.1]; rfl
      cases hk : classify u.cfg.status u.bstat <;> simp only [hk] at h
      · cases h; exact .address rfl he.1 he.2 hk
      all_goals exact fails _ hw he.2 hk (by decide) h
    · cases h
  · simp only [exec, execPhDataFirst] at h
    split at h
    · next he =>
      have hw : u.ph.waits = true := by rw [he.1]; rfl
      cases hk : classify u.cfg.status u.bstat <;> simp only [hk] at h
      · split at h
        · cases h; exact .emptyStop rfl he.1 he.2 hk ‹_›
        · exact .firstData rfl v he.1 he.2 hk ‹_› (outcomeOf_next h)
      all_goals exact fails _ hw he.2 hk (by decide) h
    · cases h
  · simp only [exec, execPhDataW] at h
    split at h
    · next he =>
      have hw : u.ph.waits = true := by rw [he.1]; rfl
      cases hk : classify u.cfg.status u.bstat <;> simp only [hk] at h
      · exact .written rfl v he.1 he.2.1 he.2.2 hk (outcomeOf_next h)
      all_goals exact fails _ hw he.2.1 hk (by decide) h
    · cases h
  · simp only [exec, execPhDataR] at h
    split at h
    · next he =>
      have hw : u.ph.waits = true := by rw [he.1]; rfl
      cases hk : classify u.cfg.status u.bstat <;> simp only [hk] at h
      · split at h
        · cases h
        · next w hw' => exact .received rfl w v he.1 he.2.1 he.2.2 hk hw' (outcomeOf_next h)
      all_goals exact fails _ hw he.2.1 hk (by decide) h
    · cases h
  · simp only [exec, execPhDone] at h
    split at h
    · next he =>
      cases hd : u.dir <;> simp only [hd] at h
      · cases h; exact .doneWrite rfl he hd
      · exact .doneRead rfl v he hd (outcomeOf_next h)
    · cases h

/-- The instruction a header decodes to is one of the six commands. -/
theorem decodeHeader_ok {h : Word} {p r : List Byte} {i : Instr} {rest : List Byte}
    (hd : decodeHeader h p r = .ok i rest) :
    (∃ x, i = .binit x) ∨ (∃ a, i = .bsend a p) ∨ (∃ a n, i = .brecv a n) ∨ (∃ x, i = .sinit x) ∨
      i = .ssendb p ∨ i = .senq p := by
  unfold decodeHeader at hd
  repeat' split at hd
  all_goals first
    | (simp only [Decoded.ok.injEq] at hd; obtain ⟨rfl, -⟩ := hd; simp)
    | cases hd

/-- A decoded command is a unit's. -/
theorem commandUnit_decoded {h : Word} {bytes rest : List Byte} {i : Instr} (hd : decodeCommand h bytes = .ok i rest) :
    commandUnit i ≠ none := by
  unfold decodeCommand at hd
  split at hd
  · cases hd
  · rcases decodeHeader_ok hd with ⟨x, rfl⟩ | ⟨a, rfl⟩ | ⟨a, n, rfl⟩ | ⟨x, rfl⟩ | rfl | rfl <;> simp [commandUnit]

/-- HOST presents a command that passes its checks. -/
theorem hostTurn_present {s : State} {h : Word} {hs : List Word} {i : Instr} {rest : List Byte}
    (hp : portFree s = true) (hc : s.hostCmds = h :: hs) (hd : decodeCommand h s.hostBytes = .ok i rest)
    (hk : failedCheck i s = none) :
    hostTurn s = .next { taken hs rest s with cmd := some (.presented i) } := by
  simp [hostTurn, (portFree_iff.1 hp).2.1, hp, hc, hd, hk, taken]

/-- The port rejects a command that fails a check. -/
theorem hostTurn_rejectCheck {s : State} {h : Word} {hs : List Word} {i : Instr} {code : RejectCode} {rest : List Byte}
    (hp : portFree s = true) (hc : s.hostCmds = h :: hs) (hd : decodeCommand h s.hostBytes = .ok i rest)
    (hk : failedCheck i s = some code) :
    hostTurn s = .next (reject (headerOpc h) code (taken hs rest s)) := by
  simp [hostTurn, (portFree_iff.1 hp).2.1, hp, hc, hd, hk, taken]

/-- The port rejects an illegal header. -/
theorem hostTurn_rejectFormat {s : State} {h : Word} {hs : List Word} {code : RejectCode} {rest : List Byte}
    (hp : portFree s = true) (hc : s.hostCmds = h :: hs) (hd : decodeCommand h s.hostBytes = .reject code rest) :
    hostTurn s = .next (reject (headerOpc h) code (taken hs rest s)) := by
  simp [hostTurn, (portFree_iff.1 hp).2.1, hp, hc, hd, taken]

/-- HOST's step. -/
theorem host_effect {u v : State} (h : hostTurn u = .next v) : Effect (.agent .host) u v := by
  unfold hostTurn at h
  split at h
  · next hr =>
    cases h
    obtain ⟨r, hr⟩ := Option.isSome_iff_exists.1 hr
    exact .takeResponse rfl r hr
  · split at h
    · next hp =>
      split at h
      · cases h; exact .nothing
      · next w ws _ =>
        split at h
        · next i rest hd =>
          split at h <;> cases h
          · exact .rejected rfl ws rest _ _ hp
          · exact .present rfl ws rest i hp (commandUnit_decoded hd) ‹_›
        · cases h; exact .rejected rfl ws _ _ _ hp
        · cases h; exact .nothing
        · cases h; exact .nothing
    · cases h; exact .nothing

/-- When a bus command passes its check. -/
theorem failedCheck_bsend {s : State} {a : Address} {b : List Byte} :
    failedCheck (.bsend a b) s = none ↔ s.ben = true := by simp [failedCheck]
theorem failedCheck_brecv {s : State} {a : Address} {n : BitVec 16} :
    failedCheck (.brecv a n) s = none ↔ s.ben = true := by simp [failedCheck]
theorem failedCheck_ssendb {s : State} {text : List Byte} :
    failedCheck (.ssendb text) s = none ↔ s.txen = true := by simp [failedCheck]
theorem failedCheck_binit {s : State} {x : BitVec 24} :
    failedCheck (.binit x) s = none ↔ ∃ d, busDivisor s.cfg.fclk x = some d := by
  simp [failedCheck, Option.isSome_iff_exists]
theorem failedCheck_sinit {s : State} {x : BitVec 24} :
    failedCheck (.sinit x) s = none ↔ ∃ d, lineDivisor s.cfg.fclk x = some d := by
  simp [failedCheck, Option.isSome_iff_exists]

/-- The port's reject of a decoded command is the one that the command's own meaning gives. -/
theorem exec_failedCheck {h : Word} {bytes rest : List Byte} {i : Instr} {code : RejectCode} {s : State}
    (hd : decodeCommand h bytes = .ok i rest) (hp : portFree s = true) (hk : failedCheck i s = some code) :
    exec i s = .next (reject (headerOpc h) code s) := by
  unfold decodeCommand decodeHeader at hd
  repeat' split at hd
  all_goals first
    | cases hd; done
    | (simp only [Decoded.ok.injEq] at hd; obtain ⟨rfl, -⟩ := hd)
  · cases hv : busDivisor s.cfg.fclk (headerArg h) <;> simp_all [failedCheck, exec, execBinit]
  · cases he : s.ben <;> simp_all [failedCheck, exec, execBsend, acceptBus]
  · cases he : s.ben <;> simp_all [failedCheck, exec, execBrecv, acceptBus]
  · cases hv : lineDivisor s.cfg.fclk (headerArg h) <;> simp_all [failedCheck, exec, execSinit]
  · cases he : s.txen <;> simp_all [failedCheck, exec, execSsendb]
  · cases hk

/-- The port is free for the meaning of a command that is taken from it. -/
theorem portFree_taken {a : Agent} {i : Instr} {s : State} (hc : atPort a s = some i) :
    portFree { s with cmd := none } = true := by
  obtain ⟨-, -, -, hr, hi⟩ := atPort_iff.1 hc
  simp [portFree, hr, hi]

/-- BINIT taken from the port: its effect and its response. -/
theorem takeCommand_binit {s : State} {x : BitVec 24} (hc : atPort .seq s = some (.binit x)) :
    ∃ d, busDivisor s.cfg.fclk x = some d ∧
      takeCommand (.binit x) s = .next (respond 0x1 0 [] { s with bdiv := d, ben := true }) := by
  obtain ⟨d, hd⟩ := failedCheck_binit.1 (atPort_iff.1 hc).2.2.1
  refine ⟨d, hd, ?_⟩
  simp only [takeCommand, exec, execBinit, portFree_taken hc, if_true, hd]
  rfl

/-- BSEND taken from the port: PH.START. -/
theorem takeCommand_bsend {s : State} {a : Address} {b : List Byte} (hc : atPort .seq s = some (.bsend a b)) :
    takeCommand (.bsend a b) s =
      .next (startTransaction a .write (BitVec.ofNat 16 b.length) { s with txpay := Memory.ofBytes b }) := by
  obtain ⟨-, -, hk, -, hi⟩ := atPort_iff.1 hc
  simp only [takeCommand, exec, execBsend, acceptBus, portFree_taken hc, if_true]
  rw [if_pos (failedCheck_bsend.1 hk)]
  exact if_pos hi

/-- BRECV taken from the port: PH.START. -/
theorem takeCommand_brecv {s : State} {a : Address} {n : BitVec 16} (hc : atPort .seq s = some (.brecv a n)) :
    takeCommand (.brecv a n) s = .next (startTransaction a .read n s) := by
  obtain ⟨-, -, hk, -, hi⟩ := atPort_iff.1 hc
  simp only [takeCommand, exec, execBrecv, acceptBus, portFree_taken hc, if_true]
  rw [if_pos (failedCheck_brecv.1 hk)]
  exact if_pos hi

/-- SINIT taken from the port: its effect and its response. -/
theorem takeCommand_sinit {s : State} {x : BitVec 24} (hc : atPort .prod s = some (.sinit x)) :
    ∃ d, lineDivisor s.cfg.fclk x = some d ∧
      takeCommand (.sinit x) s = .next (respond 0x9 0 [] { s with sdiv := d, txen := true, txie := true }) := by
  obtain ⟨d, hd⟩ := failedCheck_sinit.1 (atPort_iff.1 hc).2.2.1
  refine ⟨d, hd, ?_⟩
  simp only [takeCommand, exec, execSinit, portFree_taken hc, if_true, hd]
  rfl

/-- SSENDB taken from the port: the step at position 0 of its text. -/
theorem takeCommand_ssendb {s : State} {text : List Byte} (hc : atPort .prod s = some (.ssendb text)) :
    takeCommand (.ssendb text) s = .next (ssendbStep text 0 { s with cmd := some (.ssendb text 0) }) := by
  have hk := (atPort_iff.1 hc).2.2.1
  simp only [takeCommand, exec, execSsendb, portFree_taken hc, if_true]
  rw [if_pos (failedCheck_ssendb.1 hk)]
  rfl

/-- SENQ taken from the port: the stage. -/
theorem takeCommand_senq {s : State} {text : List Byte} (hc : atPort .prod s = some (.senq text)) :
    takeCommand (.senq text) s = .next { stageText text s with cmd := some .senq } := by
  simp only [takeCommand, exec, execSenq, portFree_taken hc, if_true]
  rfl

/-- The step in which a unit takes a command from the port. -/
theorem take_effect {a : Agent} {i : Instr} {u v : State} (hc : atPort a u = some i)
    (h : takeCommand i u = .next v) : Effect (.agent a) u v := by
  obtain ⟨-, hu, hk, -, hi⟩ := atPort_iff.1 hc
  cases i with
  | binit x =>
    cases hu
    obtain ⟨d, -, ht⟩ := takeCommand_binit hc
    cases ht.symm.trans h
    exact .binit rfl x d hc
  | bsend b bs =>
    cases hu
    cases (takeCommand_bsend hc).symm.trans h
    exact .startWrite rfl b bs hi (.inr ⟨hc, failedCheck_bsend.1 hk⟩)
  | brecv b n =>
    cases hu
    cases (takeCommand_brecv hc).symm.trans h
    exact .startRead rfl b n hi (.inr ⟨hc, failedCheck_brecv.1 hk⟩)
  | sinit x =>
    cases hu
    obtain ⟨d, -, ht⟩ := takeCommand_sinit hc
    cases ht.symm.trans h
    exact .sinit rfl x d hc
  | ssendb text =>
    cases hu
    rw [takeCommand_ssendb hc] at h
    simp only [ssendbStep] at h
    split at h
    · next b hb =>
      split at h <;> cases h
      · exact .sendByte rfl text 0 b (.inr ⟨hc, rfl⟩) hb ‹_›
      · next hr => exact .sendWait rfl text b hc hb (by simpa using hr)
    · cases h; exact .sendEnd rfl text 0 (.inr ⟨hc, rfl⟩) ‹_›
  | senq text =>
    cases hu
    cases (takeCommand_senq hc).symm.trans h
    exact .stage rfl text hc
  | _ => cases hu

theorem decodePhSel_ok {v : BitVec 4} {i : Instr} {rest : List Byte} (hd : decodePhSel v = .ok i rest) :
    i = .phStart ∨ i = .phAddr ∨ i = .phDataFirst ∨ i = .phDataW ∨ i = .phDataR ∨ i = .phDone := by
  unfold decodePhSel at hd
  repeat' split at hd
  all_goals first
    | (simp only [Decoded.ok.injEq] at hd; obtain ⟨rfl, -⟩ := hd; simp)
    | cases hd

/-- Every step of a turn makes one of the effects listed. -/
theorem runTurn_effect {t : Turn} {u v : State} (h : runTurn t u = .next v) : Effect t u v := by
  have drain_eff : runDecoded (decodeIrqSel (bit u.txie ++ bit u.txip)) u = .next v → Effect (.agent .drain) u v := by
    intro h
    unfold decodeIrqSel at h
    split at h
    · simp only [runDecoded, exec, execIrqDrain] at h
      split at h
      · next hq =>
        split at h
        · next hn => exact .drain rfl v hq hn.1 hn.2 (outcomeOf_next h)
        · next hn =>
          cases h
          refine .drainNothing rfl hq ?_
          cases hr : u.txrdy
          · exact .inr rfl
          · exact .inl (Classical.byContradiction fun hx => hn ⟨hx, hr⟩)
      · cases h
    · simp only [runDecoded] at h; cases h; exact .nothing
  match t, h with
  | .agent .host, h => exact host_effect h
  | .agent .seq, h =>
    simp only [runTurn, seqTurn] at h
    split at h
    · exact take_effect ‹_› h
    · split at h
      · cases hd : decodePhSel (phSelector u) with
        | ok i rest => simp only [hd, runDecoded] at h; exact seq_effect i (decodePhSel_ok hd) h
        | reject code rest => simp only [hd, runDecoded] at h; cases h; exact .nothing
        | short => simp only [hd, runDecoded] at h; cases h; exact .nothing
        | noRow => simp only [hd, runDecoded] at h; cases h; exact .nothing
      · cases h; exact .nothing
  | .agent .prod, h =>
    simp only [runTurn, prodTurn] at h
    split at h
    · exact take_effect ‹_› h
    · unfold prodStep at h
      split at h
      · next text pos hc =>
        cases h
        unfold ssendbStep
        split
        · next b hb =>
          split
          · exact .sendByte rfl text pos b (.inl hc) hb ‹_›
          · exact .nothing
        · exact .sendEnd rfl text pos (.inl hc) ‹_›
      · next hc => exact .commit rfl v hc (outcomeOf_next h)
      all_goals cases h; exact .nothing
  | .agent .drain, h => exact drain_eff h
  | .agent .uart, h =>
    simp only [runTurn, uartTurn, decodeUartSel] at h
    split at h
    · simp only [runDecoded, exec, execUartDone] at h
      split at h
      · next he =>
        cases h
        simp only [uartDoneEnabled, Bool.and_eq_true, Bool.not_eq_true'] at he
        exact .uart rfl he.1 he.2
      · cases h
    · simp only [runDecoded] at h; cases h; exact .nothing
  | .agent .phy, h =>
    simp only [runTurn, phyTurn] at h
    split at h
    · simp only [decodePhySel] at h
      split at h
      · exact phyComplete_effect h
      · simp only [runDecoded] at h; cases h; exact .nothing
    · cases h; exact .nothing
  | .bctl w, h =>
    simp only [runTurn, decodePattern] at h
    repeat' split at h
    all_goals simp only [runDecoded, exec, execPStart, execPXfern, execPXfera, execPStop] at h <;> cases h
    all_goals first
      | exact .bctl _ rfl
      | exact .nothing

/-- The state a turn is taken from differs in `turns` and `draws` only. -/
theorem nextTurn_frame (s : State) : (nextTurn s).2 = { s with turns := (nextTurn s).2.turns, draws := (nextTurn s).2.draws } := by
  unfold nextTurn; split <;> rfl

/-- Every step makes one of the effects listed. -/
theorem step_effect {s t : State} (h : step s = .next t) : Effect (nextTurn s).1 (nextTurn s).2 t := runTurn_effect h

end Sys2Proof.Machine
end

