-- ==== Sys2Proof/Laws/Header.lean ====
section
/-! SUPPORT. The fields of a header as numbers, and a header made of its fields (30_encoding.md R81). -/

namespace Sys2Proof

theorem toNat_append_add {m n : Nat} (x : BitVec m) (y : BitVec n) :
    (x ++ y).toNat = x.toNat * 2 ^ n + y.toNat := by
  rw [BitVec.toNat_append, ← Nat.shiftLeft_add_eq_or_of_lt y.isLt, Nat.shiftLeft_eq]

theorem headerOpc_toNat (h : Word) : (headerOpc h).toNat = h.toNat / 2 ^ 28 := by
  have := h.isLt
  simp only [headerOpc, BitVec.extractLsb'_toNat, Nat.shiftRight_eq_div_pow]
  omega

theorem headerAddr_toNat (h : Word) : (headerAddr h).toNat = h.toNat / 2 ^ 16 % 2 ^ 7 := by
  simp only [headerAddr, BitVec.extractLsb'_toNat, Nat.shiftRight_eq_div_pow]

theorem headerLen_toNat (h : Word) : (headerLen h).toNat = h.toNat % 2 ^ 16 := by
  simp only [headerLen, BitVec.extractLsb'_toNat, Nat.shiftRight_eq_div_pow, Nat.pow_zero, Nat.div_one]

theorem headerArg_toNat (h : Word) : (headerArg h).toNat = h.toNat % 2 ^ 24 := by
  simp only [headerArg, BitVec.extractLsb'_toNat, Nat.shiftRight_eq_div_pow, Nat.pow_zero, Nat.div_one]

theorem headerRsvHI_toNat (h : Word) : (headerRsvHI h).toNat = h.toNat / 2 ^ 24 % 2 ^ 4 := by
  simp only [headerRsvHI, BitVec.extractLsb'_toNat, Nat.shiftRight_eq_div_pow]

theorem headerRsvHA_toNat (h : Word) : (headerRsvHA h).toNat = h.toNat / 2 ^ 23 % 2 ^ 5 := by
  simp only [headerRsvHA, BitVec.extractLsb'_toNat, Nat.shiftRight_eq_div_pow]

theorem headerRsvHL_toNat (h : Word) : (headerRsvHL h).toNat = h.toNat / 2 ^ 16 % 2 ^ 12 := by
  simp only [headerRsvHL, BitVec.extractLsb'_toNat, Nat.shiftRight_eq_div_pow]

theorem encodeHI_toNat (o : BitVec 4) (x : BitVec 24) : (encodeHI o x).toNat = o.toNat * 2 ^ 28 + x.toNat := by
  simp only [encodeHI, toNat_append_add, BitVec.toNat_ofNat]; omega

theorem encodeHA_toNat (o : BitVec 4) (a : Address) (n : BitVec 16) :
    (encodeHA o a n).toNat = o.toNat * 2 ^ 28 + a.toNat * 2 ^ 16 + n.toNat := by
  simp only [encodeHA, toNat_append_add, BitVec.toNat_ofNat]; omega

theorem encodeHL_toNat (o : BitVec 4) (n : BitVec 16) : (encodeHL o n).toNat = o.toNat * 2 ^ 28 + n.toNat := by
  simp only [encodeHL, toNat_append_add, BitVec.toNat_ofNat]; omega

/-- A header's opcode as a number. -/
theorem headerOpc_eq_iff (h : Word) (o : BitVec 4) : headerOpc h = o ↔ h.toNat / 2 ^ 28 = o.toNat := by
  rw [← headerOpc_toNat]; exact ⟨fun e => by rw [e], BitVec.eq_of_toNat_eq⟩

theorem headerRsvHI_eq_zero (h : Word) : headerRsvHI h = 0 ↔ h.toNat / 2 ^ 24 % 2 ^ 4 = 0 := by
  rw [← headerRsvHI_toNat]; exact ⟨fun e => by rw [e]; rfl, fun e => BitVec.eq_of_toNat_eq e⟩

theorem headerRsvHA_eq_zero (h : Word) : headerRsvHA h = 0 ↔ h.toNat / 2 ^ 23 % 2 ^ 5 = 0 := by
  rw [← headerRsvHA_toNat]; exact ⟨fun e => by rw [e]; rfl, fun e => BitVec.eq_of_toNat_eq e⟩

theorem headerRsvHL_eq_zero (h : Word) : headerRsvHL h = 0 ↔ h.toNat / 2 ^ 16 % 2 ^ 12 = 0 := by
  rw [← headerRsvHL_toNat]; exact ⟨fun e => by rw [e]; rfl, fun e => BitVec.eq_of_toNat_eq e⟩

@[simp] theorem headerOpc_encodeHI (o : BitVec 4) (x : BitVec 24) : headerOpc (encodeHI o x) = o := by
  have := x.isLt
  rw [headerOpc_eq_iff, encodeHI_toNat]; omega

@[simp] theorem headerRsv_encodeHI (o : BitVec 4) (x : BitVec 24) : headerRsvHI (encodeHI o x) = 0 := by
  have := x.isLt
  rw [headerRsvHI_eq_zero, encodeHI_toNat]; omega

@[simp] theorem headerArg_encodeHI (o : BitVec 4) (x : BitVec 24) : headerArg (encodeHI o x) = x := by
  have := x.isLt
  apply BitVec.eq_of_toNat_eq
  rw [headerArg_toNat, encodeHI_toNat]; omega

@[simp] theorem headerOpc_encodeHA (o : BitVec 4) (a : Address) (n : BitVec 16) :
    headerOpc (encodeHA o a n) = o := by
  have := a.isLt; have := n.isLt
  rw [headerOpc_eq_iff, encodeHA_toNat]; omega

@[simp] theorem headerRsv_encodeHA (o : BitVec 4) (a : Address) (n : BitVec 16) :
    headerRsvHA (encodeHA o a n) = 0 := by
  have := a.isLt; have := n.isLt
  rw [headerRsvHA_eq_zero, encodeHA_toNat]; omega

@[simp] theorem headerAddr_encodeHA (o : BitVec 4) (a : Address) (n : BitVec 16) :
    headerAddr (encodeHA o a n) = a := by
  have := a.isLt; have := n.isLt
  apply BitVec.eq_of_toNat_eq
  rw [headerAddr_toNat, encodeHA_toNat]; omega

@[simp] theorem headerLen_encodeHA (o : BitVec 4) (a : Address) (n : BitVec 16) :
    headerLen (encodeHA o a n) = n := by
  have := a.isLt; have := n.isLt
  apply BitVec.eq_of_toNat_eq
  rw [headerLen_toNat, encodeHA_toNat]; omega

@[simp] theorem headerOpc_encodeHL (o : BitVec 4) (n : BitVec 16) : headerOpc (encodeHL o n) = o := by
  have := n.isLt
  rw [headerOpc_eq_iff, encodeHL_toNat]; omega

@[simp] theorem headerRsv_encodeHL (o : BitVec 4) (n : BitVec 16) : headerRsvHL (encodeHL o n) = 0 := by
  have := n.isLt
  rw [headerRsvHL_eq_zero, encodeHL_toNat]; omega

@[simp] theorem headerLen_encodeHL (o : BitVec 4) (n : BitVec 16) : headerLen (encodeHL o n) = n := by
  have := n.isLt
  apply BitVec.eq_of_toNat_eq
  rw [headerLen_toNat, encodeHL_toNat]; omega

end Sys2Proof
end

