-- ==== Sys2Proof/Laws/PerInstr.lean ====
section
/-! SUPPORT. One lemma per constructor of Instr. Family `Row`: the encoding of an instruction has the width and the
fixed bits of its row of spec/opcode_table.json, and its header announces exactly its payload (30_encoding.md R84,
R90). -/

namespace Sys2Proof.Laws.Row

/-- A row's width and its fixed field: bits [hi:lo] hold `value` (columns `width` and `fixed` of the table). -/
structure Row where
  width : Nat
  hi : Nat
  lo : Nat
  value : Nat
  deriving DecidableEq, Repr

/-- The rows of spec/opcode_table.json. -/
def rowOf : Instr → Row
  | .binit _ => ⟨32, 31, 24, 16⟩
  | .bsend _ _ => ⟨32, 31, 23, 64⟩
  | .brecv _ _ => ⟨32, 31, 23, 96⟩
  | .sinit _ => ⟨32, 31, 24, 144⟩
  | .ssendb _ => ⟨32, 31, 16, 40960⟩
  | .senq _ => ⟨32, 31, 16, 45056⟩
  | .pStart => ⟨8, 7, 0, 164⟩
  | .pXfern => ⟨8, 7, 0, 132⟩
  | .pXfera => ⟨8, 7, 0, 196⟩
  | .pStop => ⟨8, 7, 0, 148⟩
  | .phStart => ⟨4, 2, 0, 0⟩
  | .phAddr => ⟨4, 2, 0, 1⟩
  | .phDataFirst => ⟨4, 2, 0, 2⟩
  | .phDataW => ⟨4, 3, 0, 3⟩
  | .phDataR => ⟨4, 3, 0, 11⟩
  | .phDone => ⟨4, 2, 0, 4⟩
  | .irqDrain => ⟨2, 1, 0, 3⟩
  | .uartDone => ⟨2, 1, 0, 2⟩
  | .phyComplete => ⟨1, 0, 0, 0⟩

/-- The width and the bits of a code. -/
def bitsOf : Code → Nat × Nat
  | .command h _ => (32, h.toNat)
  | .pattern p => (8, p.toNat)
  | .phSel v => (4, v.toNat)
  | .irqSel v => (2, v.toNat)
  | .uartSel v => (2, v.toNat)
  | .phySel v => (1, v.toNat)

/-- The announced payload of a code is the payload it carries. -/
def announced : Code → Prop
  | .command h b => payloadCount h = b.length
  | .pattern _ => True
  | .phSel _ => True
  | .irqSel _ => True
  | .uartSel _ => True
  | .phySel _ => True

/-- A well-formed instruction's encoding, at the default patterns, has its row's width and fixed bits and announces
its payload. -/
def Statement (i : Instr) : Prop :=
  i.wf = true →
    (bitsOf (encode .default i)).1 = (rowOf i).width ∧
    (bitsOf (encode .default i)).2 % 2 ^ ((rowOf i).hi + 1) / 2 ^ (rowOf i).lo = (rowOf i).value ∧
    announced (encode .default i)

theorem ofNat16_length {b : List Byte} (h : payloadFits b = true) : (BitVec.ofNat 16 b.length).toNat = b.length := by
  rw [BitVec.toNat_ofNat]; exact Nat.mod_eq_of_lt (of_decide_eq_true h)

theorem fixed_HI (o : BitVec 4) (x : BitVec 24) : (encodeHI o x).toNat % 2 ^ 32 / 2 ^ 24 = o.toNat * 16 := by
  have := x.isLt; have := o.isLt
  rw [encodeHI_toNat]; omega

theorem fixed_HA (o : BitVec 4) (a : Address) (n : BitVec 16) :
    (encodeHA o a n).toNat % 2 ^ 32 / 2 ^ 23 = o.toNat * 32 := by
  have := a.isLt; have := n.isLt; have := o.isLt
  rw [encodeHA_toNat]; omega

theorem fixed_HL (o : BitVec 4) (n : BitVec 16) : (encodeHL o n).toNat % 2 ^ 32 / 2 ^ 16 = o.toNat * 4096 := by
  have := n.isLt; have := o.isLt
  rw [encodeHL_toNat]; omega

theorem binit (speed : BitVec 24) : Statement (.binit speed) := fun _ =>
  ⟨rfl, fixed_HI 0x1 speed, by simp [announced, encode, payloadCount]⟩

theorem bsend (addr : Address) (bytes : List Byte) : Statement (.bsend addr bytes) := fun h =>
  ⟨rfl, fixed_HA 0x2 addr _, by
    have := ofNat16_length h
    simp only [announced, encode, payloadCount, headerOpc_encodeHA, headerLen_encodeHA, this]; rfl⟩

theorem brecv (addr : Address) (maxCount : BitVec 16) : Statement (.brecv addr maxCount) := fun _ =>
  ⟨rfl, fixed_HA 0x3 addr maxCount, by simp [announced, encode, payloadCount]⟩

theorem sinit (baud : BitVec 24) : Statement (.sinit baud) := fun _ =>
  ⟨rfl, fixed_HI 0x9 baud, by simp [announced, encode, payloadCount]⟩

theorem ssendb (text : List Byte) : Statement (.ssendb text) := fun h =>
  ⟨rfl, fixed_HL 0xa _, by
    have := ofNat16_length h
    simp only [announced, encode, payloadCount, headerOpc_encodeHL, headerLen_encodeHL, this]; rfl⟩

theorem senq (text : List Byte) : Statement (.senq text) := fun h =>
  ⟨rfl, fixed_HL 0xb _, by
    have := ofNat16_length h
    simp only [announced, encode, payloadCount, headerOpc_encodeHL, headerLen_encodeHL, this]; rfl⟩

theorem pStart : Statement .pStart := fun _ => ⟨rfl, by decide, trivial⟩
theorem pXfern : Statement .pXfern := fun _ => ⟨rfl, by decide, trivial⟩
theorem pXfera : Statement .pXfera := fun _ => ⟨rfl, by decide, trivial⟩
theorem pStop : Statement .pStop := fun _ => ⟨rfl, by decide, trivial⟩
theorem phStart : Statement .phStart := fun _ => ⟨rfl, by decide, trivial⟩
theorem phAddr : Statement .phAddr := fun _ => ⟨rfl, by decide, trivial⟩
theorem phDataFirst : Statement .phDataFirst := fun _ => ⟨rfl, by decide, trivial⟩
theorem phDataW : Statement .phDataW := fun _ => ⟨rfl, by decide, trivial⟩
theorem phDataR : Statement .phDataR := fun _ => ⟨rfl, by decide, trivial⟩
theorem phDone : Statement .phDone := fun _ => ⟨rfl, by decide, trivial⟩
theorem irqDrain : Statement .irqDrain := fun _ => ⟨rfl, by decide, trivial⟩
theorem uartDone : Statement .uartDone := fun _ => ⟨rfl, by decide, trivial⟩
theorem phyComplete : Statement .phyComplete := fun _ => ⟨rfl, by decide, trivial⟩

end Sys2Proof.Laws.Row
end

