-- ==== Sys2Proof/Laws/Run.lean ====
section
/-! SUPPORT. Steps one by one: what a listed turn's step is, and runs of several steps. -/

namespace Sys2Proof.Machine

/-- With a turn listed, the step is that turn's. -/
theorem step_cons {s : State} {t : Turn} {ts : List Turn} (h : s.turns = t :: ts) :
    step s = runTurn t { s with turns := ts } := by
  simp [step, nextTurn, h]

theorem coreRun_next (M : Host.Core) {k : Nat} {s t : M.State} (h : M.step s = .next t) :
    M.run (k + 1) s = M.run k t := by rw [Host.Core.run, h]

theorem coreRun_fault (M : Host.Core) {k : Nat} {s : M.State} {f : M.Fault} (h : M.step s = .fault f) :
    M.run (k + 1) s = .fault f := by rw [Host.Core.run, h]

theorem coreRun_refused (M : Host.Core) {k : Nat} {s : M.State} {r : M.Refusal} (h : M.step s = .refused r) :
    M.run (k + 1) s = .refused r := by rw [Host.Core.run, h]

/-- `runSteps` is the run of the machine the host reads. -/
theorem runSteps_eq_run (k : Nat) (s : State) : runSteps k s = Host.Core.run Sys2Proof.core k s := by
  induction k generalizing s with
  | zero => rfl
  | succ k ih =>
    rw [runSteps]
    cases hs : step s with
    | next t => exact (ih t).trans (coreRun_next Sys2Proof.core hs).symm
    | fault f => exact (coreRun_fault Sys2Proof.core hs).symm
    | refused r => exact (coreRun_refused Sys2Proof.core hs).symm

/-- One step taken off a run. -/
theorem runSteps_next {k : Nat} {s t : State} (h : step s = .next t) : runSteps (k + 1) s = runSteps k t := by
  rw [runSteps, h]

/-- A run in two parts. -/
theorem runSteps_add {j k : Nat} {s t : State} (h : runSteps j s = .next t) :
    runSteps (j + k) s = runSteps k t := by
  induction j generalizing s with
  | zero => cases h; rw [Nat.zero_add]
  | succ j ih =>
    rw [show j + 1 + k = (j + k) + 1 by omega]
    rw [runSteps] at h ⊢
    cases hs : step s with
    | next u => rw [hs] at h; exact ih h
    | fault f => rw [hs] at h; cases h
    | refused r => rw [hs] at h; cases h

/-- When a run is over, condition by condition. -/
theorem runOver_iff {s : State} :
    runOver s = true ↔
      (s.hostCmds = [] ∧ s.cmd = none ∧ s.resp = none ∧ s.ph = .idle) ∧ irqRequest s = false ∧
        uartDoneEnabled s = false := by
  simp [runOver, answered, portFree_iff, and_assoc]

/-- When SEQ waits. -/
theorem seqWaits_iff {s : State} : seqWaits s = true ↔ s.ph.waits = true ∧ s.bint = false := by simp [seqWaits]

/-- When PROD waits. -/
theorem prodWaits_iff {s : State} :
    prodWaits s = true ↔ ∃ text pos, s.cmd = some (.ssendb text pos) ∧ pos < text.length ∧ s.txrdy = false := by
  unfold prodWaits
  split <;> simp_all

/-- A run in which SEQ or PROD waits is not over. -/
theorem runOver_not_waits {s : State} (h : runOver s = true) : seqWaits s = false ∧ prodWaits s = false := by
  obtain ⟨⟨-, hc, -, hp⟩, -⟩ := runOver_iff.1 h
  simp [seqWaits, prodWaits, hc, hp, Phase.waits]

/-- The turns of a schedule, the first taken off. -/
theorem scheduled_turns (next : Nat → Agent) (k : Nat) (s : State) :
    (scheduled next (k + 1) s).turns =
      .agent (next 0) :: (scheduled (fun i => next (i + 1)) k s).turns := by
  simp [scheduled, List.range_succ_eq_map, Function.comp_def]

end Sys2Proof.Machine
end

