-- ==== Sys2Proof/Laws/Transaction.lean ====
section
/-! SUPPORT. What each step of a transaction can do when it does not stop, and when it does not stop. -/

namespace Sys2Proof.Machine

/-- The data byte number IDX is commanded: all it can do. -/
theorem issueData_cases {s v : State} (h : issueData s = .ok v) :
    (∃ b, s.dir = .write ∧ s.idx.toNat < s.cnt.toNat ∧ s.txpay.read s.idx.toNat = some b ∧
      v = { phyIssue (.xmit b) s with ph := .dataXfer }) ∨
    (s.dir = .read ∧ v = { phyIssue (.recv (ackChoice s.idx s.cnt)) s with ph := .dataXfer }) := by
  unfold issueData at h
  split at h
  · next hd =>
    split at h
    · cases h
    · next b hb =>
      cases h
      obtain ⟨h1, h2⟩ := memRead_ok hb
      exact .inl ⟨b, hd, h1, h2, rfl⟩
  · next hd => cases h; exact .inr ⟨hd, rfl⟩

/-- The data byte of a write. -/
theorem issueData_write {s : State} {b : Byte} (hd : s.dir = .write) (hi : s.idx.toNat < s.cnt.toNat)
    (hb : s.txpay.read s.idx.toNat = some b) :
    issueData s = .ok { phyIssue (.xmit b) s with ph := .dataXfer } := by
  unfold issueData
  rw [hd]
  simp only [memRead_eq (sp := .txpay) (s := s) hi hb]

/-- The data byte of a read. -/
theorem issueData_read {s : State} (hd : s.dir = .read) :
    issueData s = .ok { phyIssue (.recv (ackChoice s.idx s.cnt)) s with ph := .dataXfer } := by
  unfold issueData
  rw [hd]

/-- The next data byte is commanded whenever it has a value. -/
theorem issueData_ok {s : State} (hi : s.idx.toNat < s.cnt.toNat)
    (hp : s.dir = .write → (s.txpay.read s.idx.toNat).isSome = true) : ∃ v, issueData s = .ok v := by
  unfold issueData
  cases hd : s.dir
  · obtain ⟨b, hb⟩ := Option.isSome_iff_exists.1 (hp hd)
    simp only [memRead_eq (sp := .txpay) (s := s) hi hb]
    exact ⟨_, rfl⟩
  · exact ⟨_, rfl⟩

/-- IDX counts a byte without wrapping while it is below CNT. -/
theorem idx_succ {i c : BitVec 16} (h : i.toNat < c.toNat) : (i + 1).toNat = i.toNat + 1 := by
  have := c.isLt
  have h1 : (1 : BitVec 16).toNat = 1 := rfl
  rw [BitVec.toNat_add, h1]
  omega

/-- After an OK data byte: the next one, or the stop. -/
theorem nextData_cases {s v : State} (hi : s.idx.toNat < s.cnt.toNat) (h : nextData s = .ok v) :
    (s.idx.toNat + 1 < s.cnt.toNat ∧ issueData { s with idx := s.idx + 1 } = .ok v) ∨
    (s.idx.toNat + 1 = s.cnt.toNat ∧ v = stop { s with idx := s.idx + 1 }) := by
  simp only [nextData, issueDataOrStop, idx_succ hi] at h
  split at h
  · exact .inl ⟨‹_›, h⟩
  · cases h; exact .inr ⟨by omega, rfl⟩

/-- A received byte is stored at an address that exists. -/
theorem storeReceived_cases {s v : State} (h : storeReceived s = .ok v) :
    s.idx.toNat < s.cnt.toNat ∧ v = { s with rxbuf := s.rxbuf.write s.idx.toNat s.bdata } := by
  unfold storeReceived at h
  split at h
  · cases h; exact ⟨‹_›, rfl⟩
  · cases h

/-- A phase that is not OK: one enqueue commit of the error line, the records, the stop. -/
theorem failAndStop_cases {c : StatusClass} {s v : State} (h : failAndStop c s = .ok v) :
    ∃ w, enqueue (diagText s (.errLine c s.bstat s.addr)) s = .ok w ∧
      v = stop { w with
        diagLog := s.diagLog ++ [.errLine c s.bstat s.addr], stage := [], bres := c, lasterr := s.bstat } := by
  rw [failAndStop_eq] at h
  cases he : enqueue (diagText s (.errLine c s.bstat s.addr)) s with
  | error f => rw [he] at h; cases h
  | ok w => rw [he] at h; cases h; exact ⟨w, rfl, rfl⟩

/-- The commit of a SENQ: all it can do. -/
theorem senqCommit_cases {s v : State} (h : senqCommit s = .ok v) :
    ∃ w, enqueue s.stage.bytes s = .ok w ∧ v = respond 0xb 0 [] { w with stage := [] } := by
  rw [senqCommit_eq] at h
  cases he : enqueue s.stage.bytes s with
  | error f => rw [he] at h; cases h
  | ok w => rw [he] at h; cases h; exact ⟨w, rfl, rfl⟩

/-- The end of a BRECV: the dump of the bytes read, then the response. -/
theorem finishReceive_cases {s v : State} (h : finishReceive s = .ok v) :
    ∃ bs w, memReadRange .rxbuf s 0 s.idx.toNat = .ok bs ∧ enqueue (diagText s (.rxDump s.addr bs)) s = .ok w ∧
      v = { respond 0x3 s.idx bs { w with diagLog := s.diagLog ++ [.rxDump s.addr bs], stage := [] } with
            ph := .idle } := by
  unfold finishReceive at h
  split at h
  · cases h
  · next bs hbs =>
    rw [emitDiag_eq] at h
    cases he : enqueue (diagText s (.rxDump s.addr bs)) s with
    | error f => rw [he] at h; cases h
    | ok w => rw [he] at h; cases h; exact ⟨bs, w, hbs, he, rfl⟩

/-- A range whose bytes all have values is read whole. -/
theorem memReadRange_ok {sp : Space} {s : State} {a n : Nat} (bs : List Byte) (hl : bs.length = n)
    (hn : a + n ≤ spaceSize s sp) (hb : ∀ i, i < n → (s.mem sp).read (a + i) = bs[i]?) :
    memReadRange sp s a n = .ok bs := by
  induction n generalizing a bs with
  | zero => cases bs <;> simp_all [memReadRange]
  | succ n ih =>
    cases bs with
    | nil => simp at hl
    | cons b bs =>
      have h0 := hb 0 (by omega)
      simp only [Nat.add_zero, List.getElem?_cons_zero] at h0
      have h1 := ih (a := a + 1) bs (by simpa using hl) (by omega) (fun i hi => by
        have := hb (i + 1) (by omega)
        rw [show a + 1 + i = a + (i + 1) by omega, this, List.getElem?_cons_succ])
      simp only [memReadRange, memRead_eq (sp := sp) (s := s) (by omega) h0, h1]

/-- The bytes of a range that is listed whole. -/
theorem listed_bytes (m : Memory) (n : Nat) (h : ∀ i, i < n → (m.read i).isSome = true) :
    ∃ bs : List Byte, bs.length = n ∧ ∀ i, i < n → m.read i = bs[i]? := by
  refine ⟨(List.range n).map (fun i => (m.read i).getD 0), by simp, fun i hi => ?_⟩
  obtain ⟨b, hb⟩ := Option.isSome_iff_exists.1 (h i hi)
  simp [hi, hb]

/-- An enqueue commit on a well-formed ring completes. -/
theorem enqueue_ok {s : State} (h : RingOk s) (t : List Byte) : ∃ v, enqueue t s = .ok v := by
  rcases enqueue_cases h t with ⟨-, h⟩ | ⟨-, -, h⟩ | ⟨-, -, b, -, h⟩ <;> exact ⟨_, h⟩

theorem failAndStop_ok {s : State} (h : RingOk s) (c : StatusClass) : ∃ v, failAndStop c s = .ok v := by
  obtain ⟨w, hw⟩ := enqueue_ok h (diagText s (.errLine c s.bstat s.addr))
  exact ⟨_, by rw [failAndStop_eq, hw]; rfl⟩

theorem senqCommit_ok {s : State} (h : RingOk s) : ∃ v, senqCommit s = .ok v := by
  obtain ⟨w, hw⟩ := enqueue_ok h s.stage.bytes
  exact ⟨_, by rw [senqCommit_eq, hw]; rfl⟩

theorem finishReceive_eq {s w : State} {bs : List Byte} (hbs : memReadRange .rxbuf s 0 s.idx.toNat = .ok bs)
    (hw : enqueue (diagText s (.rxDump s.addr bs)) s = .ok w) :
    finishReceive s = .ok { respond 0x3 s.idx bs { w with diagLog := s.diagLog ++ [.rxDump s.addr bs], stage := [] }
      with ph := .idle } := by
  rw [finishReceive, hbs]
  simp only [emitDiag_eq, hw]
  rfl

theorem nextData_ok {s : State} (hi : s.idx.toNat < s.cnt.toNat)
    (hp : s.dir = .write → ∀ i, i < s.cnt.toNat → (s.txpay.read i).isSome = true) : ∃ v, nextData s = .ok v := by
  simp only [nextData, issueDataOrStop, idx_succ hi]
  split
  · next hlt =>
    have hlt' : (s.idx + 1).toNat < s.cnt.toNat := by rw [idx_succ hi]; exact hlt
    exact issueData_ok (s := { s with idx := s.idx + 1 }) hlt' (fun hd => hp hd _ hlt')
  · exact ⟨_, rfl⟩

end Sys2Proof.Machine
end

