-- ==== Sys2Proof/Tests/Slice0.lean ====
section
/-! SUPPORT. Tests with expected results from the spec (95_test_vectors.md, and hand calculation from the rules), and
for every statement with hypotheses a witness that meets them. -/

namespace Sys2Proof.Tests

open Sys2Proof.Machine

/-! ### Helpers -/

/-- The next state of an outcome. -/
def nextOf : Host.Outcome State Fault Refusal → Option State
  | .next t => some t
  | .fault _ => none
  | .refused _ => none

/-- After `SINIT 9600` and `BINIT 100000`, both responses taken. -/
def ready : State := { State.reset with sdiv := 0x067, txen := true, txie := true, bdiv := 0x48, ben := true }

/-- `ready` with a ring of 8 slots. -/
def ready8 : State := { ready with cfg := { ready.cfg with cap := 8 } }

/-- `ready` with the turn of an agent. -/
def turnOf (a : Agent) (s : State) : State := { s with turns := [.agent a] }

/-- A phase of a transaction with peripheral 0x3c (write) or 0x23 (read) that has completed with a status. -/
def phaseDone (ph : Phase) (dir : Direction) (cnt idx : BitVec 16) (status : Byte) : State :=
  { ready with
    ph := ph, dir := dir, cnt := cnt, idx := idx, bstat := status, bint := true
    addr := match dir with
      | .write => 0x3c
      | .read => 0x23
    txpay := [(0, 0xaa), (1, 0xbb), (2, 0xcc)] }

/-- A ring of 8 slots that holds `ello`, `h` in the transmitter (step A1 of 95_test_vectors.md 3.6, after SINIT). -/
def helloRing : State :=
  { ready8 with
    ring := [(0, 0x68), (1, 0x65), (2, 0x6c), (3, 0x6c), (4, 0x6f)], wcur := 5, rcur := 1, txrdy := false
    txdata := 0x68 }

/-! ### Well-formedness: the terms the check refuses -/

theorem payloadFits_replicate (n : Nat) (b : Byte) : payloadFits (List.replicate n b) = decide (n < 65536) := by
  simp [payloadFits]

theorem test_wf_refuses_bsend_65536 : (Instr.bsend 0x3c (List.replicate 65536 0)).wf = false :=
  (payloadFits_replicate 65536 0).trans (by decide)
theorem test_wf_refuses_ssendb_65536 : (Instr.ssendb (List.replicate 65536 0)).wf = false :=
  (payloadFits_replicate 65536 0).trans (by decide)
theorem test_wf_refuses_senq_65536 : (Instr.senq (List.replicate 65536 0)).wf = false :=
  (payloadFits_replicate 65536 0).trans (by decide)
theorem test_wf_admits_bsend_65535 : (Instr.bsend 0x7f (List.replicate 65535 0)).wf = true :=
  (payloadFits_replicate 65535 0).trans (by decide)

/-! ### Decoding: every constructor from a word written from 30_encoding.md and spec/opcode_table.json -/

theorem test_decode_binit :
    decodeTableWord 32 0b0001_0000_0000_0001_1000_0110_1010_0000 = some (.binit 100000) := by decide
theorem test_decode_bsend :
    decodeCommand 0b0010_00000_0111100_0000000000000011 [0xaa, 0xbb, 0xcc] =
      .ok (.bsend 0x3c [0xaa, 0xbb, 0xcc]) [] := by decide
theorem test_decode_brecv :
    decodeTableWord 32 0b0011_00000_0100011_0000000000000010 = some (.brecv 0x23 2) := by decide
theorem test_decode_sinit : decodeTableWord 32 0b1001_0000_000000000010010110000000 = some (.sinit 9600) := by decide
theorem test_decode_ssendb :
    decodeCommand 0b1010_000000000000_0000000000000010 [0x68, 0x69, 0x6a] = .ok (.ssendb [0x68, 0x69]) [0x6a] := by
  decide
theorem test_decode_senq :
    decodeCommand 0b1011_000000000000_0000000000000001 [0x5a] = .ok (.senq [0x5a]) [] := by decide
theorem test_decode_pStart : decodeTableWord 8 0b10100100 = some .pStart := by decide
theorem test_decode_pXfern : decodeTableWord 8 0b10000100 = some .pXfern := by decide
theorem test_decode_pXfera : decodeTableWord 8 0b11000100 = some .pXfera := by decide
theorem test_decode_pStop : decodeTableWord 8 0b10010100 = some .pStop := by decide
theorem test_decode_phStart : decodeTableWord 4 0b0000 = some .phStart ∧ decodePhSel 0b1000 = .ok .phStart [] := by
  decide
theorem test_decode_phAddr : decodeTableWord 4 0b0001 = some .phAddr ∧ decodePhSel 0b1001 = .ok .phAddr [] := by
  decide
theorem test_decode_phDataFirst :
    decodeTableWord 4 0b0010 = some .phDataFirst ∧ decodePhSel 0b1010 = .ok .phDataFirst [] := by decide
theorem test_decode_phDataW : decodeTableWord 4 0b0011 = some .phDataW := by decide
theorem test_decode_phDataR : decodeTableWord 4 0b1011 = some .phDataR := by decide
theorem test_decode_phDone : decodeTableWord 4 0b0100 = some .phDone ∧ decodePhSel 0b1100 = .ok .phDone [] := by
  decide
theorem test_decode_irqDrain : decodeTableWord 2 0b11 = some .irqDrain := by decide
theorem test_decode_uartDone : decodeTableWord 2 0b10 = some .uartDone := by decide
theorem test_decode_phyComplete : decodeTableWord 1 0b0 = some .phyComplete := by decide

/-- 0xf0000000 and 0x00000000 are reserved; bit 23 of format HA, bit 24 of HI and bit 16 of HL are reserved bits
(95_test_vectors.md 3.1). -/
theorem test_decode_rejects :
    decodeCommand 0xf0000000 [] = .reject .illegalOpcode [] ∧ decodeCommand 0 [] = .reject .illegalOpcode [] ∧
    decodeCommand 0x30a30002 [] = .reject .reservedBits [] ∧ decodeCommand 0x91002580 [] = .reject .reservedBits [] ∧
    decodeCommand 0xa0010002 [0x68, 0x69, 0x7a] = .reject .reservedBits [0x7a] := by decide

/-- The placed word runs as the very next step after reset. -/
theorem test_placed_binit_runs :
    (nextOf (step (State.reset.withFetchWord 32 0x100186a0))).map (fun t => (t.bdiv, t.ben)) = some (0x48, true) := by
  decide
theorem test_placed_phAddr_runs :
    (nextOf (step (State.reset.withFetchWord 4 0b0001))).map (fun t => (t.ph, t.bres)) =
      some (.stopIssued, .unrecognized) := by decide

/-! ### One step per instruction -/

/-- 95_test_vectors.md 3.2. -/
theorem test_binit_scenario_S1 :
    (nextOf (exec (.binit 100000) State.reset)).map (fun t => (t.bdiv, t.ben, t.resp)) =
      some (0x48, true, some ⟨0x10000000, []⟩) := by decide
theorem test_binit_30303_rejected :
    (nextOf (exec (.binit 30303) ready)).map (fun t => (t.bdiv, t.ben, t.resp)) =
      some (0x48, true, some ⟨0x14000000, []⟩) := by decide

/-- T15. -/
theorem test_bsend_before_binit :
    (nextOf (exec (.bsend 0x3c [0x00]) State.reset)).map (fun t => (t.cmd, t.resp)) =
      some (none, some ⟨0x23000000, []⟩) := by decide

theorem test_brecv_accepted :
    (nextOf (exec (.brecv 0x23 2) ready)).map (fun t => (t.cmd, t.resp)) = some (some (.brecv 0x23 2), none) := by
  decide

/-- 95_test_vectors.md 3.5. -/
theorem test_sinit_9600 :
    (nextOf (exec (.sinit 9600) State.reset)).map (fun t => (t.sdiv, t.txen, t.txie, t.resp)) =
      some (0x067, true, true, some ⟨0x90000000, []⟩) := by decide
theorem test_sinit_244_rejected :
    (nextOf (exec (.sinit 244) State.reset)).map (fun t => (t.sdiv, t.txen, t.txie, t.resp)) =
      some (0x000, false, false, some ⟨0x94000000, []⟩) := by decide

/-- 95_test_vectors.md 3.8, the last line. -/
theorem test_ssendb_before_sinit :
    (nextOf (exec (.ssendb [0x68, 0x69]) State.reset)).map (fun t => (t.cmd, t.resp)) =
      some (none, some ⟨0xa3000000, []⟩) := by decide
/-- E3: the last byte while TXIP = 1, before the handler. -/
theorem test_ssendb_byte_step :
    (nextOf (prodStep { ready8 with txip := true, cmd := some (.ssendb [0x68, 0x69] 1) })).map
      (fun t => (t.txrdy, t.txip, t.txdata, t.resp)) = some (false, true, 0x69, none) := by decide

/-- Run D: STAGE_MAX = 4 keeps `abcd`. -/
theorem test_senq_stage_truncates :
    (nextOf (exec (.senq [0x61, 0x62, 0x63, 0x64, 0x65]) { ready8 with cfg := { ready8.cfg with stageMax := 4 } })).map
      (fun t => (t.stage.bytes, t.ring)) = some ([0x61, 0x62, 0x63, 0x64], []) := by decide
/-- A8: one slot is free, `X` goes to RING[0], `Y` is lost. -/
theorem test_senq_commit_truncates_and_wraps :
    (nextOf (prodStep { helloRing with
      ring := helloRing.ring ++ [(5, 0x61), (6, 0x62), (7, 0x63)], wcur := 0, rcur := 2, txdata := 0x65
      cmd := some .senq, stage := [(0, 0x58), (1, 0x59)] })).map
      (fun t => (t.wcur, t.rcur, t.ring.bytes, t.txdata, t.resp)) =
      some (1, 2, [0x58, 0x65, 0x6c, 0x6c, 0x6f, 0x61, 0x62, 0x63], 0x65, some ⟨0xb0000000, []⟩) := by decide

theorem test_pStart : (nextOf (exec .pStart ready)).map (fun t => (t.bctl, t.busLog)) = some (0xa4, [.start]) := by
  decide
theorem test_pXfern_after_read_address :
    (nextOf (exec .pXfern { ready with dir := .read, ph := .dataXfer })).map (fun t => (t.bctl, t.busLog)) =
      some (0x84, [.recv false]) := by decide
theorem test_pXfera : (nextOf (exec .pXfera ready)).map (fun t => (t.bctl, t.busLog)) = some (0xc4, [.recv true]) := by
  decide
theorem test_pStop : (nextOf (exec .pStop ready)).map (fun t => (t.bctl, t.bint, t.busLog)) =
    some (0x94, false, [.stop]) := by decide

/-- The example of R123. -/
theorem test_phStart :
    (nextOf (exec .phStart { ready with cmd := some (.bsend 0x3c [0x00]), idx := 9, bres := .fatal })).map
      (fun t => (t.addr, t.cnt, t.idx, t.busLog, t.ph)) = some (0x3c, 1, 0, [.start], .startIssued) := by decide
theorem test_phStart_loads_payload :
    (nextOf (exec .phStart { ready with cmd := some (.bsend 0x3c [0x00]), dir := .read, bres := .fatal })).map
      (fun t => (t.dir, t.bres, t.txpay)) = some (.write, .ok, [(0, 0x00)]) := by decide

/-- The address step of T8. -/
theorem test_phAddr_commands_address_byte :
    (nextOf (exec .phAddr (phaseDone .startIssued .read 1 0 0x08))).map (fun t => (t.busLog, t.bdata, t.bctl, t.ph)) =
      some ([.xmit 0x47], 0x47, 0x84, .addrSent) := by decide
/-- T1: arbitration lost in the start phase. -/
theorem test_phAddr_arbitration_lost :
    (nextOf (exec .phAddr (phaseDone .startIssued .write 3 0 0x38))).map
      (fun t => (t.busLog, t.diagLog, t.bres, t.lasterr)) =
      some ([.stop], [.errLine .fatal 0x38 0x3c], .fatal, 0x38) := by decide

/-- R131: of two bytes the first is answered with ACK. -/
theorem test_phDataFirst_acknowledges :
    (nextOf (exec .phDataFirst (phaseDone .addrSent .read 2 0 0x40))).map (fun t => (t.busLog, t.bctl, t.ph)) =
      some ([.recv true], 0xc4, .dataXfer) := by decide
/-- P2: the address is not acknowledged; 43 bytes are appended and the first is primed. -/
theorem test_phDataFirst_nack_primes_error_line :
    (nextOf (exec .phDataFirst (phaseDone .addrSent .write 1 0 0x20))).map
      (fun t => (t.busLog, t.bres, t.wcur, t.rcur, t.txdata, t.txrdy)) =
      some ([.stop], .recoverable, 43, 1, 0x54, false) := by decide

theorem test_phDataW_next_byte :
    (nextOf (exec .phDataW (phaseDone .dataXfer .write 3 0 0x28))).map (fun t => (t.idx, t.busLog, t.ph)) =
      some (1, [.xmit 0xbb], .dataXfer) := by decide
theorem test_phDataW_last_byte_stops :
    (nextOf (exec .phDataW (phaseDone .dataXfer .write 3 2 0x28))).map (fun t => (t.idx, t.busLog, t.ph)) =
      some (3, [.stop], .stopIssued) := by decide

/-- The last byte of a two-byte read, answered with NACK, is stored and counted. -/
theorem test_phDataR_stores_last_byte :
    (nextOf (exec .phDataR { phaseDone .dataXfer .read 2 1 0x58 with bdata := 0x34, rxbuf := [(0, 0x12)] })).map
      (fun t => (t.rxbuf, t.idx, t.busLog, t.ph)) = some ([(0, 0x12), (1, 0x34)], 2, [.stop], .stopIssued) := by decide
/-- T11: the byte of a failed phase is neither stored nor counted. -/
theorem test_phDataR_failed_byte_not_stored :
    (nextOf (exec .phDataR { phaseDone .dataXfer .read 2 0 0x38 with bdata := 0x55 })).map
      (fun t => (t.rxbuf, t.idx, t.bres)) = some ([], 0, .fatal) := by decide

theorem test_phDone_brecv_answers_data :
    (nextOf (exec .phDone { phaseDone .stopIssued .read 2 2 0x58 with rxbuf := [(0, 0x12), (1, 0x34)] })).map
      (fun t => (t.resp, t.ph, t.diagLog, t.wcur)) =
      some (some ⟨0x30000002, [0x12, 0x34]⟩, .idle, [.rxDump 0x23 [0x12, 0x34]], 26) := by decide
theorem test_phDone_bsend_answers_nothing :
    (nextOf (exec .phDone (phaseDone .stopIssued .write 3 1 0x30))).map (fun t => (t.resp, t.ph)) =
      some (some ⟨0x20000000, []⟩, .idle) := by decide

/-- The worked example of R171. -/
theorem test_irqDrain_worked_example :
    (nextOf (exec .irqDrain { helloRing with txrdy := true, txip := true })).map
      (fun t => (t.txdata, t.rcur, t.txrdy, t.txip, occupied t)) = some (0x65, 2, false, false, 3) := by decide
/-- F4: TXRDY = 0, so the handler only clears TXIP. -/
theorem test_irqDrain_leaves_busy_register :
    (nextOf (exec .irqDrain { helloRing with txdata := 0x78, txip := true })).map
      (fun t => (t.txdata, t.rcur, t.txrdy, t.txip)) = some (0x78, 1, false, false) := by decide

/-- A6. -/
theorem test_uartDone :
    (nextOf (exec .uartDone helloRing)).map (fun t => (t.wire, t.txrdy, t.txip)) = some ([0x68], true, true) := by
  decide

/-- The receive completion of T8. -/
theorem test_phyComplete_draws_data_for_a_receive :
    (nextOf (exec .phyComplete { ready with
      ph := .dataXfer, busLog := [.recv false], phyStatus := [0x58], phyData := [0x9a] })).map
      (fun t => (t.bstat, t.bdata, t.bint)) = some (0x58, 0x9a, true) := by decide
theorem test_phyComplete_no_data_for_a_transmit :
    (nextOf (exec .phyComplete { ready with
      ph := .addrSent, bdata := 0x78, busLog := [.xmit 0x78], phyStatus := [0x20], phyData := [0x9a] })).map
      (fun t => (t.bstat, t.bdata, t.phyData)) = some (0x20, 0x78, [0x9a]) := by decide

/-! ### The status decoder, memory -/

/-- 95_test_vectors.md 3.3, every row of the known set and four codes outside it. -/
theorem test_classify :
    ([0x08, 0x10, 0x18, 0x20, 0x28, 0x30, 0x38, 0x40, 0x48, 0x50, 0x58, 0x00, 0x09, 0x60, 0xff].map
      (classify .default)) =
      [.ok, .fatal, .ok, .recoverable, .ok, .recoverable, .fatal, .ok, .recoverable, .ok, .ok, .unrecognized,
        .unrecognized, .unrecognized, .unrecognized] := by decide

/-- The bytes of the first line of 95_test_vectors.md 3.3. -/
theorem test_error_line :
    standardRender .default (.errLine .recoverable 0x20 0x3c) =
      [0x54, 0x57, 0x49, 0x20, 0x52, 0x65, 0x63, 0x6f, 0x76, 0x65, 0x72, 0x61, 0x62, 0x6c, 0x65, 0x20, 0x73, 0x6c,
        0x61, 0x2b, 0x77, 0x20, 0x6e, 0x61, 0x63, 0x6b, 0x20, 0x73, 0x74, 0x3d, 0x30, 0x78, 0x32, 0x30, 0x20, 0x61,
        0x64, 0x3d, 0x30, 0x78, 0x33, 0x63, 0x0a] := by decide
theorem test_receive_dump :
    standardRender .default (.rxDump 0x23 [0x12, 0x34]) =
      [0x54, 0x57, 0x49, 0x20, 0x72, 0x78, 0x20, 0x61, 0x64, 0x3d, 0x30, 0x78, 0x32, 0x33, 0x20, 0x6e, 0x3d, 0x32,
        0x3a, 0x20, 0x31, 0x32, 0x20, 0x33, 0x34, 0x0a] := by decide
theorem test_unknown_status_text :
    (standardRender .default (.errLine .unrecognized 0xf8 0x23)).length = 41 := by decide

theorem test_memory_write_keeps_form :
    (Memory.write [(1, 0x65), (4, 0x6f)] 2 0x6c).wf = true ∧
    (Memory.write [(1, 0x65), (4, 0x6f)] 2 0x6c).read 2 = some 0x6c ∧
    (Memory.write [(1, 0x65), (4, 0x6f)] 2 0x6c).read 3 = none := by decide

/-- The program that is over although its bytes wait in the ring, and the hang of T17. -/
theorem test_runOver :
    runOver { State.reset with wcur := 2, rcur := 1, txrdy := false } = true ∧
    (let s := { ready with ph := .startIssued, busLog := [.start] }; runOver s = false ∧ seqWaits s = true) := by decide

/-- P1's registers on the debug read port. -/
theorem test_debug_read :
    [0x00, 0x04, 0x06, 0x11, 0x12, 0x13, 0x0b].map (debugRead { ready with addr := 0x3c }) =
      [0x48, 1, 0x3c, 0x18, 3, 1, 0] := by decide

/-! ### Witnesses: states and operands that meet the hypotheses of a statement, clause by clause -/

/-- The second byte of a two-byte read has arrived while the output channel sends `hello`. -/
def midRead : State :=
  { helloRing with
    ph := .dataXfer, dir := .read, addr := 0x23, cnt := 2, idx := 1, bint := true, bstat := 0x58, bdata := 0x34
    bctl := 0x84, rxbuf := [(0, 0x12)], busLog := [.start, .xmit 0x47, .recv true, .recv false]
    turns := [.agent .seq] }

/-- HOST has presented a command, and an agent has the turn. -/
def withCommand (a : Agent) (i : Instr) (s : State) : State := { turnOf a s with cmd := some (.presented i) }

/-- HOST is about to present `SENQ "Z"`. -/
def hostReady : State := { turnOf .host ready8 with hostCmds := [0xb0000001], hostBytes := [0x5a] }

/-- A BSEND of two bytes with the always-ACK responder. -/
def sendRun : State :=
  { ready with
    hostCmds := [0x203c0002], hostBytes := [0xaa, 0xbb], phyStatus := [0x08, 0x18, 0x28, 0x28]
    turns := transactionSchedule 4 }

/-- P3: a BRECV of two bytes with the always-ACK responder. -/
def receiveRun : State :=
  { ready with
    hostCmds := [0x30230002], phyStatus := [0x08, 0x40, 0x50, 0x58], phyData := [0x12, 0x34]
    turns := transactionSchedule 4 }

theorem ringOk_ready8 : RingOk ready8 := ⟨by decide, by decide, by decide, by decide⟩
theorem ringOk_helloRing : RingOk helloRing := ⟨by decide, by decide, by decide, by decide⟩

/-- The running read meets the invariant. -/
theorem invariant_midRead : Invariant midRead where
  valid := by decide
  ring := ⟨by decide, by decide, by decide, by decide⟩
  busy := by decide
  ringWf := by decide
  txpayWf := by decide
  rxbufWf := by decide
  stageWf := by decide
  ringSize := by decide
  stageSize := by decide
  together := by decide
  pending := by decide
  idxLe := by decide
  idxZero := by decide
  idxLt := by decide
  payload := by decide
  received := by decide
  okSoFar := by decide
  onePort := by decide
  presented := fun _ h => (by cases h)
  started := ⟨fun _ _ h => (by cases h), fun _ _ h => (by cases h)⟩
  respIdle := by decide
  staged := by decide
  bctl := .inr ⟨.recv false, rfl⟩
  agents := by decide

/-- A change of the turns alone keeps the invariant, as long as they are agents'. -/
theorem invariant_turns {s : State} (h : Invariant s) (ts : List Turn) (hts : ∀ t ∈ ts, t.isAgent = true) :
    Invariant { s with turns := ts } :=
  { h with ring := ⟨h.ring.capTwo, h.ring.wcurLt, h.ring.rcurLt, h.ring.written⟩, agents := hts }

/-- The same read before its last byte has arrived. -/
theorem invariant_waiting : Invariant { midRead with bint := false, turns := [.agent .drain] } :=
  let h := invariant_turns invariant_midRead [.agent .drain] (by decide)
  { h with ring := ⟨h.ring.capTwo, h.ring.wcurLt, h.ring.rcurLt, h.ring.written⟩ }

/-- `hello` is in the channel and nothing else goes on. -/
theorem invariant_helloRing : Invariant helloRing where
  valid := by decide
  ring := ringOk_helloRing
  busy := by decide
  ringWf := by decide
  txpayWf := by decide
  rxbufWf := by decide
  stageWf := by decide
  ringSize := by decide
  stageSize := by decide
  together := by decide
  pending := by decide
  idxLe := by decide
  idxZero := by decide
  idxLt := by decide
  payload := by decide
  received := by decide
  okSoFar := by decide
  onePort := by decide
  presented := fun _ h => (by cases h)
  started := ⟨fun _ _ h => (by cases h), fun _ _ h => (by cases h)⟩
  respIdle := by decide
  staged := by decide
  bctl := .inl rfl
  agents := by decide

/-- `SENQ "Z"` is staged. -/
def stagedZ : State := { turnOf .prod helloRing with cmd := some .senq, stage := [(0, 0x5a)] }

theorem invariant_stagedZ : Invariant stagedZ :=
  { invariant_helloRing with
    ring := ⟨by decide, by decide, by decide, by decide⟩, stageWf := by decide, stageSize := by decide
    onePort := by decide, presented := fun _ h => (by cases h)
    started := ⟨fun _ _ h => (by cases h), fun _ _ h => (by cases h)⟩
    staged := by decide, agents := by decide }

/-- Run F: a completion is pending and `SSENDB "x"` has its byte to write. -/
def sendX : State :=
  { turnOf .prod helloRing with txrdy := true, txip := true, cmd := some (.ssendb [0x78] 0) }

theorem invariant_sendX : Invariant sendX :=
  { invariant_helloRing with
    ring := ⟨by decide, by decide, by decide, by decide⟩, busy := by decide, pending := by decide
    onePort := by decide, presented := fun _ h => (by cases h)
    started := ⟨fun _ _ h => (by cases h), fun _ _ h => (by cases h)⟩
    staged := by decide, agents := by decide }

/-- The same with `SSENDB "x"` at the port. -/
def presentX : State := { sendX with cmd := some (.presented (.ssendb [0x78])) }

theorem invariant_presentX : Invariant presentX :=
  { invariant_sendX with
    ring := ⟨by decide, by decide, by decide, by decide⟩, onePort := by decide, staged := by decide
    presented := fun _ h => (by cases h; exact ⟨by decide, rfl⟩)
    started := ⟨fun _ _ h => (by cases h), fun _ _ h => (by cases h)⟩ }

/-- `SSENDB "x"` waits while `h` is in the transmitter. -/
def waitX : State := { helloRing with cmd := some (.ssendb [0x78] 0) }

theorem invariant_waitX : Invariant waitX :=
  { invariant_helloRing with
    ring := ⟨by decide, by decide, by decide, by decide⟩, onePort := by decide, staged := by decide
    presented := fun _ h => (by cases h)
    started := ⟨fun _ _ h => (by cases h), fun _ _ h => (by cases h)⟩ }

/-- `hello` has left: the run of its program is over. -/
def settled : State := { helloRing with rcur := 5, txrdy := true, txdata := 0x6f, wire := [0x68, 0x65, 0x6c, 0x6c, 0x6f] }

theorem invariant_settled : Invariant settled :=
  { invariant_helloRing with
    ring := ⟨by decide, by decide, by decide, by decide⟩, busy := by decide, pending := by decide }

/-- The last state of 95_test_vectors.md section 4, P5: `SENQ "ok"` and never a SINIT. -/
def neverSinit : State :=
  { State.reset with
    ring := [(0, 0x6f), (1, 0x6b)], wcur := 2, rcur := 1, txrdy := false, txdata := 0x6f }

theorem invariant_neverSinit : Invariant neverSinit where
  valid := by decide
  ring := ⟨by decide, by decide, by decide, by decide⟩
  busy := by decide
  ringWf := by decide
  txpayWf := by decide
  rxbufWf := by decide
  stageWf := by decide
  ringSize := by decide
  stageSize := by decide
  together := by decide
  pending := by decide
  idxLe := by decide
  idxZero := by decide
  idxLt := by decide
  payload := by decide
  received := by decide
  okSoFar := by decide
  onePort := by decide
  presented := fun _ h => (by cases h)
  started := ⟨fun _ _ h => (by cases h), fun _ _ h => (by cases h)⟩
  respIdle := by decide
  staged := by decide
  bctl := .inl rfl
  agents := by decide

theorem witness_StepKeepsInvariant : Invariant midRead ∧ ∃ t, step midRead = .next t := ⟨invariant_midRead, _, rfl⟩

theorem witness_StepFromInvariantCompletes : Invariant midRead := invariant_midRead

/-- HOST's step presents `SENQ "Z"`, and one of PROD stages it. -/
theorem witness_DecodedCommandRunsInItsUnit_host :
    hostReady.turns = [.agent .host] ∧ portFree hostReady = true ∧ hostReady.hostCmds = [0xb0000001] ∧
    decodeCommand 0xb0000001 hostReady.hostBytes = .ok (.senq [0x5a]) [] ∧ failedCheck (.senq [0x5a]) hostReady = none ∧
    (∃ t, step hostReady = .next t ∧ t.cmd = some (.presented (.senq [0x5a])) ∧ t.stage = []) ∧
    ∃ t, step (withCommand .prod (.senq [0x5a]) ready8) = .next t ∧ t.cmd = some .senq ∧ t.stage = [(0, 0x5a)] :=
  ⟨by decide, by decide, by decide, by decide, rfl, ⟨_, rfl, by decide⟩, _, rfl, by decide⟩

theorem witness_DecodedCommandRunsInItsUnit_units :
    (let s := withCommand .seq (.binit 100000) ready
     s.turns = [.agent .seq] ∧ s.cmd = some (.presented (.binit 100000)) ∧
      commandUnit (.binit 100000) = some .seq ∧ failedCheck (.binit 100000) s = none ∧ s.resp = none ∧ s.ph = .idle) ∧
    (commandUnit (.bsend 0x3c [0x00]) = some .seq ∧ failedCheck (.bsend 0x3c [0x00]) ready = none ∧
      commandUnit (.brecv 0x23 2) = some .seq ∧ failedCheck (.brecv 0x23 2) ready = none) ∧
    (commandUnit (.sinit 9600) = some .prod ∧ failedCheck (.sinit 9600) ready = none ∧
      commandUnit (.senq [0x5a]) = some .prod ∧ failedCheck (.senq [0x5a]) ready = none ∧
      commandUnit (.ssendb [0x68]) = some .prod ∧ failedCheck (.ssendb [0x68]) ready = none) := by decide

theorem witness_StepRunsSelectedOperation_seq :
    let s := turnOf .seq { ready with bint := true }
    s.turns = [.agent .seq] ∧
    (let u := { s with cmd := some (.bsend 0x3c [0x00]) }; u.ph = .idle ∧ u.cmd = some (.bsend 0x3c [0x00])) ∧
    (let u := { s with cmd := some (.brecv 0x23 2) }; u.ph = .idle ∧ u.cmd = some (.brecv 0x23 2)) ∧
    (let u := { s with ph := .startIssued }; u.ph = .startIssued ∧ u.bint = true) ∧
    (let u := { s with ph := .addrSent }; u.ph = .addrSent ∧ u.bint = true) ∧
    (let u := { s with ph := .dataXfer }; u.ph = .dataXfer ∧ u.bint = true ∧ u.dir = .write) ∧
    (let u := { s with ph := .dataXfer, dir := .read }; u.ph = .dataXfer ∧ u.bint = true ∧ u.dir = .read) ∧
    (let u := { s with ph := .stopIssued }; u.ph = .stopIssued) := by decide

theorem witness_StepRunsSelectedOperation_others :
    (let s := turnOf .drain { ready with txip := true }
     s.turns = [.agent .drain] ∧ s.txie = true ∧ s.txip = true) ∧
    (let s := turnOf .uart helloRing; s.turns = [.agent .uart] ∧ s.txen = true ∧ s.txrdy = false) ∧
    (let s := turnOf .phy { ready with ph := .startIssued }
     s.turns = [.agent .phy] ∧ s.ph = .startIssued ∧ s.bint = false) ∧
    (let s := turnOf .prod { ready with cmd := some .senq }
     s.turns = [.agent .prod] ∧ s.cmd = some .senq) ∧
    (let s := withCommand .prod (.binit 100000) ready
     s.turns = [.agent .prod] ∧ s.cmd = some (.presented (.binit 100000)) ∧ commandUnit (.binit 100000) ≠ some .prod) ∧
    (let s := turnOf .host { ready with resp := some ⟨0x10000000, []⟩ }
     s.turns = [.agent .host] ∧ s.resp = some ⟨0x10000000, []⟩) ∧
    (let s := { ready with turns := [.bctl 0xc4] }
     s.turns = [.bctl 0xc4] ∧ decodePattern s.cfg.patterns 0xc4 = .ok .pXfera []) ∧
    ready.turns = [] := by decide

theorem witness_WaitingTurnChangesNothing_seq :
    (let s := turnOf .seq { ready with ph := .addrSent }
     s.turns = [.agent .seq] ∧ s.ph = .addrSent ∧ s.bint = false) ∧
    (let s := turnOf .seq { ready with cmd := some .senq }
     s.turns = [.agent .seq] ∧ s.ph = .idle ∧ (∀ a b, s.cmd ≠ some (.bsend a b)) ∧
      (∀ a n, s.cmd ≠ some (.brecv a n)) ∧ ∀ i, s.cmd ≠ some (.presented i)) ∧
    (let s := withCommand .seq (.sinit 9600) ready
     s.cmd = some (.presented (.sinit 9600)) ∧ commandUnit (.sinit 9600) ≠ some .seq) ∧
    (let s := withCommand .seq (.bsend 0x3c [0x00]) State.reset
     s.cmd = some (.presented (.bsend 0x3c [0x00])) ∧ failedCheck (.bsend 0x3c [0x00]) s ≠ none) :=
  ⟨⟨rfl, rfl, rfl⟩,
    ⟨rfl, rfl, fun _ _ h => (by cases h), fun _ _ h => (by cases h), fun _ h => (by cases h)⟩,
    ⟨rfl, by decide⟩, rfl, by decide⟩

theorem witness_WaitingTurnChangesNothing_prod :
    (let s := turnOf .prod { helloRing with cmd := some (.ssendb [0x78] 0) }
     s.turns = [.agent .prod] ∧ ∃ text pos, s.cmd = some (.ssendb text pos) ∧ pos < text.length ∧ s.txrdy = false) ∧
    (turnOf .prod ready).cmd = none ∧
    (∃ a b, (turnOf .prod { ready with cmd := some (.bsend 0x3c [0x00]) }).cmd = some (.bsend a b)) ∧
    (∃ a n, (turnOf .prod { ready with cmd := some (.brecv 0x23 2) }).cmd = some (.brecv a n)) ∧
    (∃ i, (withCommand .prod (.binit 100000) ready).cmd = some (.presented i) ∧ commandUnit i ≠ some .prod) ∧
    (let s := withCommand .prod (.ssendb [0x68]) State.reset
     ∃ i, s.cmd = some (.presented i) ∧ failedCheck i s ≠ none) :=
  ⟨⟨rfl, _, _, rfl, by decide, rfl⟩, rfl, ⟨_, _, rfl⟩, ⟨_, _, rfl⟩, ⟨_, rfl, by decide⟩, _, rfl, by decide⟩

theorem witness_WaitingTurnChangesNothing_others :
    (let s := turnOf .drain ready; s.turns = [.agent .drain] ∧ s.txip = false) ∧
    (let s := turnOf .drain { State.reset with txip := true }; s.turns = [.agent .drain] ∧ s.txie = false) ∧
    (let s := turnOf .uart ready; s.turns = [.agent .uart] ∧ s.txrdy = true) ∧
    (let s := turnOf .uart { State.reset with txrdy := false }; s.turns = [.agent .uart] ∧ s.txen = false) ∧
    (turnOf .phy ready).ph = .idle ∧ (turnOf .phy { ready with ph := .stopIssued }).ph = .stopIssued ∧
    (turnOf .phy { ready with ph := .addrSent, bint := true }).bint = true := by decide

theorem witness_WaitingTurnChangesNothing_host :
    (let s := turnOf .host { ready with cmd := some .senq }
     s.turns = [.agent .host] ∧ s.resp = none ∧ s.cmd = some .senq) ∧
    (let s := turnOf .host { ready with ph := .addrSent }; s.resp = none ∧ s.ph ≠ .idle) ∧
    (let s := turnOf .host ready; s.resp = none ∧ s.hostCmds = []) ∧
    (let s := turnOf .host { ready with hostCmds := [0xa0000002], hostBytes := [0x68] }
     s.resp = none ∧ s.hostCmds = [0xa0000002] ∧ decodeCommand 0xa0000002 s.hostBytes = .short) := by decide

theorem witness_OnlyPhyEndsAWait :
    let s := { midRead with bint := false, turns := [.agent .drain] }
    Invariant s ∧ s.turns = [.agent .drain] ∧ Agent.drain ≠ .phy ∧ s.ph = .dataXfer ∧ s.bint = false ∧
      ∃ t, step s = .next t := ⟨invariant_waiting, rfl, by decide, rfl, rfl, _, rfl⟩

theorem witness_DecodeOfEncodeIsIdentity :
    Patterns.default.Distinct ∧ (Instr.bsend 0x7f [0xaa, 0xbb]).wf = true ∧
    encode .default (.bsend 0x7f [0xaa, 0xbb]) = .command 0x207f0002 [0xaa, 0xbb] := by decide

theorem witness_DecodedCommandReencodes :
    decodeCommand 0x203c0001 [0x00, 0x99] = .ok (.bsend 0x3c [0x00]) [0x99] := by decide

theorem witness_HeaderFormatChecks :
    (let h : Word := 0x40000000; h.toNat / 2 ^ 28 = 4) ∧
    (let h : Word := 0x11000000; h.toNat / 2 ^ 28 = 1 ∧ h.toNat / 2 ^ 24 % 2 ^ 4 ≠ 0) ∧
    (let h : Word := 0x20800001; h.toNat / 2 ^ 28 = 2 ∧ h.toNat / 2 ^ 23 % 2 ^ 5 ≠ 0 ∧
      h.toNat % 2 ^ 16 ≤ [(0x00 : Byte)].length) ∧
    (let h : Word := 0x38000000; h.toNat / 2 ^ 28 = 3 ∧ h.toNat / 2 ^ 23 % 2 ^ 5 ≠ 0) ∧
    (let h : Word := 0xa0010000; h.toNat / 2 ^ 28 = 10 ∧ h.toNat / 2 ^ 16 % 2 ^ 12 ≠ 0 ∧ h.toNat % 2 ^ 16 = 0) ∧
    (let h : Word := 0xb000ffff; h.toNat / 2 ^ 28 = 11 ∧ [(0x00 : Byte)].length < h.toNat % 2 ^ 16) := by decide

/-- The five rejected commands of 95_test_vectors.md section 4, P5: two illegal headers, codes 3 and 4; and a turn of SEQ
that leaves a response. -/
theorem witness_RejectsAreAnsweredAtThePort :
    (let s := { turnOf .host ready with hostCmds := [0x283c0001], hostBytes := [0x00] }
     s.turns = [.agent .host] ∧ portFree s = true ∧ s.hostCmds = [0x283c0001] ∧
      decodeCommand 0x283c0001 s.hostBytes = .reject .reservedBits [] ∧
      decodeCommand 0x40000000 s.hostBytes = .reject .illegalOpcode s.hostBytes) ∧
    (let s := { turnOf .host State.reset with hostCmds := [0x203c0001], hostBytes := [0x00] }
     s.turns = [.agent .host] ∧ portFree s = true ∧ s.hostCmds = [0x203c0001] ∧
      decodeCommand 0x203c0001 s.hostBytes = .ok (.bsend 0x3c [0x00]) [] ∧
      failedCheck (.bsend 0x3c [0x00]) s = some .notInitialised ∧
      failedCheck (.ssendb [0x68, 0x69]) s = some .notInitialised ∧ failedCheck (.binit 0) s = some .argRange) ∧
    (let s := turnOf .seq (phaseDone .stopIssued .write 1 1 0x28)
     (nextTurn s).1 ≠ .agent .host ∧ s.resp = none ∧ ∃ t, step s = .next t ∧ t.resp = some ⟨0x20000000, []⟩) :=
  ⟨by decide, by decide, by decide, rfl, _, rfl, rfl⟩

theorem witness_RejectedCommandChangesNothing :
    ready.resp = none ∧
    ∃ t r, exec (.binit 0) ready = .next t ∧ t.resp = some r ∧ r.word.toNat / 2 ^ 24 % 2 ^ 4 ≠ 0 :=
  ⟨rfl, _, _, rfl, rfl, by decide⟩

theorem witness_StopsByName_refusals :
    portFree { ready with cmd := some .senq } = false ∧ portFree { ready with resp := some ⟨0, []⟩ } = false ∧
    portFree { ready with ph := .stopIssued } = false ∧
    (ready.ph ≠ .startIssued ∧ ready.ph ≠ .addrSent ∧ ready.ph ≠ .dataXfer ∧ ready.ph ≠ .stopIssued) ∧
    ready.bint = false ∧ ready.txip = false ∧ ready.txrdy = true ∧ ready.ph = .idle ∧
    midRead.ph ≠ .idle ∧ midRead.dir = .read ∧ midRead.bint = true ∧
    ((∀ a b, ready.cmd ≠ some (.bsend a b)) ∧ ∀ a n, ready.cmd ≠ some (.brecv a n)) :=
  ⟨by decide, by decide, by decide, by decide, rfl, rfl, rfl, rfl, by decide, rfl, rfl,
    fun _ _ h => (by cases h), fun _ _ h => (by cases h)⟩

theorem witness_StopsByName_faults :
    (let s := { ready8 with txip := true, wcur := 1 }
     s.txie = true ∧ s.txip = true ∧ s.txrdy = true ∧ s.rcur ≠ s.wcur ∧ s.ring.read s.rcur = none) ∧
    (let s := { phaseDone .addrSent .write 1 0 0x18 with txpay := [] }
     s.ph = .addrSent ∧ s.bint = true ∧ s.dir = .write ∧ classify s.cfg.status s.bstat = .ok ∧ s.cnt ≠ 0 ∧
      s.txpay.read s.idx.toNat = none) ∧
    (let s := phaseDone .dataXfer .read 2 2 0x58
     s.ph = .dataXfer ∧ s.bint = true ∧ s.dir = .read ∧ classify s.cfg.status s.bstat = .ok ∧
      s.cnt.toNat ≤ s.idx.toNat) := by decide

/-- Quotient 8 and quotient 263, the ends of the range (95_test_vectors.md 3.2). -/
theorem witness_BinitSetsDivisorAndEnable :
    portFree ready = true ∧ 0 < (1000000 : BitVec 24).toNat ∧
    ready.cfg.fclk / (2 * (1000000 : BitVec 24).toNat) = 8 ∧
    ready.cfg.fclk / (2 * (30304 : BitVec 24).toNat) = 263 := by decide

theorem witness_BinitRejectsArgumentOutOfRange :
    portFree ready = true ∧ (0 : BitVec 24).toNat = 0 ∧
    ready.cfg.fclk / (2 * (1000001 : BitVec 24).toNat) < 8 ∧
    263 < ready.cfg.fclk / (2 * (30303 : BitVec 24).toNat) := by decide

theorem witness_BinitRangeAtSixteenMegahertz : portFree ready = true ∧ ready.cfg.fclk = 16000000 := by decide

theorem witness_BinitIsIdempotent : ∃ t, exec (.binit 100000) ready = .next t := ⟨_, rfl⟩

theorem witness_BusCommandsNeedEnable :
    portFree ready = true ∧ ready.ben = true ∧ portFree State.reset = true ∧ State.reset.ben = false := by decide

theorem witness_BsendStartsTransaction :
    portFree ready = true ∧ ready.ben = true ∧ [(0x00 : Byte)].length < 65536 := by decide

theorem witness_BrecvStartsTransaction : portFree ready = true ∧ ready.ben = true := by decide

theorem witness_PhAddrCommandsAddressByte :
    let s := phaseDone .startIssued .read 2 0 0x08
    s.ph = .startIssued ∧ s.bint = true ∧ classify s.cfg.status s.bstat = .ok ∧
      (0x47 : Byte) = BitVec.ofNat 8 (s.addr.toNat * 2 + (if s.dir = .read then 1 else 0)) := by decide

theorem witness_PhDataFirstCommandsDataOrStop :
    (let s := phaseDone .addrSent .write 1 0 0x18
     s.ph = .addrSent ∧ s.bint = true ∧ classify s.cfg.status s.bstat = .ok ∧ s.idx.toNat < s.cnt.toNat ∧
      s.dir = .write ∧ s.txpay.read s.idx.toNat = some 0xaa) ∧
    (let s := phaseDone .addrSent .write 0 0 0x18
     s.ph = .addrSent ∧ s.bint = true ∧ classify s.cfg.status s.bstat = .ok ∧ s.cnt = 0) ∧
    (let s := phaseDone .addrSent .read 1 0 0x40
     s.ph = .addrSent ∧ s.bint = true ∧ classify s.cfg.status s.bstat = .ok ∧ s.idx.toNat < s.cnt.toNat ∧
      s.dir = .read) := by decide

theorem witness_PhDataWriteCountsAndContinues :
    (let s := phaseDone .dataXfer .write 2 0 0x28
     s.ph = .dataXfer ∧ s.bint = true ∧ s.dir = .write ∧ classify s.cfg.status s.bstat = .ok ∧
      s.idx.toNat + 1 < s.cnt.toNat ∧ s.txpay.read (s.idx.toNat + 1) = some 0xbb) ∧
    (let s := phaseDone .dataXfer .write 0xffff 0xfffe 0x28
     s.ph = .dataXfer ∧ s.bint = true ∧ s.dir = .write ∧ classify s.cfg.status s.bstat = .ok ∧
      s.idx.toNat + 1 = s.cnt.toNat) := by decide

theorem witness_PhDataReadStoresAndContinues :
    (let s := phaseDone .dataXfer .read 2 0 0x50
     s.ph = .dataXfer ∧ s.bint = true ∧ s.dir = .read ∧ classify s.cfg.status s.bstat = .ok ∧
      s.idx.toNat + 1 < s.cnt.toNat) ∧
    (let s := phaseDone .dataXfer .read 2 1 0x58
     s.ph = .dataXfer ∧ s.bint = true ∧ s.dir = .read ∧ classify s.cfg.status s.bstat = .ok ∧
      s.idx.toNat + 1 = s.cnt.toNat) := by decide

theorem witness_FailedPhaseRecordsAndStops :
    (let s := phaseDone .startIssued .write 1 0 0x38
     s.ph = .startIssued ∧ s.bint = true ∧ classify s.cfg.status s.bstat = .fatal ∧ RingOk s) ∧
    (let s := phaseDone .addrSent .write 1 0 0x20
     s.ph = .addrSent ∧ s.bint = true ∧ classify s.cfg.status s.bstat = .recoverable ∧ RingOk s) ∧
    (let s := phaseDone .dataXfer .write 3 1 0x30
     s.ph = .dataXfer ∧ s.dir = .write ∧ s.bint = true ∧ classify s.cfg.status s.bstat = .recoverable ∧ RingOk s) ∧
    (let s := phaseDone .dataXfer .read 3 1 0xf8
     s.ph = .dataXfer ∧ s.dir = .read ∧ s.bint = true ∧ classify s.cfg.status s.bstat = .unrecognized ∧ RingOk s) :=
  ⟨⟨rfl, rfl, by decide, by decide, by decide, by decide, by decide⟩,
    ⟨rfl, rfl, by decide, by decide, by decide, by decide, by decide⟩,
    ⟨rfl, rfl, rfl, by decide, by decide, by decide, by decide, by decide⟩,
    rfl, rfl, rfl, by decide, by decide, by decide, by decide, by decide⟩

theorem witness_PhDoneAnswersBsend :
    (phaseDone .stopIssued .write 1 1 0x28).ph = .stopIssued ∧ (phaseDone .stopIssued .write 1 1 0x28).dir = .write := by
  decide

theorem witness_PhDoneAnswersBrecv :
    let s := { phaseDone .stopIssued .read 2 2 0x58 with rxbuf := [(0, 0x12), (1, 0x34)] }
    s.ph = .stopIssued ∧ s.dir = .read ∧ RingOk s ∧ s.idx.toNat ≤ s.cnt.toNat ∧
      [(0x12 : Byte), 0x34].length = s.idx.toNat ∧
      ∀ i, i < [(0x12 : Byte), 0x34].length → s.rxbuf.read i = [(0x12 : Byte), 0x34][i]? :=
  ⟨rfl, rfl, ⟨by decide, by decide, by decide, by decide⟩, by decide, rfl, by decide⟩

theorem witness_PhyCompleteReportsAnyStatus :
    (let s := { ready with ph := .startIssued, busLog := [.start], phyStatus := [0x08] }
     s.ph = .startIssued ∧ s.bint = false ∧ (∀ k, s.busLog.getLast? ≠ some (.recv k)) ∧ s.phyStatus = [0x08]) ∧
    (let s := { ready with ph := .dataXfer, busLog := [.recv true], phyStatus := [0x50], phyData := [0x12] }
     s.ph = .dataXfer ∧ s.bint = false ∧ s.busLog.getLast? = some (.recv true) ∧ s.phyStatus = [0x50] ∧
      s.phyData = [0x12]) ∧
    ready.phyStatus = [] ∧ ready.phyData = [] := by decide

theorem witness_PatternsCommandThePhy :
    (midRead.dir = .read ∧ midRead.ph = .dataXfer) ∧ ready.dir = .write ∧
    (let s := phaseDone .startIssued .read 1 0 0x08; s.dir = .read ∧ s.ph ≠ .addrSent ∧ s.ph ≠ .dataXfer) := by decide

theorem witness_ClassifyIsTheTable : StatusTable.default.Distinct := by decide

theorem witness_ErrorLineHasItsShape :
    classify .default 0x20 = .recoverable ∧ classify .default 0x38 = .fatal ∧
    classify .default 0xf8 = .unrecognized := by decide

/-- No byte, nine bytes, ten bytes. -/
theorem witness_ReceiveDumpLength :
    (10 ^ 0 ≤ max ([] : List Byte).length 1 ∧ ([] : List Byte).length < 10 ^ 1) ∧
    (10 ^ 0 ≤ max (List.replicate 9 (0 : Byte)).length 1 ∧ (List.replicate 9 (0 : Byte)).length < 10 ^ 1) ∧
    (10 ^ 1 ≤ max (List.replicate 10 (0 : Byte)).length 1 ∧ (List.replicate 10 (0 : Byte)).length < 10 ^ 2) := by decide

theorem witness_NumbersRenderAsText : (0x05 : Byte).toNat = (0x05 : Address).toNat := by decide

theorem witness_OccupancyIsBounded :
    2 ≤ ready8.cfg.cap ∧ (helloRing.rcur ≤ helloRing.wcur ∧ helloRing.wcur < helloRing.cfg.cap) ∧
    (let s := { helloRing with wcur := 0 }; s.wcur < s.rcur ∧ s.rcur < s.cfg.cap) := by decide

/-- Quotient 1 and quotient 4081 (the lowest rate's; 4096 is no rate's at 16 MHz), and the rejected rates beside them. -/
theorem witness_SinitSetsLineRateAndEnables :
    portFree ready = true ∧ 0 < (1000000 : BitVec 24).toNat ∧
    ready.cfg.fclk / (16 * (1000000 : BitVec 24).toNat) = 1 ∧
    ready.cfg.fclk / (16 * (245 : BitVec 24).toNat) = 4081 ∧
    ready.cfg.fclk / (16 * (1000001 : BitVec 24).toNat) < 1 ∧
    4096 < ready.cfg.fclk / (16 * (244 : BitVec 24).toNat) := by decide

theorem witness_SinitRangeAtSixteenMegahertz : portFree State.reset = true ∧ State.reset.cfg.fclk = 16000000 := by
  decide

theorem witness_SsendbNeedsTransmitter :
    portFree ready = true ∧ ready.txen = true ∧ portFree State.reset = true ∧ State.reset.txen = false := by decide

theorem witness_SsendbWritesByteByByte :
    (let s := { ready with cmd := some (.ssendb [0x68, 0x69] 1) }
     s.cmd = some (.ssendb [0x68, 0x69] 1) ∧ [(0x68 : Byte), 0x69][1]? = some 0x69 ∧ s.txrdy = true) ∧
    (let s := { helloRing with cmd := some (.ssendb [0x68, 0x69] 2) }
     s.cmd = some (.ssendb [0x68, 0x69] 2) ∧ 2 = [(0x68 : Byte), 0x69].length) ∧
    [(0x68 : Byte), 0x69].length < 65536 := by decide

theorem witness_SsendbRunSendsItsText :
    let s := { ready with cmd := some (.ssendb [0x68, 0x69] 0), turns := sendSchedule 2 }
    let u := { s with cmd := some (.presented (.ssendb [0x68, 0x69])) }
    (s.cmd = some (.ssendb [0x68, 0x69] 0) ∧ s.txen = true ∧ s.txrdy = true ∧ [(0x68 : Byte), 0x69].length < 65536 ∧
      s.turns = sendSchedule [(0x68 : Byte), 0x69].length ++ []) ∧
    u.cmd = some (.presented (.ssendb [0x68, 0x69])) ∧ u.resp = none ∧ u.ph = .idle := by decide

theorem witness_SenqStagesThenCommits : portFree ready8 = true ∧ RingOk ready8 := ⟨by decide, ringOk_ready8⟩

/-- Nothing to append, an idle channel that is primed, a busy channel. -/
theorem witness_EnqueueAppendsWhatFits :
    RingOk helloRing ∧ 0 = min ([] : List Byte).length (helloRing.cfg.cap - 1 - occupied helloRing) ∧
    (RingOk ready8 ∧ 7 = min (List.replicate 9 (0x61 : Byte)).length (ready8.cfg.cap - 1 - occupied ready8) ∧
      ready8.txrdy = true ∧ ready8.txip = false) ∧
    3 = min (List.replicate 9 (0x61 : Byte)).length (helloRing.cfg.cap - 1 - occupied helloRing) ∧
    helloRing.txrdy = false :=
  ⟨ringOk_helloRing, by decide, ⟨ringOk_ready8, by decide, rfl, rfl⟩, by decide, rfl⟩

theorem witness_EnqueueExtendsTheStream :
    RingOk helloRing ∧ RingBusy helloRing ∧ ∃ v, enqueue [0x21] helloRing = .ok v :=
  ⟨ringOk_helloRing, by decide, _, rfl⟩

theorem witness_IrqDrainSendsOneByte :
    (let s := { helloRing with txrdy := true, txip := true }
     s.txie = true ∧ s.txip = true ∧ s.rcur ≠ s.wcur ∧ s.txrdy = true ∧ s.rcur < s.cfg.cap ∧
      s.ring.read s.rcur = some 0x65) ∧
    (let s := { ready8 with txip := true }; s.txie = true ∧ s.txip = true ∧ s.rcur = s.wcur) ∧
    (let s := { helloRing with txip := true }; s.txip = true ∧ s.txrdy = false) := by decide

theorem witness_UartDoneTakesTheByte : helloRing.txrdy = false ∧ helloRing.txen = true := by decide

/-- A step that leaves the stream, the commit of a SENQ, a failed phase, the byte step of a SSENDB, and the one that takes
it from the port. -/
theorem witness_StreamIsFirstInFirstOut :
    (Invariant midRead ∧ ∃ t, step midRead = .next t ∧ stream t = stream midRead) ∧
    (Invariant stagedZ ∧ ∃ t, step stagedZ = .next t ∧ stream t = stream stagedZ ++ [0x5a]) ∧
    (let s := { midRead with bstat := 0x38 }
     Invariant s ∧ ∃ t, step s = .next t ∧ stream t = stream s ++ [0x54, 0x57, 0x49]) ∧
    (Invariant sendX ∧ ∃ t, step sendX = .next t ∧ stream t = [0x78, 0x65, 0x6c, 0x6c, 0x6f]) ∧
    (Invariant presentX ∧ ∃ t, step presentX = .next t ∧ stream t = [0x78, 0x65, 0x6c, 0x6c, 0x6f]) :=
  ⟨⟨invariant_midRead, _, rfl, by decide⟩, ⟨invariant_stagedZ, _, rfl, by decide⟩,
    ⟨{ invariant_midRead with ring := ⟨by decide, by decide, by decide, by decide⟩ }, _, rfl, by decide⟩,
    ⟨invariant_sendX, _, rfl, by decide⟩, invariant_presentX, _, rfl, by decide⟩

/-- A byte in the transmitter; a completion pending; the idle channel. -/
theorem witness_SettlingPutsTheStreamOnTheWire :
    (let s := { midRead with turns := drainSchedule 5 }
     Invariant s ∧ s.txen = true ∧ s.turns = drainSchedule (occupied s + 1) ++ []) ∧
    (let s := { sendX with turns := drainSchedule 5 }
     Invariant s ∧ s.txen = true ∧ s.txrdy = true ∧ s.turns = drainSchedule (occupied s + 1) ++ []) ∧
    (let s := { settled with turns := drainSchedule 1 }
     Invariant s ∧ s.txen = true ∧ s.txrdy = true ∧ s.turns = drainSchedule (occupied s + 1) ++ []) :=
  ⟨⟨invariant_turns invariant_midRead _ (by decide), rfl, by decide⟩,
    ⟨invariant_turns invariant_sendX _ (by decide), rfl, rfl, by decide⟩,
    invariant_turns invariant_settled _ (by decide), rfl, rfl, by decide⟩

/-- HOST alone, while PROD waits: nothing moves. -/
theorem waitX_host_only (k : Nat) :
    runSteps k (scheduled (fun _ => .host) k waitX) = .next { waitX with turns := [] } := by
  induction k with
  | zero => rfl
  | succ k ih =>
    refine Eq.trans ?_ ih
    have hs : step (scheduled (fun _ => .host) (k + 1) waitX) = .next (scheduled (fun _ => .host) k waitX) := by
      have ht : (scheduled (fun _ => Agent.host) (k + 1) waitX).turns =
          .agent .host :: (scheduled (fun _ => .host) k waitX).turns := scheduled_turns (fun _ => .host) k waitX
      exact (step_cons ht).trans rfl
    exact runSteps_next hs

/-- Over with TXEN = 1, over with TXEN = 0, SEQ waiting with a silent PHY, PROD waiting with a silent UART, and a run
that waits for ever. -/
theorem witness_RunIsOverOrWaits :
    (Invariant settled ∧ settled.txen = true ∧ runOver settled = true ∧
      ∃ t, step (turnOf .uart settled) = .next t ∧ runOver t = true) ∧
    (Invariant neverSinit ∧ neverSinit.txen = false ∧ runOver neverSinit = true ∧ occupied neverSinit = 1) ∧
    (let s := { midRead with bint := false, turns := [.agent .drain] }
     Invariant s ∧ s.ph = .dataXfer ∧ s.bint = false ∧ ∀ k, (fun _ : Nat => Agent.seq) k ≠ .phy) ∧
    (Invariant waitX ∧ waitX.cmd = some (.ssendb [0x78] 0) ∧ 0 < [(0x78 : Byte)].length ∧ waitX.txrdy = false ∧
      ∀ k, (fun _ : Nat => Agent.host) k ≠ .uart) ∧
    WaitsForEver (fun _ => .host) waitX :=
  ⟨⟨invariant_settled, rfl, by decide, _, rfl, by decide⟩, ⟨invariant_neverSinit, rfl, by decide, by decide⟩,
    ⟨invariant_waiting, rfl, rfl, fun _ h => (by cases h)⟩,
    ⟨invariant_waitX, rfl, by decide, rfl, fun _ h => (by cases h)⟩,
    .inr fun k => ⟨_, waitX_host_only k, by decide⟩⟩

/-- A data byte has completed; a BSEND is at the port. -/
theorem witness_PhaseTransitionsAreTheTable :
    (Invariant midRead ∧ ∃ t, step midRead = .next t) ∧
    (let s := withCommand .seq (.bsend 0x3c [0x00]) helloRing
     Invariant s ∧ ∃ t, step s = .next t ∧ t.ph = .startIssued) :=
  ⟨witness_StepKeepsInvariant,
    { invariant_helloRing with
      ring := ⟨by decide, by decide, by decide, by decide⟩, onePort := by decide, staged := by decide
      agents := by decide, presented := fun _ h => (by cases h; exact ⟨by decide, rfl⟩)
      started := ⟨fun _ _ h => (by cases h), fun _ _ h => (by cases h)⟩ }, _, rfl, rfl⟩

theorem witness_EveryTransactionStopsOnce :
    NextIsAgent midRead ∧ StopsBalanceStarts midRead ∧ ∃ t, step midRead = .next t := ⟨by decide, by decide, _, rfl⟩

theorem witness_BusLogFollowsTheProtocol :
    Invariant midRead ∧ LogFollowsPhase midRead ∧ ∃ t, step midRead = .next t :=
  ⟨invariant_midRead, show transactionLog midRead 2 <:+ midRead.busLog by decide, _, rfl⟩

theorem witness_FailureRecordsChangeOnlyByFailure :
    ∃ t, step (turnOf .seq (phaseDone .addrSent .write 1 0 0x20)) = .next t ∧ t.lasterr = 0x20 := ⟨_, rfl, by decide⟩

theorem witness_EnablesAndParametersPersist :
    ∃ t, step midRead = .next t ∧ midRead.ben = true ∧ midRead.txen = true ∧ midRead.txie = true := ⟨_, rfl, by decide⟩

theorem witness_ChannelStepsLeaveTheBusController :
    let s := turnOf .uart midRead
    s.turns = [.agent .uart] ∧ ∃ t, step s = .next t ∧ t.wire = [0x68] := ⟨rfl, _, rfl, by decide⟩

theorem witness_DebugPortReadsTheMap :
    ready.ph = .idle ∧ ready.bres = .ok ∧ (0x0a < 0x0b ∧ 0x0b < 0x10) ∧ 0x16 < 0x17 := by decide

theorem witness_BsendRunsToItsResponse :
    portFree sendRun = true ∧ sendRun.ben = true ∧
    (0x203c0002 : Word).toNat = 2 * 2 ^ 28 + (0x3c : Address).toNat * 2 ^ 16 + [(0xaa : Byte), 0xbb].length ∧
    sendRun.hostCmds = [0x203c0002] ∧ sendRun.hostBytes = [0xaa, 0xbb] ++ [] ∧
    (∀ v ∈ sendRun.phyStatus, classify sendRun.cfg.status v = .ok) ∧
    sendRun.phyStatus.length = [(0xaa : Byte), 0xbb].length + 2 ∧ sendRun.turns = transactionSchedule 4 ++ [] := by decide

theorem witness_BrecvRunsToItsResponse :
    (portFree receiveRun = true ∧ receiveRun.ben = true ∧
    (0x30230002 : Word).toNat = 3 * 2 ^ 28 + (0x23 : Address).toNat * 2 ^ 16 + [(0x12 : Byte), 0x34].length ∧
    receiveRun.hostCmds = [0x30230002] ∧ receiveRun.phyData = [0x12, 0x34] ++ [] ∧
    (∀ v ∈ receiveRun.phyStatus, classify receiveRun.cfg.status v = .ok) ∧
    receiveRun.phyStatus.length = [(0x12 : Byte), 0x34].length + 2 ∧ receiveRun.turns = transactionSchedule 4 ++ []) ∧
    RingOk receiveRun :=
  ⟨by decide, by decide, by decide, by decide, by decide⟩

end Sys2Proof.Tests
end

section
/-! PROOF. No step of a state that meets the invariant stops (O5). -/

namespace Sys2Proof.Machine

/-! The state that a turn is taken from. -/

/-- Taking the next turn off the list keeps the invariant. -/
theorem Invariant.nextTurn {s : State} (h : Invariant s) : Invariant (nextTurn s).2 := by
  unfold Machine.nextTurn
  split
  · next t ts ht =>
    have agents : ∀ t' ∈ ts, t'.isAgent = true := fun t' ht' => h.agents t' (by simp [ht, ht'])
    exact { h with ring := { h.ring with }, agents }
  · exact { h with ring := { h.ring with } }

/-- Under the invariant it is an agent that moves next. -/
theorem Invariant.nextIsAgent {s : State} (h : Invariant s) : NextIsAgent s := by
  unfold NextIsAgent Machine.nextTurn
  split
  · next t ts ht => exact h.agents t (by simp [ht])
  · rfl

/-! What each agent's turn needs in order to complete. -/

/-- The outcome is a next state. -/
def Completes (o : Host.Outcome State Fault Refusal) : Prop := ∃ t, o = .next t

theorem completes_next (s : State) : Completes (.next s) := ⟨s, rfl⟩

theorem completes_outcomeOf {r : Except Fault State} (h : ∃ v, r = .ok v) : Completes (outcomeOf r) := by
  obtain ⟨v, rfl⟩ := h
  exact completes_next v

/-- HOST's turn never stops. -/
theorem hostTurn_completes (s : State) : Completes (hostTurn s) := by
  unfold hostTurn
  repeat' split
  all_goals exact completes_next _

/-- A unit that finds a command at the port takes it. -/
theorem takeCommand_completes {a : Agent} {i : Instr} {s : State} (hc : atPort a s = some i) :
    Completes (takeCommand i s) := by
  have hu := (atPort_iff.1 hc).2.1
  cases i with
  | binit x => cases hu; obtain ⟨d, -, h⟩ := takeCommand_binit hc; exact ⟨_, h⟩
  | bsend b bs => cases hu; exact ⟨_, takeCommand_bsend hc⟩
  | brecv b n => cases hu; exact ⟨_, takeCommand_brecv hc⟩
  | sinit x => cases hu; obtain ⟨d, -, h⟩ := takeCommand_sinit hc; exact ⟨_, h⟩
  | ssendb text => cases hu; exact ⟨_, takeCommand_ssendb hc⟩
  | senq text => cases hu; exact ⟨_, takeCommand_senq hc⟩
  | _ => cases hu

/-- `i` is the sequencer operation that evaluates the phase in progress (41_bus_phases.md R124 to R127). -/
def EvaluatesPhase (i : Instr) (s : State) : Prop :=
  i = .phAddr ∧ s.ph = .startIssued ∨ i = .phDataFirst ∧ s.ph = .addrSent ∨
    i = .phDataW ∧ s.ph = .dataXfer ∧ s.dir = .write ∨ i = .phDataR ∧ s.ph = .dataXfer ∧ s.dir = .read

theorem exec_phAddr_ok {s : State} (hp : s.ph = .startIssued) (hb : s.bint = true)
    (hk : classify s.cfg.status s.bstat = .ok) :
    exec .phAddr s = .next { phyIssue (.xmit (addressByte s.addr s.dir)) s with ph := .addrSent } := by
  simp only [exec, execPhAddr, hp, hb, hk, and_self, if_true]

theorem exec_phDataFirst_ok {s : State} (hp : s.ph = .addrSent) (hb : s.bint = true)
    (hk : classify s.cfg.status s.bstat = .ok) :
    exec .phDataFirst s = if s.cnt = 0 then .next (stop s) else outcomeOf (issueData s) := by
  simp only [exec, execPhDataFirst, hp, hb, hk, and_self, if_true]

theorem exec_phDataW_ok {s : State} (hp : s.ph = .dataXfer) (hd : s.dir = .write) (hb : s.bint = true)
    (hk : classify s.cfg.status s.bstat = .ok) : exec .phDataW s = outcomeOf (nextData s) := by
  simp only [exec, execPhDataW, hp, hd, hb, hk, and_self, if_true]

theorem exec_phDataR_ok {s : State} (hp : s.ph = .dataXfer) (hd : s.dir = .read) (hb : s.bint = true)
    (hk : classify s.cfg.status s.bstat = .ok) (hi : s.idx.toNat < s.cnt.toNat) :
    exec .phDataR s = outcomeOf (nextData { s with rxbuf := s.rxbuf.write s.idx.toNat s.bdata }) := by
  have hs : storeReceived s = .ok { s with rxbuf := s.rxbuf.write s.idx.toNat s.bdata } := if_pos hi
  simp only [exec, execPhDataR, hp, hd, hb, hk, hs, and_self, if_true]

/-- A phase that is not OK ends in `Fail(c); Stop()`, whichever phase it is. -/
theorem exec_phase_failed {i : Instr} {s : State} {c : StatusClass} (hi : EvaluatesPhase i s) (hb : s.bint = true)
    (hk : classify s.cfg.status s.bstat = c) (hn : c ≠ .ok) : exec i s = outcomeOf (failAndStop c s) := by
  obtain ⟨rfl, hp⟩ | ⟨rfl, hp⟩ | ⟨rfl, hp, hd⟩ | ⟨rfl, hp, hd⟩ := hi
  · cases c <;> simp_all [exec, execPhAddr]
  · cases c <;> simp_all [exec, execPhDataFirst]
  · cases c <;> simp_all [exec, execPhDataW]
  · cases c <;> simp_all [exec, execPhDataR]

/-- In a phase that waits PHSEL selects the operation that evaluates it. -/
theorem decodePhSel_of_waits {s : State} (h : s.ph.waits = true) :
    ∃ i, decodePhSel (phSelector s) = .ok i [] ∧ EvaluatesPhase i s := by
  unfold phSelector EvaluatesPhase
  cases hp : s.ph with
  | idle => simp [hp, Phase.waits] at h
  | startIssued => exact ⟨.phAddr, by cases s.dir <;> rfl, by simp⟩
  | addrSent => exact ⟨.phDataFirst, by cases s.dir <;> rfl, by simp⟩
  | dataXfer =>
    cases hd : s.dir with
    | write => exact ⟨.phDataW, rfl, by simp⟩
    | read => exact ⟨.phDataR, rfl, by simp⟩
  | stopIssued => simp [hp, Phase.waits] at h

theorem decodePhSel_of_stopIssued {s : State} (h : s.ph = .stopIssued) :
    decodePhSel (phSelector s) = .ok .phDone [] := by
  unfold phSelector
  rw [h]
  cases s.dir <;> rfl

/-- Under the invariant a completed phase is evaluated without a stop. -/
theorem Invariant.evaluatesPhase_completes {i : Instr} {s : State} (h : Invariant s) (hi : EvaluatesPhase i s)
    (hb : s.bint = true) : Completes (exec i s) := by
  by_cases hk : classify s.cfg.status s.bstat = .ok
  · have payload (hp : s.ph.waits = true) (hd : s.dir = .write) := h.payload hp hd
    obtain ⟨rfl, hp⟩ | ⟨rfl, hp⟩ | ⟨rfl, hp, hd⟩ | ⟨rfl, hp, hd⟩ := hi
    · exact ⟨_, exec_phAddr_ok hp hb hk⟩
    · rw [exec_phDataFirst_ok hp hb hk]
      split
      · exact completes_next _
      · next hc =>
        have hlt : s.idx.toNat < s.cnt.toNat := by
          rw [h.idxZero (.inr hp)]
          exact Nat.pos_of_ne_zero fun h0 => hc (BitVec.eq_of_toNat_eq h0)
        exact completes_outcomeOf (issueData_ok hlt fun hd => payload (by rw [hp]; rfl) hd _ hlt)
    · rw [exec_phDataW_ok hp hd hb hk]
      exact completes_outcomeOf (nextData_ok (h.idxLt hp) (payload (by rw [hp]; rfl)))
    · rw [exec_phDataR_ok hp hd hb hk (h.idxLt hp)]
      exact completes_outcomeOf (nextData_ok (h.idxLt hp) (payload (by rw [hp]; rfl)))
  · rw [exec_phase_failed hi hb rfl hk]
    exact completes_outcomeOf (failAndStop_ok h.ring _)

/-- Under the invariant PH.DONE completes: what a BRECV answers with has been received. -/
theorem Invariant.phDone_completes {s : State} (h : Invariant s) (hp : s.ph = .stopIssued) :
    Completes (exec .phDone s) := by
  simp only [exec, execPhDone, hp, if_true]
  split
  · next hd =>
    obtain ⟨bs, hl, hbs⟩ := listed_bytes s.rxbuf s.idx.toNat (h.received (by simp [hp]) hd)
    have hr : memReadRange .rxbuf s 0 s.idx.toNat = .ok bs :=
      memReadRange_ok bs hl (by simpa [spaceSize] using h.idxLe) fun i hi => by simpa [State.mem] using hbs i hi
    obtain ⟨w, hw⟩ := enqueue_ok h.ring (diagText s (.rxDump s.addr bs))
    exact completes_outcomeOf ⟨_, finishReceive_eq hr hw⟩
  · exact completes_next _

/-- Under the invariant SEQ has a step only where a phase has completed or the stop is issued: no accepted command
waits for its PH.START. -/
theorem Invariant.seqReady_cases {s : State} (h : Invariant s) (hr : seqReady s = true) :
    s.ph.waits = true ∧ s.bint = true ∨ s.ph = .stopIssued := by
  obtain ⟨noSend, noReceive⟩ := h.started
  unfold seqReady at hr
  cases hp : s.ph <;> simp only [hp] at hr
  case idle =>
    split at hr
    · exact absurd ‹_› (noSend _ _)
    · exact absurd ‹_› (noReceive _ _)
    all_goals cases hr
  case stopIssued => exact .inr rfl
  all_goals exact .inl ⟨rfl, hr⟩

/-- SEQ takes a command, evaluates a completed phase, ends a transaction, or waits. -/
theorem Invariant.seqTurn_completes {s : State} (h : Invariant s) : Completes (seqTurn s) := by
  unfold seqTurn
  split
  · exact takeCommand_completes ‹_›
  · split
    · next hr =>
      obtain ⟨hw, hb⟩ | hp := h.seqReady_cases hr
      · obtain ⟨i, hd, hi⟩ := decodePhSel_of_waits hw
        rw [hd]
        exact h.evaluatesPhase_completes hi hb
      · rw [decodePhSel_of_stopIssued hp]
        exact h.phDone_completes hp
    · exact completes_next s

/-- PROD takes a command, makes the step of the one it has, or has none to make. -/
theorem Invariant.prodTurn_completes {s : State} (h : Invariant s) : Completes (prodTurn s) := by
  unfold prodTurn prodStep
  split
  · exact takeCommand_completes ‹_›
  · split
    · exact completes_next _
    · exact completes_outcomeOf (senqCommit_ok h.ring)
    all_goals exact completes_next _

/-- DRAIN takes a byte from the ring only when there is one. -/
theorem Invariant.drainTurn_completes {s : State} (h : Invariant s) : Completes (drainTurn s) := by
  unfold drainTurn decodeIrqSel
  split
  · next hsel =>
    have hq : irqRequest s = true := by
      unfold irqRequest
      cases hi : s.txie <;> cases hp : s.txip <;> simp_all [bit]
    simp only [runDecoded, exec, execIrqDrain, hq, if_true]
    split
    · next hne =>
      have hn : 0 < occupied s := Nat.pos_of_ne_zero fun h0 => hne.1 (h.ring.occupied_eq_zero.1 h0)
      obtain ⟨b, hb⟩ := h.ring.oldest hn
      exact completes_outcomeOf ⟨_, ringToTx_eq (s := { s with txip := false }) h.ring.rcurLt hb⟩
    · exact completes_next _
  · exact completes_next s

/-- UART.DONE is selected only where it is enabled. -/
theorem uartTurn_completes (s : State) : Completes (uartTurn s) := by
  unfold uartTurn decodeUartSel
  split
  · next hsel =>
    have he : uartDoneEnabled s = true := by
      unfold uartDoneEnabled
      cases hi : s.txen <;> cases hp : s.txrdy <;> simp_all [bit]
    simp only [runDecoded, exec, execUartDone, he, if_true]
    exact completes_next _
  · exact completes_next s

/-- PHY.COMPLETE is selected only where it is enabled. -/
theorem phyTurn_completes (s : State) : Completes (phyTurn s) := by
  unfold phyTurn decodePhySel
  split
  · next hw =>
    split
    · next hsel =>
      have he : phyCompleteEnabled s = true := by
        unfold phyCompleteEnabled
        cases hb : s.bint <;> simp_all [bit]
      simp only [runDecoded, exec, execPhyComplete, he, if_true]
      split <;> exact completes_next _
    · exact completes_next s
  · exact completes_next s

/-- Under the invariant the turn of every agent completes. -/
theorem Invariant.runTurn_completes {t : Turn} {s : State} (h : Invariant s) (ht : t.isAgent = true) :
    Completes (runTurn t s) := by
  cases t with
  | bctl v => cases ht
  | agent a =>
    cases a with
    | host => exact hostTurn_completes s
    | seq => exact h.seqTurn_completes
    | prod => exact h.prodTurn_completes
    | drain => exact h.drainTurn_completes
    | uart => exact uartTurn_completes s
    | phy => exact phyTurn_completes s

/-- Settles O5: an agent moves, from a state that still meets the invariant, and its turn completes. -/
theorem stepFromInvariantCompletes : Obligations.StepFromInvariantCompletes := by
  intro s h
  exact h.nextTurn.runTurn_completes h.nextIsAgent

end Sys2Proof.Machine
end

section
/-! PROOF. What no step changes but by its rule: the enables, the parameters and the failure records (O55, O56). -/

namespace Sys2Proof.Machine

/-! The operations that `Effect` names by their answer, each with everything it can touch. -/

theorem issueData_frame {s v : State} (h : issueData s = .ok v) :
    v = { s with bdata := v.bdata, bctl := v.bctl, bint := v.bint, busLog := v.busLog, ph := v.ph } := by
  obtain ⟨b, -, -, -, rfl⟩ | ⟨-, rfl⟩ := issueData_cases h <;> rfl

theorem nextData_frame {s v : State} (h : nextData s = .ok v) :
    v = { s with
      idx := v.idx, bdata := v.bdata, bctl := v.bctl, bint := v.bint, busLog := v.busLog, ph := v.ph } := by
  unfold nextData issueDataOrStop at h
  split at h
  · rw [issueData_frame h]
  · cases h; rfl

theorem received_frame {s w v : State} (hw : storeReceived s = .ok w) (h : nextData w = .ok v) :
    v = { s with
      rxbuf := v.rxbuf, idx := v.idx, bdata := v.bdata, bctl := v.bctl, bint := v.bint, busLog := v.busLog
      ph := v.ph } := by
  obtain ⟨-, rfl⟩ := storeReceived_cases hw
  rw [nextData_frame h]

theorem senqCommit_frame {s v : State} (h : senqCommit s = .ok v) :
    v = { s with
      ring := v.ring, wcur := v.wcur, rcur := v.rcur, txdata := v.txdata, txrdy := v.txrdy, stage := v.stage
      cmd := v.cmd, resp := v.resp } := by
  obtain ⟨w, hw, rfl⟩ := senqCommit_cases h
  rw [enqueue_frame hw]
  rfl

/-- The end of a BRECV logs one dump; of the records it touches no other. -/
theorem finishReceive_frame {s v : State} (h : finishReceive s = .ok v) :
    ∃ bs, v = { s with
      ring := v.ring, wcur := v.wcur, rcur := v.rcur, txdata := v.txdata, txrdy := v.txrdy, stage := v.stage
      cmd := v.cmd, resp := v.resp, ph := .idle, diagLog := s.diagLog ++ [.rxDump s.addr bs] } := by
  obtain ⟨bs, w, -, hw, rfl⟩ := finishReceive_cases h
  refine ⟨bs, ?_⟩
  rw [enqueue_frame hw]
  rfl

/-- `Fail(c); Stop()` records the failure and one error line, and is in STOP_ISSUED. -/
theorem failAndStop_frame {c : StatusClass} {s v : State} (h : failAndStop c s = .ok v) :
    v = { s with
      ring := v.ring, wcur := v.wcur, rcur := v.rcur, txdata := v.txdata, txrdy := v.txrdy, stage := v.stage
      bctl := v.bctl, bint := v.bint, busLog := v.busLog, ph := .stopIssued, bres := c, lasterr := s.bstat
      diagLog := s.diagLog ++ [.errLine c s.bstat s.addr] } := by
  obtain ⟨w, hw, rfl⟩ := failAndStop_cases h
  rw [enqueue_frame hw]
  rfl

theorem waits_cases {p : Phase} (h : p.waits = true) : p = .startIssued ∨ p = .addrSent ∨ p = .dataXfer := by
  cases p <;> simp_all [Phase.waits]

/-! Enables and parameters. -/

/-- The parameters are the same, and every enable that was set is set. -/
def EnablesKept (u v : State) : Prop :=
  v.cfg = u.cfg ∧ (u.ben = true → v.ben = true) ∧ (u.txen = true → v.txen = true) ∧ (u.txie = true → v.txie = true)

/-- A state that agrees in the parameters and the enables keeps them. -/
theorem EnablesKept.of_eq {u v : State} (hc : v.cfg = u.cfg) (hb : v.ben = u.ben) (he : v.txen = u.txen)
    (hi : v.txie = u.txie) : EnablesKept u v := by
  unfold EnablesKept
  rw [hc, hb, he, hi]
  exact ⟨rfl, id, id, id⟩

theorem Effect.enablesKept {t : Turn} {u v : State} (h : Effect t u v) : EnablesKept u v := by
  cases h with
  | binit => exact ⟨rfl, fun _ => rfl, id, id⟩
  | sinit => exact ⟨rfl, id, fun _ => rfl, fun _ => rfl⟩
  | failed _ _ _ _ _ _ _ h => rw [failAndStop_frame h]; exact .of_eq rfl rfl rfl rfl
  | firstData _ _ _ _ _ _ h => rw [issueData_frame h]; exact .of_eq rfl rfl rfl rfl
  | written _ _ _ _ _ _ h => rw [nextData_frame h]; exact .of_eq rfl rfl rfl rfl
  | received _ _ _ _ _ _ _ hw h => rw [received_frame hw h]; exact .of_eq rfl rfl rfl rfl
  | doneRead _ _ _ _ h => obtain ⟨bs, hv⟩ := finishReceive_frame h; rw [hv]; exact .of_eq rfl rfl rfl rfl
  | commit _ _ _ h => rw [senqCommit_frame h]; exact .of_eq rfl rfl rfl rfl
  | drain _ _ _ _ _ h => obtain ⟨b, -, -, rfl⟩ := ringToTx_cases h; exact .of_eq rfl rfl rfl rfl
  | phy _ _ _ _ _ _ _ _ _ hv => subst hv; exact .of_eq rfl rfl rfl rfl
  | _ => exact .of_eq rfl rfl rfl rfl

/-- Settles O56: no effect of a step clears an enable or changes a parameter, and taking the turn touches neither. -/
theorem enablesAndParametersPersist : Obligations.EnablesAndParametersPersist := by
  intro s t h
  have he := step_effect h
  rw [nextTurn_frame] at he
  exact he.enablesKept

/-! Failure records. -/

/-- Settles O55: of the effects of a step, a PH.START clears BRES, the end of a BRECV logs its dump, a phase that is
not OK records itself, and every other one leaves the records alone. -/
theorem failureRecordsChangeOnlyByFailure : Obligations.FailureRecordsChangeOnlyByFailure := by
  intro s t h
  have he := step_effect h
  rw [nextTurn_frame] at he
  cases he with
  | startWrite _ _ _ hi => exact .inr (.inl ⟨hi, rfl, rfl, rfl, rfl⟩)
  | startRead _ _ _ hi => exact .inr (.inl ⟨hi, rfl, rfl, rfl, rfl⟩)
  | doneRead _ _ hi hd h =>
    obtain ⟨bs, hv⟩ := finishReceive_frame h
    rw [hv]
    exact .inr (.inr (.inl ⟨hi, hd, rfl, rfl, rfl, bs, rfl⟩))
  | failed _ c _ hi hb hk hn h =>
    subst hk
    rw [failAndStop_frame h]
    exact .inr (.inr (.inr ⟨waits_cases hi, hb, hn, rfl, rfl, rfl, rfl⟩))
  | firstData _ _ _ _ _ _ h => rw [issueData_frame h]; exact .inl ⟨rfl, rfl, rfl⟩
  | written _ _ _ _ _ _ h => rw [nextData_frame h]; exact .inl ⟨rfl, rfl, rfl⟩
  | received _ _ _ _ _ _ _ hw h => rw [received_frame hw h]; exact .inl ⟨rfl, rfl, rfl⟩
  | commit _ _ _ h => rw [senqCommit_frame h]; exact .inl ⟨rfl, rfl, rfl⟩
  | drain _ _ _ _ _ h => obtain ⟨b, -, -, rfl⟩ := ringToTx_cases h; exact .inl ⟨rfl, rfl, rfl⟩
  | phy _ _ _ _ _ _ _ _ _ hv => subst hv; exact .inl ⟨rfl, rfl, rfl⟩
  | _ => exact .inl ⟨rfl, rfl, rfl⟩

end Sys2Proof.Machine
end

section
/-! PROOF. Commands run in their unit (O6), the model's stops (O16), the debug read port (O58). -/

namespace Sys2Proof.Machine

/-! HOST and the command port. -/

/-- HOST touches its scripts, the outstanding command and the response only. -/
theorem hostTurn_frame {s v : State} (h : hostTurn s = .next v) :
    v = { s with hostCmds := v.hostCmds, hostBytes := v.hostBytes, cmd := v.cmd, resp := v.resp } := by
  unfold hostTurn at h
  repeat' split at h
  all_goals cases h; rfl

/-- The unit of a decoded command is told by bit 31 of its header (30_encoding.md R82). -/
theorem commandUnit_header {h : Word} {bytes rest : List Byte} {i : Instr} (hd : decodeCommand h bytes = .ok i rest) :
    commandUnit i = some (if h.toNat / 2 ^ 31 = 0 then .seq else .prod) := by
  have top_bit : h.toNat / 2 ^ 31 = h.toNat / 2 ^ 28 / 8 := by omega
  unfold decodeCommand decodeHeader at hd
  simp only [headerOpc_eq_iff] at hd
  repeat' split at hd
  all_goals cases hd
  all_goals
    rw [top_bit, ‹h.toNat / 2 ^ 28 = _›]
    rfl

/-! The meaning of a command that passes its check, in a state with the port free. -/

theorem exec_binit_accepted {s : State} {x : BitVec 24} {d : Byte} (hp : portFree s = true)
    (hd : busDivisor s.cfg.fclk x = some d) :
    exec (.binit x) s = .next (respond 0x1 0 [] { s with bdiv := d, ben := true }) := by
  simp only [exec, execBinit, hp, hd, if_true]

theorem exec_bsend_accepted {s : State} {a : Address} {b : List Byte} (hp : portFree s = true) (he : s.ben = true) :
    exec (.bsend a b) s = .next { s with cmd := some (.bsend a b) } := by
  simp only [exec, execBsend, acceptBus, hp, he, if_true]

theorem exec_brecv_accepted {s : State} {a : Address} {n : BitVec 16} (hp : portFree s = true) (he : s.ben = true) :
    exec (.brecv a n) s = .next { s with cmd := some (.brecv a n) } := by
  simp only [exec, execBrecv, acceptBus, hp, he, if_true]

theorem exec_sinit_accepted {s : State} {x : BitVec 24} {d : BitVec 12} (hp : portFree s = true)
    (hd : lineDivisor s.cfg.fclk x = some d) :
    exec (.sinit x) s = .next (respond 0x9 0 [] { s with sdiv := d, txen := true, txie := true }) := by
  simp only [exec, execSinit, hp, hd, if_true]

theorem exec_ssendb_accepted {s : State} {text : List Byte} (hp : portFree s = true) (he : s.txen = true) :
    exec (.ssendb text) s = .next { s with cmd := some (.ssendb text 0) } := by
  simp only [exec, execSsendb, hp, he, if_true]

theorem exec_senq_accepted {s : State} {text : List Byte} (hp : portFree s = true) :
    exec (.senq text) s = .next { stageText text s with cmd := some .senq } := by
  simp only [exec, execSenq, hp, if_true]

/-- The step of the unit that finds a command at the port takes it. -/
theorem step_atPort {s : State} {a : Agent} {ts : List Turn} {i : Instr} (ht : s.turns = .agent a :: ts)
    (hc : atPort a { s with turns := ts } = some i) : step s = takeCommand i { s with turns := ts } := by
  rw [step_cons ht]
  obtain ⟨-, hu, -⟩ := atPort_iff.1 hc
  cases i <;> cases hu <;> simp only [runTurn, seqTurn, prodTurn, hc]

/-- The step that takes a command runs its meaning with the port free, then goes on. -/
theorem takeCommand_of_exec {s v : State} {i : Instr} (h : exec i { s with cmd := none } = .next v) :
    takeCommand i s = afterAcceptance v := by
  rw [takeCommand, h]

/-- The checks of a command do not look at the turns. -/
theorem failedCheck_turns (i : Instr) (s : State) (ts : List Turn) :
    failedCheck i { s with turns := ts } = failedCheck i s := by
  cases i <;> rfl

/-- Settles O6, clause by clause: HOST's frame, what HOST presents, and the step of the unit that takes it. -/
theorem decodedCommandRunsInItsUnit : Obligations.DecodedCommandRunsInItsUnit := by
  refine ⟨?_, ?_, ?_⟩
  · intro s ts t ht h
    rw [step_cons ht] at h
    exact hostTurn_frame h
  · intro s ts h hs i rest ht hp hc hd hk
    rw [← failedCheck_turns i s ts] at hk
    rw [step_cons ht]
    exact ⟨hostTurn_present (s := { s with turns := ts }) hp hc hd hk, commandUnit_header hd⟩
  · rintro s a ts i _ ht hc hu hk hr hi rfl
    have hport : atPort a { s with turns := ts } = some i :=
      atPort_iff.2 ⟨hc, hu, (failedCheck_turns i s ts).trans hk, hr, hi⟩
    have hfree := portFree_taken hport
    have runs {v : State} (h : exec i { s with turns := ts, cmd := none } = .next v) : step s = afterAcceptance v :=
      (step_atPort ht hport).trans (takeCommand_of_exec h)
    refine ⟨?_, ?_, ?_⟩
    · rintro (⟨x, rfl | rfl⟩ | ⟨text, rfl⟩)
      · obtain ⟨d, hd⟩ := failedCheck_binit.1 hk
        have he := exec_binit_accepted hfree hd
        exact (runs he).trans he.symm
      · obtain ⟨d, hd⟩ := failedCheck_sinit.1 hk
        have he := exec_sinit_accepted hfree hd
        exact (runs he).trans he.symm
      · have he := exec_senq_accepted (text := text) hfree
        exact (runs he).trans he.symm
    · rintro (⟨d, b, rfl⟩ | ⟨d, n, rfl⟩)
      · have he := exec_bsend_accepted (a := d) (b := b) hfree (show s.ben = true from failedCheck_bsend.1 hk)
        exact ⟨_, he, runs he⟩
      · have he := exec_brecv_accepted (a := d) (n := n) hfree (show s.ben = true from failedCheck_brecv.1 hk)
        exact ⟨_, he, runs he⟩
    · rintro ⟨text, rfl⟩
      have he := exec_ssendb_accepted (text := text) hfree (show s.txen = true from failedCheck_ssendb.1 hk)
      exact ⟨_, he, runs he⟩

/-! The stops. -/

/-- No command has a meaning while another is outstanding (93_implementation_defined.md item 1). -/
theorem exec_command_refused {s : State} {i : Instr} (hu : commandUnit i ≠ none) (hp : portFree s = false) :
    exec i s = .refused .commandOutstanding := by
  have hp' : ¬ portFree s = true := by simp [hp]
  cases i with
  | binit x => exact if_neg hp'
  | bsend a b => exact if_neg hp'
  | brecv a n => exact if_neg hp'
  | sinit x => exact if_neg hp'
  | ssendb text => exact if_neg hp'
  | senq text => exact if_neg hp'
  | _ => exact absurd rfl hu

/-- A byte that no rule has written cannot be read, in range or not (10_state.md R44). -/
theorem memRead_unwritten {sp : Space} {a : Nat} {s : State} (h : (s.mem sp).read a = none) :
    memRead sp a s = .error (.noByte sp a) := by
  simp [memRead, h]

/-- PH.START needs IDLE and an accepted BSEND or BRECV (41_bus_phases.md R123). -/
theorem exec_phStart_notEnabled {s : State}
    (h : s.ph ≠ .idle ∨ (∀ a b, s.cmd ≠ some (.bsend a b)) ∧ ∀ a n, s.cmd ≠ some (.brecv a n)) :
    exec .phStart s = .refused .notEnabled := by
  simp only [exec, execPhStart]
  split
  · next hi =>
    obtain ⟨noSend, noReceive⟩ := h.resolve_left (not_not_intro hi)
    split
    · exact absurd ‹_› (noSend _ _)
    · exact absurd ‹_› (noReceive _ _)
    all_goals rfl
  · rfl

/-- Settles O16: each operation's enabling condition is the guard of its meaning, and each fault is an access that
`memRead` or `storeReceived` cannot make. -/
theorem stopsByName : Obligations.StopsByName := by
  intro s
  refine ⟨fun hp v a b n => ?_, exec_phStart_notEnabled, ?_, ?_, ?_, ?_, ?_, ?_, ?_, ?_, ?_, ?_, ?_⟩
  · have refused {i : Instr} (hu : commandUnit i ≠ none) := exec_command_refused hu hp
    exact ⟨refused nofun, refused nofun, refused nofun, refused nofun, refused nofun, refused nofun⟩
  · intro h; exact if_neg (by simpa [imp_iff_not_or] using h)
  · intro h; exact if_neg (by simpa [imp_iff_not_or] using h)
  · intro h; exact if_neg (by cases hd : s.dir <;> simp_all [imp_iff_not_or])
  · intro h; exact if_neg (by cases hd : s.dir <;> simp_all [imp_iff_not_or])
  · intro h; exact if_neg h
  · intro h; exact if_neg (by simpa [irqRequest, imp_iff_not_or, or_comm] using h)
  · intro h; exact if_neg (by simpa [uartDoneEnabled, imp_iff_not_or, or_comm] using h)
  · intro h; exact if_neg (by unfold phyCompleteEnabled; cases hp : s.ph <;> simp_all [Phase.waits])
  · intro hi hp hr hn hm
    have hq : irqRequest s = true := by simp [irqRequest, hi, hp]
    have hf := memRead_unwritten (sp := .ring) (s := { s with txip := false }) hm
    simp only [exec, execIrqDrain, hq, if_true, if_pos (And.intro hn hr), ringToTx, hf, outcomeOf]
  · intro hp hb hd hk hc hm
    rw [exec_phDataFirst_ok hp hb hk, if_neg hc]
    simp only [issueData, hd, memRead_unwritten (sp := .txpay) hm, outcomeOf]
  · intro hp hb hd hk hi
    have hs : storeReceived s = .error (.noSuchAddress .rxbuf s.idx.toNat) := if_neg (Nat.not_lt.2 hi)
    simp only [exec, execPhDataR, hp, hb, hd, hk, hs, and_self, if_true]

/-! The debug read port. -/

/-- A register of two flags, as a number. -/
theorem toNat_flags (high low : Bool) :
    (bit high ++ bit low).toNat = (if low then 1 else 0) + (if high then 2 else 0) := by
  cases high <;> cases low <;> rfl

/-- BADR, as a number. -/
theorem toNat_badr (s : State) : (badr s).toNat = s.addr.toNat + (if s.dir = .read then 128 else 0) := by
  rw [badr, toNat_append_add]
  cases s.dir <;> simp [Direction.code]
  omega

/-- A number outside the map reads as 0 (10_state.md R50). -/
theorem debugRead_unmapped {n : Nat} (s : State) (h : 0x0a < n ∧ n < 0x10 ∨ 0x16 < n) : debugRead s n = 0 := by
  unfold debugRead
  split
  all_goals first
    | rfl
    | omega

/-- Settles O58, register by register. -/
theorem debugPortReadsTheMap : Obligations.DebugPortReadsTheMap := by
  intro s
  refine ⟨⟨rfl, rfl, rfl, rfl, toNat_flags _ _, toNat_badr s, rfl, rfl, rfl⟩,
    ⟨rfl, rfl, toNat_flags _ _, toNat_flags _ _, rfl, rfl, rfl⟩, ⟨?_, ?_, ?_, ?_, ?_⟩, ⟨?_, ?_, ?_, ?_⟩,
    fun n => debugRead_unmapped s⟩
  all_goals
    intro h
    simp [debugRead, Phase.code, classCode, h]

end Sys2Proof.Machine
end

section
/-! PROOF. The ring as a queue of the byte stream: cursor arithmetic (O38), the enqueue commit (O46), and every step
first in, first out (O49). -/

namespace Sys2Proof.Machine

/-! Cursor arithmetic. -/

/-- Settles O38: the remainder by a positive CAP is in range, and `occupied_eq` gives the two cases. -/
theorem occupancyIsBounded : Obligations.OccupancyIsBounded := by
  intro s hcap
  have hpos : (0 : Int) < s.cfg.cap := by omega
  have hocc : (occupied s : Int) = ((s.wcur : Int) - (s.rcur : Int)) % (s.cfg.cap : Int) :=
    Int.toNat_of_nonneg (Int.emod_nonneg _ hpos.ne')
  have hlt : occupied s < s.cfg.cap := by
    have := Int.emod_lt_of_pos ((s.wcur : Int) - s.rcur) hpos
    omega
  refine ⟨fun c k => ⟨rfl, advance_lt (by omega)⟩, hocc, by omega, by unfold freeSpace; omega, fun hw hr => ?_⟩
  rw [occupied_eq hw hr]
  exact ⟨fun h => if_pos h, fun h => if_neg (Nat.not_le.2 h)⟩

/-! What the ring holds after bytes are appended and after the oldest is taken. -/

/-- Reading a list at each of its positions gives the list. -/
theorem filterMap_getElem?_range (l : List Byte) : (List.range l.length).filterMap (fun k => l[k]?) = l := by
  induction l with
  | nil => rfl
  | cons b l ih =>
    rw [List.length_cons, List.range_succ_eq_map,
      List.filterMap_cons_some (f := fun k => (b :: l)[k]?) (b := b) rfl, List.filterMap_map]
    exact congrArg (b :: ·) ih

/-- Appending overwrites no slot that holds a byte. -/
theorem RingOk.read_appended_old {s : State} (h : RingOk s) (t : List Byte) {n k : Nat} (hn : n ≤ freeSpace s)
    (hk : k < occupied s) :
    (appended t n s).ring.read (advance s.cfg.cap s.rcur k) = s.ring.read (advance s.cfg.cap s.rcur k) := by
  have hlt := h.occupied_lt
  unfold freeSpace at hn
  refine read_ringStore_other _ _ _ _ _ _ fun j hj => ?_
  rw [List.length_take] at hj
  rw [h.wcur_eq, advance_advance]
  exact advance_ne (by omega) (by omega)

/-- The appended bytes stand behind the ones the ring held. -/
theorem RingOk.read_appended_new {s : State} (h : RingOk s) (t : List Byte) {n k : Nat} (hn : n ≤ freeSpace s)
    (hk : k < (t.take n).length) :
    (appended t n s).ring.read (advance s.cfg.cap s.rcur (occupied s + k)) = (t.take n)[k]? := by
  have hlt := h.occupied_lt
  unfold freeSpace at hn
  rw [← advance_advance, ← h.wcur_eq, ← Nat.zero_add k]
  refine (read_ringStore _ _ _ _ _ _ hk ?_).trans (by rw [Nat.zero_add])
  rw [List.length_take]
  omega

theorem RingOk.ringContents_appended {s : State} (h : RingOk s) (t : List Byte) {n : Nat} (hn : n ≤ freeSpace s)
    (hl : n ≤ t.length) : ringContents (appended t n s) = ringContents s ++ t.take n := by
  have hlen : (t.take n).length = n := List.length_take_of_le hl
  have hold : (List.range (occupied s)).filterMap
      (fun k => (appended t n s).ring.read (advance s.cfg.cap s.rcur k)) = ringContents s :=
    List.filterMap_congr fun k hk => h.read_appended_old t hn (List.mem_range.1 hk)
  have hnew : (List.range n).filterMap
      (fun k => (appended t n s).ring.read (advance s.cfg.cap s.rcur (occupied s + k))) = t.take n := by
    refine (List.filterMap_congr (g := fun k => (t.take n)[k]?) fun k hk => ?_).trans ?_
    · exact h.read_appended_new t hn (by rw [hlen]; exact List.mem_range.1 hk)
    · simpa only [hlen] using filterMap_getElem?_range (t.take n)
  calc ringContents (appended t n s)
      = (List.range (occupied s + n)).filterMap
          (fun k => (appended t n s).ring.read (advance s.cfg.cap s.rcur k)) := by
        rw [ringContents, (h.append t hn hl).2]; rfl
    _ = ringContents s ++ t.take n := by
        rw [List.range_add, List.filterMap_append, List.filterMap_map, hold]
        exact congrArg (ringContents s ++ ·) hnew

/-- The oldest byte is the first of the ring's contents. -/
theorem RingOk.ringContents_pop {s : State} (h : RingOk s) (hn : 0 < occupied s) {b : Byte}
    (hb : s.ring.read s.rcur = some b) :
    ringContents s = b :: ringContents { s with rcur := advance s.cfg.cap s.rcur 1 } := by
  have hfirst : advance s.cfg.cap s.rcur 0 = s.rcur := Nat.mod_eq_of_lt h.rcurLt
  have hrest (k : Nat) :
      advance s.cfg.cap s.rcur k.succ = advance s.cfg.cap (advance s.cfg.cap s.rcur 1) k := by
    rw [advance_advance, Nat.succ_eq_one_add]
  rw [ringContents, show occupied s = occupied s - 1 + 1 by omega, List.range_succ_eq_map,
    List.filterMap_cons_some (b := b) (by rw [hfirst]; exact hb), List.filterMap_map, ringContents, (h.pop hn).2]
  exact congrArg (b :: ·) (List.filterMap_congr fun k _ => congrArg s.ring.read (hrest k))

/-! The stream under the ring's operations. -/

/-- With a free transmit register no byte is in flight. -/
theorem stream_ready {s : State} (hr : s.txrdy = true) : stream s = s.wire ++ ringContents s := by
  simp [stream, inFlight, hr]

theorem stream_busy {s : State} (hr : s.txrdy = false) : stream s = s.wire ++ [s.txdata] ++ ringContents s := by
  simp [stream, inFlight, hr]

/-- A byte that goes from the ring to the free transmit register keeps its place in the stream. -/
theorem RingOk.stream_ringToTx {s v : State} (h : RingOk s) (hn : 0 < occupied s) (hr : s.txrdy = true)
    (hv : ringToTx s = .ok v) : stream v = stream s := by
  obtain ⟨b, -, hb, rfl⟩ := ringToTx_cases hv
  rw [stream_ready hr, h.ringContents_pop hn hb, ← List.singleton_append, ← List.append_assoc]
  rfl

/-- Prime, on a ring that holds bytes: it moves a byte within the stream, and the channel is busy afterwards. -/
theorem RingOk.prime_stream {s v : State} (h : RingOk s) (hn : 0 < occupied s) (hv : prime s = .ok v) :
    stream v = stream s ∧ RingOk v ∧ RingBusy v := by
  unfold prime at hv
  split at hv
  · next hp =>
    obtain ⟨hr, -⟩ : s.txrdy = true ∧ s.txip = false := by simpa [primeCondition] using hp
    refine ⟨h.stream_ringToTx hn hr hv, ?_⟩
    obtain ⟨b, -, -, rfl⟩ := ringToTx_cases hv
    exact ⟨{ (h.pop hn).1 with }, fun _ => .inl rfl⟩
  · next hp =>
    cases hv
    exact ⟨rfl, h, fun _ => by simpa [primeCondition, Classical.or_iff_not_imp_left] using hp⟩

/-- The enqueue commit: the bytes that fit join the stream at its end, and Prime moves a byte within it. -/
theorem RingOk.enqueue_stream {s v : State} {t : List Byte} (h : RingOk s) (hb : RingBusy s)
    (he : enqueue t s = .ok v) : stream v = stream s ++ t.take (freeSpace s) ∧ RingOk v ∧ RingBusy v := by
  have htake : t.take (freeSpace s) = t.take (min t.length (freeSpace s)) := by
    rw [List.take_eq_take_min, Nat.min_comm]
  rw [htake]
  rw [enqueue_def] at he
  have hl := Nat.min_le_left t.length (freeSpace s)
  have hf := Nat.min_le_right t.length (freeSpace s)
  generalize min t.length (freeSpace s) = n at *
  split at he
  · next h0 =>
    cases he
    exact ⟨by rw [h0, List.take_zero, List.append_nil], h, hb⟩
  · obtain ⟨hok, hocc⟩ := h.append t hf hl
    obtain ⟨hs, hv⟩ := hok.prime_stream (by omega) he
    refine ⟨?_, hv⟩
    calc stream v = stream (appended t n s) := hs
      _ = s.wire ++ inFlight s ++ ringContents (appended t n s) := rfl
      _ = stream s ++ t.take n := by rw [h.ringContents_appended t hf hl, ← List.append_assoc]; rfl

/-- Settles O46, by `RingOk.enqueue_stream`. -/
theorem enqueueExtendsTheStream : Obligations.EnqueueExtendsTheStream := by
  intro s v t h hb he
  exact h.enqueue_stream hb he

/-! Every step. -/

/-- The first clause of O49: stream and events stay, a SENQ stays uncommitted, a SSENDB sends no byte. -/
def StreamKept (u v : State) : Prop :=
  stream v = stream u ∧ v.diagLog = u.diagLog ∧ (u.cmd = some .senq → v.cmd = some .senq) ∧
    (∀ text pos, u.cmd = some (.ssendb text pos) → pos < text.length → v.cmd = u.cmd) ∧
    ∀ text, u.cmd = some (.presented (.ssendb text)) → v.cmd ≠ some (.ssendb text 1)

/-- What O49 says of a step from `u` to `v`. -/
def FirstInFirstOut (u v : State) : Prop :=
  StreamKept u v ∨
  (u.cmd = some .senq ∧ v.cmd = none ∧ v.diagLog = u.diagLog ∧
    stream v = stream u ++ u.stage.bytes.take (freeSpace u)) ∨
  (∃ e, v.diagLog = u.diagLog ++ [e] ∧ stream v = stream u ++ (diagText u e).take (freeSpace u)) ∨
  ∃ text pos b, (u.cmd = some (.ssendb text pos) ∨ u.cmd = some (.presented (.ssendb text)) ∧ pos = 0) ∧
    text[pos]? = some b ∧ u.txrdy = true ∧ v.cmd = some (.ssendb text (pos + 1)) ∧ v.diagLog = u.diagLog ∧
    stream u = u.wire ++ ringContents u ∧ stream v = u.wire ++ [b] ++ ringContents u

/-- A step that leaves the outstanding command as it is. -/
theorem StreamKept.of_sameCmd {u v : State} (hs : stream v = stream u) (hd : v.diagLog = u.diagLog)
    (hc : v.cmd = u.cmd) : StreamKept u v :=
  ⟨hs, hd, fun h => hc.trans h, fun _ _ _ _ => hc, fun _ h => by rw [hc, h]; simp⟩

/-- A step that moves the outstanding command, but neither commits a SENQ nor sends a byte. -/
theorem StreamKept.of_cmd {u v : State} (hs : stream v = stream u) (hd : v.diagLog = u.diagLog)
    (hq : u.cmd ≠ some .senq) (hp : ∀ text pos, u.cmd = some (.ssendb text pos) → text.length ≤ pos)
    (hv : ∀ text, v.cmd ≠ some (.ssendb text 1)) : StreamKept u v :=
  ⟨hs, hd, fun h => absurd h hq, fun text pos h hlt => absurd (hp text pos h) (Nat.not_le.2 hlt),
    fun text _ => hv text⟩

/-- A step in which a unit takes a command from the port, and sends no byte. -/
theorem StreamKept.of_atPort {u v : State} {a : Agent} {i : Instr} (hi : atPort a u = some i)
    (hs : stream v = stream u) (hd : v.diagLog = u.diagLog) (hv : ∀ text, v.cmd ≠ some (.ssendb text 1)) :
    StreamKept u v := by
  have hc := (atPort_iff.1 hi).1
  exact .of_cmd hs hd (by simp [hc]) (by simp [hc]) hv

/-- A byte that enters at the free transmit register goes before the ring. -/
theorem Sending.firstInFirstOut {u : State} {text : List Byte} {pos : Nat} {b : Byte} (hc : Sending u text pos)
    (hb : text[pos]? = some b) (hr : u.txrdy = true) :
    FirstInFirstOut u { txWrite b u with cmd := some (.ssendb text (pos + 1)) } := by
  have hcmd : u.cmd = some (.ssendb text pos) ∨ u.cmd = some (.presented (.ssendb text)) ∧ pos = 0 :=
    hc.imp_right fun ⟨hi, h0⟩ => ⟨(atPort_iff.1 hi).1, h0⟩
  exact .inr (.inr (.inr ⟨text, pos, b, hcmd, hb, hr, rfl, rfl, stream_ready hr, rfl⟩))

/-- A SSENDB with no byte left only answers. -/
theorem Sending.respond_streamKept {u : State} {text : List Byte} {pos : Nat} (hc : Sending u text pos)
    (hb : text[pos]? = none) (n : BitVec 16) : StreamKept u (respond 0xa n [] u) := by
  rcases hc with hc | ⟨hi, -⟩
  · have hend : text.length ≤ pos := List.getElem?_eq_none_iff.1 hb
    exact .of_cmd rfl rfl (by simp [hc]) (by rw [hc]; rintro _ _ ⟨⟩; exact hend) (by simp)
  · exact .of_atPort hi rfl rfl (by simp)

/-- Every effect of a step that can happen under the invariant is first in, first out. -/
theorem Effect.firstInFirstOut {t : Turn} {u v : State} (hu : Invariant u) (h : Effect t u v) :
    FirstInFirstOut u v := by
  cases h with
  | present _ _ _ _ hp =>
    have hc := (portFree_iff.1 hp).1
    exact .inl (.of_cmd rfl rfl (by simp [hc]) (by simp [hc]) (by simp))
  | binit _ _ _ hi => exact .inl (.of_atPort hi rfl rfl (by simp))
  | sinit _ _ _ hi => exact .inl (.of_atPort hi rfl rfl (by simp))
  | stage _ _ hi => exact .inl (.of_atPort hi rfl rfl (by simp))
  | startWrite _ _ _ _ hc =>
    rcases hc with hc | ⟨hi, -⟩
    · exact absurd hc (hu.started.1 _ _)
    · exact .inl (.of_atPort hi rfl rfl nofun)
  | startRead _ _ _ _ hc =>
    rcases hc with hc | ⟨hi, -⟩
    · exact absurd hc (hu.started.2 _ _)
    · exact .inl (.of_atPort hi rfl rfl nofun)
  | failed _ _ _ _ _ _ _ h =>
    obtain ⟨w, hw, rfl⟩ := failAndStop_cases h
    exact .inr (.inr (.inl ⟨_, rfl, (hu.ring.enqueue_stream hu.busy hw).1⟩))
  | firstData _ _ _ _ _ _ h => rw [issueData_frame h]; exact .inl (.of_sameCmd rfl rfl rfl)
  | written _ _ _ _ _ _ h => rw [nextData_frame h]; exact .inl (.of_sameCmd rfl rfl rfl)
  | received _ _ _ _ _ _ _ hw h => rw [received_frame hw h]; exact .inl (.of_sameCmd rfl rfl rfl)
  | doneWrite _ hp =>
    have hc : u.cmd = none := Classical.byContradiction fun h => by simp [(hu.onePort h).1] at hp
    exact .inl (.of_sameCmd rfl rfl hc.symm)
  | doneRead _ _ _ _ h =>
    obtain ⟨bs, w, -, hw, rfl⟩ := finishReceive_cases h
    exact .inr (.inr (.inl ⟨_, rfl, (hu.ring.enqueue_stream hu.busy hw).1⟩))
  | sendByte _ _ _ _ hc hb hr => exact hc.firstInFirstOut hb hr
  | sendWait _ _ _ hi => exact .inl (.of_atPort hi rfl rfl (by simp))
  | sendEnd _ _ _ hc hb => exact .inl (hc.respond_streamKept hb _)
  | commit _ _ hc h =>
    obtain ⟨w, hw, rfl⟩ := senqCommit_cases h
    have hd : w.diagLog = u.diagLog := by rw [enqueue_frame hw]
    exact .inr (.inl ⟨hc, rfl, hd, (hu.ring.enqueue_stream hu.busy hw).1⟩)
  | drain _ _ _ hne hr h =>
    have hn : 0 < occupied u := Nat.pos_of_ne_zero fun h0 => hne (hu.ring.occupied_eq_zero.1 h0)
    have hs := RingOk.stream_ringToTx (s := { u with txip := false }) { hu.ring with } hn hr h
    obtain ⟨b, -, -, rfl⟩ := ringToTx_cases h
    exact .inl (.of_sameCmd hs rfl rfl)
  | uart _ hr =>
    exact .inl (.of_sameCmd ((stream_ready rfl).trans (stream_busy hr).symm) rfl rfl)
  | phy _ _ _ _ _ _ _ _ _ hv => subst hv; exact .inl (.of_sameCmd rfl rfl rfl)
  | _ => exact .inl (.of_sameCmd rfl rfl rfl)

/-- Settles O49: every effect is first in, first out, and taking the turn touches nothing that the statement names. -/
theorem streamIsFirstInFirstOut : Obligations.StreamIsFirstInFirstOut := by
  rintro s t _ h hstep rfl
  have hu := h.nextTurn
  have he := step_effect hstep
  rw [nextTurn_frame] at hu he
  have hfifo := he.firstInFirstOut hu
  exact hfifo

end Sys2Proof.Machine
end

section
/-! PROOF. The command words and the selectors: decoding an encoding (O10), the encoding of what decodes (O11), the
format checks (O12), the worked encodings (O13). -/

namespace Sys2Proof

/-! What a header's fields say, opcode by opcode. -/

section
variable {h : Word} {payload rest : List Byte}

theorem decodeHeader_binit (ho : headerOpc h = 0x1#4) :
    decodeHeader h payload rest =
      if headerRsvHI h = 0 then .ok (.binit (headerArg h)) rest else .reject .reservedBits rest := if_pos ho

theorem decodeHeader_bsend (ho : headerOpc h = 0x2#4) :
    decodeHeader h payload rest =
      if headerRsvHA h = 0 then .ok (.bsend (headerAddr h) payload) rest else .reject .reservedBits rest := by
  rw [decodeHeader, ho]; rfl

theorem decodeHeader_brecv (ho : headerOpc h = 0x3#4) :
    decodeHeader h payload rest =
      if headerRsvHA h = 0 then .ok (.brecv (headerAddr h) (headerLen h)) rest else .reject .reservedBits rest := by
  rw [decodeHeader, ho]; rfl

theorem decodeHeader_sinit (ho : headerOpc h = 0x9#4) :
    decodeHeader h payload rest =
      if headerRsvHI h = 0 then .ok (.sinit (headerArg h)) rest else .reject .reservedBits rest := by
  rw [decodeHeader, ho]; rfl

theorem decodeHeader_ssendb (ho : headerOpc h = 0xa#4) :
    decodeHeader h payload rest =
      if headerRsvHL h = 0 then .ok (.ssendb payload) rest else .reject .reservedBits rest := by
  rw [decodeHeader, ho]; rfl

theorem decodeHeader_senq (ho : headerOpc h = 0xb#4) :
    decodeHeader h payload rest =
      if headerRsvHL h = 0 then .ok (.senq payload) rest else .reject .reservedBits rest := by
  rw [decodeHeader, ho]; rfl

theorem decodeHeader_reserved (h1 : headerOpc h ≠ 0x1#4) (h2 : headerOpc h ≠ 0x2#4) (h3 : headerOpc h ≠ 0x3#4)
    (h9 : headerOpc h ≠ 0x9#4) (ha : headerOpc h ≠ 0xa#4) (hb : headerOpc h ≠ 0xb#4) :
    decodeHeader h payload rest = .reject .illegalOpcode rest := by
  simp only [decodeHeader, h1, h2, h3, h9, ha, hb, if_false]

end

/-! What of the payload port a command takes. -/

theorem payloadCount_toNat (h : Word) :
    payloadCount h =
      if h.toNat / 2 ^ 28 = 2 ∨ h.toNat / 2 ^ 28 = 10 ∨ h.toNat / 2 ^ 28 = 11 then h.toNat % 2 ^ 16 else 0 := by
  simp only [payloadCount, headerOpc_eq_iff, headerLen_toNat]; rfl

/-- A header announces no more payload than LEN can say (30_encoding.md R90). -/
theorem payloadCount_lt (h : Word) : payloadCount h < 65536 := by
  unfold payloadCount
  split
  · exact (headerLen h).isLt
  · decide

theorem decodeCommand_short {h : Word} {bytes : List Byte} (hl : bytes.length < payloadCount h) :
    decodeCommand h bytes = .short := if_pos hl

theorem decodeCommand_arrived {h : Word} {bytes : List Byte} (hl : payloadCount h ≤ bytes.length) :
    decodeCommand h bytes = decodeHeader h (bytes.take (payloadCount h)) (bytes.drop (payloadCount h)) :=
  if_neg (Nat.not_lt.2 hl)

/-- A command takes from the port the bytes its header announces and leaves those that follow. -/
theorem decodeCommand_append {h : Word} {b : List Byte} (hn : payloadCount h = b.length) (rest : List Byte) :
    decodeCommand h (b ++ rest) = decodeHeader h b rest := by
  rw [decodeCommand_arrived (by simp [hn]), hn, List.take_left, List.drop_left]

/-! Decoding an encoding. -/

/-- The encoding of a well-formed command announces its payload. -/
theorem payloadCount_encode {p : Patterns} {i : Instr} {h : Word} {b : List Byte} (hw : i.wf = true)
    (he : encode p i = .command h b) : payloadCount h = b.length := by
  cases i <;> cases he
  case binit x => exact (Laws.Row.binit x hw).2.2
  case bsend a => exact (Laws.Row.bsend a b hw).2.2
  case brecv a n => exact (Laws.Row.brecv a n hw).2.2
  case sinit x => exact (Laws.Row.sinit x hw).2.2
  case ssendb => exact (Laws.Row.ssendb b hw).2.2
  case senq => exact (Laws.Row.senq b hw).2.2

/-- The header of a command's encoding has the command's fields, and its reserved bits are 0. -/
theorem decodeHeader_encode {p : Patterns} {i : Instr} {h : Word} {b : List Byte} (he : encode p i = .command h b)
    (rest : List Byte) : decodeHeader h b rest = .ok i rest := by
  cases i <;> cases he
  case binit => simp [decodeHeader_binit]
  case bsend => simp [decodeHeader_bsend]
  case brecv => simp [decodeHeader_brecv]
  case sinit => simp [decodeHeader_sinit]
  case ssendb => simp [decodeHeader_ssendb]
  case senq => simp [decodeHeader_senq]

/-- A command decodes from its own words, and what follows them stays on the port. -/
theorem decodeCommand_encode {p : Patterns} {i : Instr} {h : Word} {b : List Byte} (hw : i.wf = true)
    (he : encode p i = .command h b) (rest : List Byte) : decodeCommand h (b ++ rest) = .ok i rest := by
  rw [decodeCommand_append (payloadCount_encode hw he), decodeHeader_encode he]

theorem decode_encode_of_command {p : Patterns} {i : Instr} {h : Word} {b : List Byte} (hw : i.wf = true)
    (he : encode p i = .command h b) : decode p (encode p i) = .ok i [] := by
  have hd := decodeCommand_encode hw he []
  rw [List.append_nil] at hd
  rw [he]
  exact hd

/-- Settles O10. A pattern decodes to its own row when no row before it in the table has the same pattern; a selector is
a constant of the table. -/
theorem decodeOfEncodeIsIdentity : Obligations.DecodeOfEncodeIsIdentity := by
  refine ⟨fun p i hp hw => ?_, fun p i h b rest hw he => decodeCommand_encode hw he rest⟩
  simp only [Patterns.Distinct, List.nodup_cons, List.mem_cons, List.not_mem_nil, or_false, not_or] at hp
  obtain ⟨⟨start_xfern, start_xfera, start_stop⟩, ⟨xfern_xfera, xfern_stop⟩, xfera_stop, -⟩ := hp
  cases i with
  | binit _ | bsend _ _ | brecv _ _ | sinit _ | ssendb _ | senq _ => exact decode_encode_of_command hw rfl
  | pStart => exact if_pos rfl
  | pXfern => simp [encode, decode, decodePattern, Ne.symm start_xfern]
  | pXfera => simp [encode, decode, decodePattern, Ne.symm start_xfera, Ne.symm xfern_xfera]
  | pStop => simp [encode, decode, decodePattern, Ne.symm start_stop, Ne.symm xfern_stop, Ne.symm xfera_stop]
  | phStart | phAddr | phDataFirst | phDataW | phDataR | phDone | irqDrain | uartDone | phyComplete => rfl

/-! The encoding of what decodes. -/

section
variable {h : Word} {o : BitVec 4}

/-- A header with its reserved bits 0 is made of its fields, format by format. -/
theorem encodeHI_fields (ho : headerOpc h = o) (hr : headerRsvHI h = 0) : encodeHI o (headerArg h) = h := by
  rw [headerOpc_eq_iff] at ho
  rw [headerRsvHI_eq_zero] at hr
  apply BitVec.eq_of_toNat_eq
  rw [encodeHI_toNat, headerArg_toNat]; omega

theorem encodeHA_fields {n : BitVec 16} (ho : headerOpc h = o) (hr : headerRsvHA h = 0) (hl : headerLen h = n) :
    encodeHA o (headerAddr h) n = h := by
  rw [headerOpc_eq_iff] at ho
  rw [headerRsvHA_eq_zero] at hr
  apply BitVec.eq_of_toNat_eq
  rw [encodeHA_toNat, ← hl, headerAddr_toNat, headerLen_toNat]; omega

theorem encodeHL_fields {n : BitVec 16} (ho : headerOpc h = o) (hr : headerRsvHL h = 0) (hl : headerLen h = n) :
    encodeHL o n = h := by
  rw [headerOpc_eq_iff] at ho
  rw [headerRsvHL_eq_zero] at hr
  apply BitVec.eq_of_toNat_eq
  rw [encodeHL_toNat, ← hl, headerLen_toNat]; omega

end

/-! The payload that a header announces. -/

section
variable {h : Word} {b : List Byte}

/-- A header whose opcode announces a payload (30_encoding.md R84). -/
abbrev HasPayload (h : Word) : Prop := headerOpc h = 0x2#4 ∨ headerOpc h = 0xa#4 ∨ headerOpc h = 0xb#4

theorem headerLen_of_hasPayload (hn : payloadCount h = b.length) (ho : HasPayload h) :
    headerLen h = BitVec.ofNat 16 b.length := by
  rw [← hn, payloadCount, if_pos ho, BitVec.ofNat_toNat, BitVec.setWidth_eq]

theorem eq_nil_of_not_hasPayload (hn : payloadCount h = b.length) (ho : ¬ HasPayload h) : b = [] :=
  List.eq_nil_of_length_eq_zero (hn.symm.trans (if_neg ho))

theorem payloadFits_of_announced (hn : payloadCount h = b.length) : payloadFits b = true :=
  decide_eq_true (hn ▸ payloadCount_lt h)

/-- An accepted header with the payload it announces is the encoding of the instruction it decodes to; the six accepting
opcodes are taken in the decoder's order. -/
theorem encode_of_decodeHeader {r rest : List Byte} {i : Instr} (hn : payloadCount h = b.length)
    (hd : decodeHeader h b r = .ok i rest) : rest = r ∧ i.wf = true ∧ ∀ p, encode p i = .command h b := by
  have fits := payloadFits_of_announced hn
  have len := headerLen_of_hasPayload hn
  have empty := eq_nil_of_not_hasPayload hn
  unfold decodeHeader at hd
  repeat' split at hd
  all_goals cases hd
  · next ho hr =>
    exact ⟨rfl, rfl, fun _ => congrArg₂ Code.command (encodeHI_fields ho hr) (empty (by simp [ho])).symm⟩
  · next ho hr => exact ⟨rfl, fits, fun _ => congrArg (Code.command · b) (encodeHA_fields ho hr (len (.inl ho)))⟩
  · next ho hr =>
    exact ⟨rfl, rfl, fun _ => congrArg₂ Code.command (encodeHA_fields ho hr rfl) (empty (by simp [ho])).symm⟩
  · next ho hr =>
    exact ⟨rfl, rfl, fun _ => congrArg₂ Code.command (encodeHI_fields ho hr) (empty (by simp [ho])).symm⟩
  · next ho hr =>
    exact ⟨rfl, fits, fun _ => congrArg (Code.command · b) (encodeHL_fields ho hr (len (.inr (.inl ho))))⟩
  · next ho hr =>
    exact ⟨rfl, fits, fun _ => congrArg (Code.command · b) (encodeHL_fields ho hr (len (.inr (.inr ho))))⟩

end

/-- Settles O11: a command decodes once its payload has arrived, and then its header and the bytes taken are the
encoding. -/
theorem decodedCommandReencodes : Obligations.DecodedCommandReencodes := by
  intro p h bytes i rest hd
  rcases Nat.lt_or_ge bytes.length (payloadCount h) with hl | hl
  · rw [decodeCommand_short hl] at hd; cases hd
  · rw [decodeCommand_arrived hl] at hd
    obtain ⟨rfl, hw, he⟩ := encode_of_decodeHeader (List.length_take_of_le hl).symm hd
    exact ⟨hw, _, (List.take_append_drop _ _).symm, he p⟩

/-! The format checks and the worked encodings. -/

/-- Settles O12, clause by clause, with the header's fields as numbers. -/
theorem headerFormatChecks : Obligations.HeaderFormatChecks := by
  rintro h bytes _ _ rfl rfl
  rw [← payloadCount_toNat]
  refine ⟨?_, ?_, decodeCommand_short⟩
  · rintro ⟨h1, h2, h3, h9, ha, hb⟩
    have none_announced : payloadCount h = 0 := by
      rw [payloadCount_toNat, if_neg (not_or.2 ⟨h2, not_or.2 ⟨ha, hb⟩⟩)]
    have ne_opc {o : BitVec 4} (hn : h.toNat / 2 ^ 28 ≠ o.toNat) : headerOpc h ≠ o := mt (headerOpc_eq_iff h o).1 hn
    rw [decodeCommand_arrived (by simp [none_announced]), none_announced]
    exact decodeHeader_reserved (ne_opc h1) (ne_opc h2) (ne_opc h3) (ne_opc h9) (ne_opc ha) (ne_opc hb)
  · intro hl hr
    have opc {o : BitVec 4} (ho : h.toNat / 2 ^ 28 = o.toNat) : headerOpc h = o := (headerOpc_eq_iff h o).2 ho
    rw [decodeCommand_arrived hl]
    rcases hr with ⟨ho | ho, hr⟩ | ⟨ho | ho, hr⟩ | ⟨ho | ho, hr⟩
    · rw [decodeHeader_binit (opc ho), if_neg (mt (headerRsvHI_eq_zero h).1 hr)]
    · rw [decodeHeader_sinit (opc ho), if_neg (mt (headerRsvHI_eq_zero h).1 hr)]
    · rw [decodeHeader_bsend (opc ho), if_neg (mt (headerRsvHA_eq_zero h).1 hr)]
    · rw [decodeHeader_brecv (opc ho), if_neg (mt (headerRsvHA_eq_zero h).1 hr)]
    · rw [decodeHeader_ssendb (opc ho), if_neg (mt (headerRsvHL_eq_zero h).1 hr)]
    · rw [decodeHeader_senq (opc ho), if_neg (mt (headerRsvHL_eq_zero h).1 hr)]

/-- Settles O13: the words are constants, which the decoder evaluates. -/
theorem workedEncodingsDecode : Obligations.WorkedEncodingsDecode := by
  unfold Obligations.WorkedEncodingsDecode
  decide

end Sys2Proof
end

section
/-! PROOF. The fields of the default patterns (O33), and the operation that an agent's turn runs when nothing stands at
the port for it (O7). -/

namespace Sys2Proof.Machine

/-- Settles O33, pattern by pattern. -/
theorem defaultPatternsHaveTheFields : Obligations.DefaultPatternsHaveTheFields := by
  intro c
  cases c with
  | start => decide
  | xmit b => simp only [patternOf, reduceCtorEq, iff_false]; decide
  | recv ack => cases ack <;> decide
  | stop => decide

/-! The sequencer. -/

/-- The operation that PHSEL selects (spec/opcode_table.json). -/
def sequencerOperation : Phase → Direction → Instr
  | .idle, _ => .phStart
  | .startIssued, _ => .phAddr
  | .addrSent, _ => .phDataFirst
  | .dataXfer, .write => .phDataW
  | .dataXfer, .read => .phDataR
  | .stopIssued, _ => .phDone

/-- PHSEL of a state decodes to the operation of its phase and direction; no value of it is left out. -/
theorem decodePhSel_phSelector (s : State) :
    decodePhSel (phSelector s) = .ok (sequencerOperation s.ph s.dir) [] := by
  unfold phSelector
  cases s.ph <;> cases s.dir <;> rfl

/-- An agent finds nothing at the port when what stands there, if anything, is another unit's or a transaction is in
progress. -/
theorem atPort_eq_none {a : Agent} {s : State}
    (h : ∀ i, s.cmd = some (.presented i) → commandUnit i = some a → s.ph ≠ .idle) : atPort a s = none := by
  refine Option.eq_none_iff_forall_not_mem.2 fun i hi => ?_
  obtain ⟨hc, hu, -, -, hp⟩ := atPort_iff.1 hi
  exact h i hc hu hp

/-- SEQ's step with nothing at the port for it. -/
theorem step_seq {s : State} {ts : List Turn} {p : Phase} (ht : s.turns = .agent .seq :: ts) (hp : s.ph = p)
    (hc : ∀ i, s.cmd = some (.presented i) → p ≠ .idle) (hr : seqReady s = true) :
    step s = exec (sequencerOperation p s.dir) { s with turns := ts } := by
  subst hp
  have hport : atPort .seq { s with turns := ts } = none := atPort_eq_none fun i hi _ => hc i hi
  have hready : seqReady { s with turns := ts } = true := hr
  rw [step_cons ht, runTurn, seqTurn, hport]
  simp only [hready, if_true, decodePhSel_phSelector, runDecoded]

/-! The agents whose selectors are single flags. -/

theorem drainTurn_selected {s : State} (he : s.txie = true) (hp : s.txip = true) : drainTurn s = exec .irqDrain s := by
  rw [drainTurn, he, hp]; rfl

theorem uartTurn_selected {s : State} (he : s.txen = true) (hr : s.txrdy = false) :
    uartTurn s = exec .uartDone s := by
  rw [uartTurn, he, hr]; rfl

theorem phyTurn_selected {s : State} (hp : s.ph.waits = true) (hb : s.bint = false) :
    phyTurn s = exec .phyComplete s := by
  rw [phyTurn, if_pos hp, hb]; rfl

/-- Settles O7, agent by agent. -/
theorem stepRunsSelectedOperation : Obligations.StepRunsSelectedOperation := by
  intro s ts
  refine ⟨fun ht => ?_, fun ht he hp => ?_, fun ht he hr => ?_, fun ht hp hb => ?_, fun ht hc => ?_, fun r ht hr => ?_,
    fun v i ht hd => ?_, fun ht => ?_⟩
  · refine ⟨fun a b hp hc => ?_, fun a n hp hc => ?_, fun hp hb => ?_, fun hp hb => ?_, fun hp hb hd => ?_,
      fun hp hb hd => ?_, fun hp => ?_⟩
    · exact step_seq ht hp (by simp [hc]) (by simp [seqReady, hp, hc])
    · exact step_seq ht hp (by simp [hc]) (by simp [seqReady, hp, hc])
    · exact step_seq ht hp (by simp) (by simp [seqReady, hp, hb])
    · exact step_seq ht hp (by simp) (by simp [seqReady, hp, hb])
    · rw [step_seq ht hp (by simp) (by simp [seqReady, hp, hb]), hd, sequencerOperation]
    · rw [step_seq ht hp (by simp) (by simp [seqReady, hp, hb]), hd, sequencerOperation]
    · exact step_seq ht hp (by simp) (by simp [seqReady, hp])
  · rw [step_cons ht]
    exact drainTurn_selected he hp
  · rw [step_cons ht]
    exact uartTurn_selected he hr
  · rw [step_cons ht]
    have waits : s.ph.waits = true := by obtain h | h | h := hp <;> rw [h] <;> rfl
    exact phyTurn_selected waits hb
  · have hport : atPort .prod { s with turns := ts } = none := atPort_eq_none fun i hi hu => absurd hu (hc i hi)
    rw [step_cons ht, runTurn, prodTurn, hport]
  · rw [step_cons ht]
    exact if_pos (by simp [hr])
  · rw [step_cons ht, runTurn, hd, runDecoded]
  · exact ⟨Config.freeAgent s.draws, by rw [step, nextTurn, ht]⟩

end Sys2Proof.Machine
end

section
/-! PROOF. What the agents' steps add to bus_log: as many stops as starts (O53), in protocol order (O54). -/

namespace Sys2Proof.Machine

/-! The PHY commands of the data phases. -/

/-- The data byte number IDX is commanded as the command that the transaction has for it. -/
theorem issueData_eq {s v : State} (h : issueData s = .ok v) :
    v = { phyIssue (dataCommand s s.idx.toNat) s with ph := .dataXfer } := by
  unfold dataCommand
  obtain ⟨b, hd, -, hb, rfl⟩ | ⟨hd, rfl⟩ := issueData_cases h
  · rw [hd, hb, Option.getD_some]
  · rw [hd, ackChoice]

theorem dataCommand_ne (s : State) (i : Nat) : dataCommand s i ≠ .start ∧ dataCommand s i ≠ .stop := by
  unfold dataCommand
  cases s.dir <;> simp

/-! As many stops as starts. -/

/-- What a step from PH `p` and bus_log `l` to PH `q` does to bus_log, as far as starts and stops go: a start only where
no phase is in progress, a stop only where one is. -/
inductive StopPaired (p q : Phase) (l : List PhyCommand) : List PhyCommand → Prop
  | same (h : q.waits = p.waits) : StopPaired p q l l
  | started (hp : p.waits = false) (hq : q.waits = true) : StopPaired p q l (l ++ [.start])
  | goesOn (c : PhyCommand) (hc : c ≠ .start ∧ c ≠ .stop) (h : q.waits = p.waits) : StopPaired p q l (l ++ [c])
  | stopped (hp : p.waits = true) (hq : q.waits = false) : StopPaired p q l (l ++ [.stop])

theorem StopPaired.balance {p q : Phase} {l m : List PhyCommand} (h : StopPaired p q l m)
    (hl : l.count .start = l.count .stop + (if p.waits then 1 else 0)) :
    m.count .start = m.count .stop + (if q.waits then 1 else 0) := by
  cases h with
  | same h => rwa [h]
  | started hp hq => simpa [hq, hp] using hl
  | goesOn c hc h => simpa [h, hc] using hl
  | stopped hp hq => simpa [hq, hp] using hl

theorem issueData_stopPaired {s v : State} (hw : s.ph.waits = true) (h : issueData s = .ok v) :
    StopPaired s.ph v.ph s.busLog v.busLog := by
  cases issueData_eq h
  exact .goesOn _ (dataCommand_ne s _) hw.symm

theorem nextData_stopPaired {s v : State} (hw : s.ph.waits = true) (h : nextData s = .ok v) :
    StopPaired s.ph v.ph s.busLog v.busLog := by
  unfold nextData issueDataOrStop at h
  split at h
  · exact issueData_stopPaired (s := { s with idx := s.idx + 1 }) hw h
  · cases h
    exact .stopped hw rfl

/-- The turn of an agent pairs stops with starts. -/
theorem Effect.stopPaired {t : Turn} {u v : State} (ht : t.isAgent = true) (h : Effect t u v) :
    StopPaired u.ph v.ph u.busLog v.busLog := by
  cases h with
  | startWrite _ _ _ hi => exact .started (by rw [hi]; rfl) rfl
  | startRead _ _ _ hi => exact .started (by rw [hi]; rfl) rfl
  | address _ hi => exact .goesOn _ (by simp) (by rw [hi]; rfl)
  | failed _ _ _ hi _ _ _ h =>
    obtain ⟨w, hw, rfl⟩ := failAndStop_cases h
    rw [enqueue_frame hw]
    exact .stopped hi rfl
  | emptyStop _ hi => exact .stopped (by rw [hi]; rfl) rfl
  | firstData _ _ hi _ _ _ h => exact issueData_stopPaired (by rw [hi]; rfl) h
  | written _ _ hi _ _ _ h => exact nextData_stopPaired (by rw [hi]; rfl) h
  | received _ _ _ hi _ _ _ hw h =>
    obtain ⟨-, rfl⟩ := storeReceived_cases hw
    have hw : u.ph.waits = true := by rw [hi]; rfl
    exact nextData_stopPaired (s := { u with rxbuf := u.rxbuf.write u.idx.toNat u.bdata }) hw h
  | doneWrite _ hi => exact .same (by rw [hi]; rfl)
  | doneRead _ _ hi _ h =>
    obtain ⟨bs, hv⟩ := finishReceive_frame h
    rw [hv]
    exact .same (by rw [hi]; rfl)
  | commit _ _ _ h => rw [senqCommit_frame h]; exact .same rfl
  | drain _ _ _ _ _ h => obtain ⟨b, -, -, rfl⟩ := ringToTx_cases h; exact .same rfl
  | phy _ _ _ _ _ _ _ _ _ hv => subst hv; exact .same rfl
  | bctl _ ht' => cases ht.symm.trans ht'
  | _ => exact .same rfl

/-- Settles O53: the turn of an agent pairs stops with starts, and taking the turn touches neither PH nor bus_log. -/
theorem everyTransactionStopsOnce : Obligations.EveryTransactionStopsOnce := by
  intro s t ha hs h
  have he := (step_effect h).stopPaired ha
  rw [nextTurn_frame] at he
  exact he.balance hs

/-! The protocol order. -/

theorem transactionLog_succ (s : State) (n : Nat) :
    transactionLog s (n + 1) = transactionLog s n ++ [dataCommand s n] := by
  simp [transactionLog, List.range_succ]

/-- A command issued follows what bus_log ended with. -/
theorem suffix_issued {l log : List PhyCommand} (h : l <:+ log) (c : PhyCommand) : l ++ [c] <:+ log ++ [c] := by
  obtain ⟨p, rfl⟩ := h
  exact ⟨p, by simp⟩

theorem getLast?_of_stop_suffix {l log : List PhyCommand} (h : l ++ [.stop] <:+ log) : log.getLast? = some .stop := by
  obtain ⟨p, rfl⟩ := h
  simp

/-- In STOP_ISSUED the last command is PStop, whether the transaction has failed or not. -/
theorem LogFollowsPhase.last_stop {s : State} (h : LogFollowsPhase s) (hp : s.ph = .stopIssued) :
    s.busLog.getLast? = some .stop := by
  simp only [LogFollowsPhase, hp] at h
  obtain ⟨completed, failed⟩ := h
  by_cases hb : s.bres = .ok
  · exact getLast?_of_stop_suffix (completed hb).2
  · obtain h | h | h := failed hb
    · exact getLast?_of_stop_suffix (l := [.start]) h
    · exact getLast?_of_stop_suffix h
    · exact getLast?_of_stop_suffix h

/-- In IDLE, bus_log is that of finished transactions. -/
theorem LogFollowsPhase.of_idle {s : State} (hp : s.ph = .idle) (h : s.busLog.getLast? = some .stop) :
    LogFollowsPhase s := by
  simp only [LogFollowsPhase, hp]
  exact .inr h

/-- Commanding the data byte number IDX after the IDX bytes before it. -/
theorem LogFollowsPhase.of_issueData {s v : State} (hl : transactionLog s s.idx.toNat <:+ s.busLog)
    (h : issueData s = .ok v) : LogFollowsPhase v := by
  cases issueData_eq h
  show transactionLog s (s.idx.toNat + 1) <:+ _
  rw [transactionLog_succ]
  exact suffix_issued hl _

/-- Stopping after the CNT data bytes, all OK. -/
theorem LogFollowsPhase.of_stop {s : State} (hb : s.bres = .ok) (hi : s.idx = s.cnt)
    (hl : transactionLog s s.idx.toNat <:+ s.busLog) : LogFollowsPhase (stop s) :=
  ⟨fun _ => ⟨hi, suffix_issued hl .stop⟩, fun hn => absurd hb hn⟩

/-- An OK data byte is counted; the next is commanded, or the stop. -/
theorem LogFollowsPhase.of_nextData {s v : State} (hb : s.bres = .ok) (hi : s.idx.toNat < s.cnt.toNat)
    (hl : transactionLog s (s.idx.toNat + 1) <:+ s.busLog) (h : nextData s = .ok v) : LogFollowsPhase v := by
  have hl' : transactionLog s (s.idx + 1).toNat <:+ s.busLog := by rwa [idx_succ hi]
  obtain ⟨-, h⟩ | ⟨he, rfl⟩ := nextData_cases hi h
  · exact LogFollowsPhase.of_issueData (s := { s with idx := s.idx + 1 }) hl' h
  · exact LogFollowsPhase.of_stop (s := { s with idx := s.idx + 1 }) hb
      (BitVec.eq_of_toNat_eq ((idx_succ hi).trans he)) hl'

/-- A phase that is not OK is followed by PStop, whichever phase it is. -/
theorem LogFollowsPhase.of_failAndStop {s v : State} {c : StatusClass} (h : LogFollowsPhase s) (hw : s.ph.waits = true)
    (hn : c ≠ .ok) (hf : failAndStop c s = .ok v) : LogFollowsPhase v := by
  obtain ⟨w, hw', rfl⟩ := failAndStop_cases hf
  rw [enqueue_frame hw']
  refine ⟨fun hb => absurd hb hn, fun _ => ?_⟩
  unfold LogFollowsPhase at h
  obtain hp | hp | hp := waits_cases hw <;> simp only [hp] at h
  · exact .inl (suffix_issued h .stop)
  · exact .inr (.inl (suffix_issued h .stop))
  · exact .inr (.inr (suffix_issued h .stop))

theorem Effect.logFollowsPhase {t : Turn} {u v : State} (hu : Invariant u) (ht : t.isAgent = true)
    (hl : LogFollowsPhase u) (h : Effect t u v) : LogFollowsPhase v := by
  cases h with
  | startWrite => exact List.suffix_append _ _
  | startRead => exact List.suffix_append _ _
  | address _ hi =>
    simp only [LogFollowsPhase, hi] at hl
    exact suffix_issued hl _
  | failed _ _ _ hi _ _ hn h => exact hl.of_failAndStop hi hn h
  | emptyStop _ hi _ _ hc =>
    have h0 := hu.idxZero (.inr hi)
    simp only [LogFollowsPhase, hi] at hl
    exact .of_stop (hu.okSoFar (by rw [hi]; rfl)) (h0.trans hc.symm) (by rwa [h0])
  | firstData _ _ hi _ _ _ h =>
    have h0 := hu.idxZero (.inr hi)
    simp only [LogFollowsPhase, hi] at hl
    exact .of_issueData (by rwa [h0]) h
  | written _ _ hi _ _ _ h =>
    simp only [LogFollowsPhase, hi] at hl
    exact .of_nextData (hu.okSoFar (by rw [hi]; rfl)) (hu.idxLt hi) hl h
  | received _ _ _ hi _ _ _ hw h =>
    obtain ⟨hlt, rfl⟩ := storeReceived_cases hw
    simp only [LogFollowsPhase, hi] at hl
    exact LogFollowsPhase.of_nextData (s := { u with rxbuf := u.rxbuf.write u.idx.toNat u.bdata })
      (hu.okSoFar (by rw [hi]; rfl)) hlt hl h
  | doneWrite _ hi => exact .of_idle rfl (hl.last_stop hi)
  | doneRead _ _ hi _ h =>
    obtain ⟨bs, hv⟩ := finishReceive_frame h
    rw [hv]
    exact .of_idle rfl (hl.last_stop hi)
  | commit _ _ _ h => rw [senqCommit_frame h]; exact hl
  | drain _ _ _ _ _ h => obtain ⟨b, -, -, rfl⟩ := ringToTx_cases h; exact hl
  | phy _ _ _ _ _ _ _ _ _ hv => subst hv; exact hl
  | bctl _ ht' => cases ht.symm.trans ht'
  | _ => exact hl

/-- Settles O54: the turn of an agent keeps bus_log in protocol order, and taking the turn touches nothing that
LogFollowsPhase looks at. -/
theorem busLogFollowsTheProtocol : Obligations.BusLogFollowsTheProtocol := by
  intro s t hs hl h
  have hu := hs.nextTurn
  have he := step_effect h
  rw [nextTurn_frame] at hu he
  exact he.logFollowsPhase hu hs.nextIsAgent hl

end Sys2Proof.Machine
end

section
/-! PROOF. BINIT (O17, O18, O19, O20) and the enable of BSEND and BRECV (O21). -/

namespace Sys2Proof.Machine

/-! The bus clock divisor. -/

theorem busDivisor_in_range {f : Nat} {x : BitVec 24} (hx : 0 < x.toNat) (hl : 8 ≤ f / (2 * x.toNat))
    (hh : f / (2 * x.toNat) ≤ 263) : busDivisor f x = some (BitVec.ofNat 8 (f / (2 * x.toNat) - 8)) := by
  unfold busDivisor
  rw [if_neg (by omega)]
  generalize f / (2 * x.toNat) = q at *
  have hd : ((q : Int) - 8).toNat = q - 8 := by omega
  simp only [hd]
  exact if_neg (by omega)

theorem busDivisor_out_of_range {f : Nat} {x : BitVec 24}
    (h : x.toNat = 0 ∨ f / (2 * x.toNat) < 8 ∨ 263 < f / (2 * x.toNat)) : busDivisor f x = none := by
  unfold busDivisor
  split
  · rfl
  · generalize f / (2 * x.toNat) = q at *
    exact if_pos (by omega)

/-- The speeds that have a divisor: exactly those of the two lemmas above. -/
theorem busDivisor_isSome_iff {f : Nat} {x : BitVec 24} :
    (∃ d, busDivisor f x = some d) ↔ 0 < x.toNat ∧ 8 ≤ f / (2 * x.toNat) ∧ f / (2 * x.toNat) ≤ 263 := by
  constructor
  · rintro ⟨d, hd⟩
    refine Classical.byContradiction fun hn => ?_
    rw [busDivisor_out_of_range (by omega)] at hd
    cases hd
  · rintro ⟨hx, hl, hh⟩
    exact ⟨_, busDivisor_in_range hx hl hh⟩

/-! BINIT. -/

theorem exec_binit_rejected {s : State} {x : BitVec 24} (hp : portFree s = true)
    (hd : busDivisor s.cfg.fclk x = none) : exec (.binit x) s = .next (reject 0x1 .argRange s) := by
  simp only [exec, execBinit, hp, hd, if_true]

/-- Settles O17: the command has a divisor, and with the port free CMD is none already. -/
theorem binitSetsDivisorAndEnable : Obligations.BinitSetsDivisorAndEnable := by
  rintro s x q hp hx rfl hl hh
  have hc := (portFree_iff.1 hp).1
  rw [exec_binit_accepted hp (busDivisor_in_range hx hl hh), respond, ← hc]
  rfl

/-- Settles O18: the command has no divisor. -/
theorem binitRejectsArgumentOutOfRange : Obligations.BinitRejectsArgumentOutOfRange := by
  intro s x hp hr
  exact exec_binit_rejected hp (busDivisor_out_of_range hr)

/-- Settles O19: BINIT answers OK exactly when the speed has a divisor, and at 16 MHz those are the speeds given. -/
theorem binitRangeAtSixteenMegahertz : Obligations.BinitRangeAtSixteenMegahertz := by
  intro s x hp hf
  have accepted_iff : (∃ t, exec (.binit x) s = .next t ∧ t.resp = some { word := 0x10000000, data := [] }) ↔
      ∃ d, busDivisor s.cfg.fclk x = some d := by
    cases hd : busDivisor s.cfg.fclk x with
    | none => simp [exec_binit_rejected hp hd, responseWord, rejectValue]
    | some d => simp [exec_binit_accepted hp hd, responseWord]
  rw [accepted_iff, busDivisor_isSome_iff, hf]
  constructor
  · rintro ⟨hx, hl, hh⟩
    rw [Nat.le_div_iff_mul_le (by omega)] at hl
    rw [← Nat.lt_succ_iff, Nat.div_lt_iff_lt_mul (by omega)] at hh
    omega
  · rintro ⟨hl, hh⟩
    refine ⟨by omega, ?_, ?_⟩
    · rw [Nat.le_div_iff_mul_le (by omega)]; omega
    · rw [← Nat.lt_succ_iff, Nat.div_lt_iff_lt_mul (by omega)]; omega

/-- Settles O20: BINIT writes what it has written, and a rejected one leaves nothing to take but its response. -/
theorem binitIsIdempotent : Obligations.BinitIsIdempotent := by
  intro s t x h
  cases hp : portFree s with
  | false => rw [exec_command_refused (by simp [commandUnit]) hp] at h; cases h
  | true =>
    obtain ⟨hc, hr, hi⟩ := portFree_iff.1 hp
    cases hd : busDivisor s.cfg.fclk x with
    | some d =>
      cases (exec_binit_accepted hp hd).symm.trans h
      exact exec_binit_accepted (portFree_iff.2 ⟨rfl, rfl, hi⟩) hd
    | none =>
      cases (exec_binit_rejected hp hd).symm.trans h
      exact exec_binit_rejected (portFree_iff.2 ⟨hc, rfl, hi⟩) hd

/-! BSEND and BRECV. -/

theorem acceptBus_rejected {s : State} (opc : BitVec 4) (c : Outstanding) (hp : portFree s = true)
    (he : s.ben = false) : acceptBus opc c s = .next (reject opc .notInitialised s) := by
  rw [acceptBus, if_pos hp, if_neg (by simp [he])]

/-- Settles O21: both commands are accepted, or rejected, by `acceptBus`. -/
theorem busCommandsNeedEnable : Obligations.BusCommandsNeedEnable := by
  intro s a b n hp
  exact ⟨fun he => ⟨exec_bsend_accepted hp he, exec_brecv_accepted hp he⟩,
    fun he => ⟨acceptBus_rejected 0x2 (.bsend a b) hp he, acceptBus_rejected 0x3 (.brecv a n) hp he⟩⟩

end Sys2Proof.Machine
end

section
/-! PROOF. Only PHY ends a wait (O9). -/

namespace Sys2Proof.Machine

/-! The turns of the other agents while a phase is awaited. -/

section
variable {s : State} (hw : s.ph.waits = true)
include hw

/-- HOST has no response to take and may not present. -/
theorem hostTurn_of_waits (hr : s.resp = none) : hostTurn s = .next s := by
  have hp : portFree s = false := by
    refine Bool.eq_false_iff.2 fun hp => ?_
    rw [(portFree_iff.1 hp).2.2] at hw
    cases hw
  simp [hostTurn, hr, hp]

theorem atPort_of_waits (a : Agent) : atPort a s = none :=
  atPort_eq_none fun _ _ _ hi => by rw [hi] at hw; cases hw

/-- SEQ waits for the completion. -/
theorem seqTurn_of_waits (hb : s.bint = false) : seqTurn s = .next s := by
  have hr : seqReady s = false := by
    obtain hp | hp | hp := waits_cases hw <;> simp only [seqReady, hp, hb]
  simp [seqTurn, atPort_of_waits hw, hr]

/-- PROD has no command. -/
theorem prodTurn_of_waits (hc : s.cmd = none) : prodTurn s = .next s := by
  simp only [prodTurn, atPort_of_waits hw, prodStep, hc]

end

/-- DRAIN touches TXIP, RCUR and the transmit register only. -/
theorem drainTurn_frame {s v : State} (h : drainTurn s = .next v) :
    v = { s with txip := v.txip, rcur := v.rcur, txdata := v.txdata, txrdy := v.txrdy } := by
  cases runTurn_effect (t := .agent .drain) h with
  | nothing => rfl
  | drain _ _ _ _ _ h => obtain ⟨b, -, -, rfl⟩ := ringToTx_cases h; rfl
  | drainNothing => rfl
  | _ => simp_all [Turn.isAgent] -- the effect of another agent's turn

/-- UART touches the wire, TXRDY and TXIP only. -/
theorem uartTurn_frame {s v : State} (h : uartTurn s = .next v) :
    v = { s with wire := v.wire, txrdy := v.txrdy, txip := v.txip } := by
  cases runTurn_effect (t := .agent .uart) h with
  | nothing => rfl
  | uart => rfl
  | _ => simp_all [Turn.isAgent] -- the effect of another agent's turn

/-- Settles O9: HOST, SEQ and PROD have no step while a phase is awaited, and DRAIN and UART touch nothing that the
statement names. -/
theorem onlyPhyEndsAWait : Obligations.OnlyPhyEndsAWait := by
  intro s a ts t hs ht ha hph hb h
  have hw : s.ph.waits = true := by obtain hp | hp | hp := hph <;> rw [hp] <;> rfl
  have hn : s.ph ≠ .idle := fun hi => by rw [hi] at hw; cases hw
  have hc : s.cmd = none := Classical.byContradiction fun hc => hn (hs.onePort hc).1
  have hr : s.resp = none := Classical.byContradiction fun hr => hn (hs.respIdle hr)
  rw [step_cons ht] at h
  cases a with
  | host =>
    cases (hostTurn_of_waits (s := { s with turns := ts }) hw hr).symm.trans h
    exact ⟨rfl, hb, rfl, rfl, hr, hc, fun _ => rfl⟩
  | seq =>
    cases (seqTurn_of_waits (s := { s with turns := ts }) hw hb).symm.trans h
    exact ⟨rfl, hb, rfl, rfl, hr, hc, fun _ => rfl⟩
  | prod =>
    cases (prodTurn_of_waits (s := { s with turns := ts }) hw hc).symm.trans h
    exact ⟨rfl, hb, rfl, rfl, hr, hc, fun _ => rfl⟩
  | drain => rw [drainTurn_frame h]; exact ⟨rfl, hb, rfl, rfl, hr, hc, nofun⟩
  | uart => rw [uartTurn_frame h]; exact ⟨rfl, hb, rfl, rfl, hr, hc, nofun⟩
  | phy => exact absurd rfl ha

end Sys2Proof.Machine
end

section
/-! PROOF. Whole transactions whose phases all complete OK: a BSEND (O59), a BRECV (O60). -/

namespace Sys2Proof.Machine

/-! PHY.COMPLETE with its answers scripted. -/

section
variable {s : State} {v : Byte} {vs : List Byte} (hw : s.ph.waits = true) (hb : s.bint = false)
  (hs : s.phyStatus = v :: vs)
include hw hb hs

/-- After a command that receives nothing. -/
theorem execPhyComplete_status (hl : ∀ k, s.busLog.getLast? ≠ some (.recv k)) :
    execPhyComplete s = .next { s with phyStatus := vs, bstat := v, bint := true } := by
  simp only [execPhyComplete, phyCompleteEnabled, hw, hb, drawStatus, hs]
  cases hc : s.busLog.getLast? with
  | none => rfl
  | some c =>
    cases c with
    | recv k => exact absurd hc (hl k)
    | _ => rfl

/-- After a receive. -/
theorem execPhyComplete_data {d : Byte} {ds : List Byte} {k : Bool} (hd : s.phyData = d :: ds)
    (hl : s.busLog.getLast? = some (.recv k)) :
    execPhyComplete s = .next { s with phyStatus := vs, phyData := ds, bstat := v, bdata := d, bint := true } := by
  simp only [execPhyComplete, phyCompleteEnabled, hw, hb, drawStatus, hs, drawData, hd, hl]
  rfl

end

/-! One phase: PHY completes it, SEQ evaluates it. -/

theorem runSteps_one (s : State) : runSteps 1 s = step s := by
  rw [runSteps]
  cases step s <;> rfl

/-- A phase is awaited, its status is scripted and of class OK, and PHY and SEQ move next. -/
structure PhaseDue (s : State) (v : Byte) (vs : List Byte) (ts : List Turn) : Prop where
  waits  : s.ph.waits = true
  bint   : s.bint = false
  status : s.phyStatus = v :: vs
  ok     : classify s.cfg.status v = .ok
  turns  : s.turns = .agent .phy :: .agent .seq :: ts

/-- The address byte commanded. -/
def addressIssued (s : State) : State := { phyIssue (.xmit (addressByte s.addr s.dir)) s with ph := .addrSent }

/-- The data byte number IDX commanded. -/
def dataIssued (s : State) : State := { phyIssue (dataCommand s s.idx.toNat) s with ph := .dataXfer }

/-- A phase has completed with status `v`, and `vs` are the statuses left. -/
def statusTaken (v : Byte) (vs : List Byte) (ts : List Turn) (s : State) : State :=
  { s with turns := ts, phyStatus := vs, bstat := v, bint := true }

/-- A data byte's phase has completed with status `v` and is counted; `d` is BDATA and `m` is RXBUF then, `vs` and `ds`
are the answers left. -/
def dataCounted (v d : Byte) (vs ds : List Byte) (m : Memory) (ts : List Turn) (s : State) : State :=
  { s with
    turns := ts, phyStatus := vs, phyData := ds, bstat := v, bdata := d, bint := true, idx := s.idx + 1, rxbuf := m }

section
variable {s : State} {v : Byte} {vs : List Byte} {ts : List Turn} (h : PhaseDue s v vs ts)
include h

/-- The two steps of a phase: the completion, then the operation that evaluates it. -/
theorem PhaseDue.run {w : State} (hc : execPhyComplete { s with turns := .agent .seq :: ts } = .next w)
    (hp : w.ph = s.ph) (hb : w.bint = true) (ht : w.turns = .agent .seq :: ts) :
    runSteps 2 s = exec (sequencerOperation s.ph w.dir) { w with turns := ts } := by
  have hphy : step s = .next w := by
    rw [step_cons h.turns]
    exact (phyTurn_selected (s := { s with turns := .agent .seq :: ts }) h.waits h.bint).trans hc
  have hn : s.ph ≠ .idle := fun hi => by have hw := h.waits; rw [hi] at hw; cases hw
  have hr : seqReady w = true := by
    obtain hi | hi | hi := waits_cases h.waits <;> simp only [seqReady, hp, hi, hb]
  rw [runSteps_next hphy, runSteps_one]
  exact step_seq ht hp (fun _ _ => hn) hr

/-- A phase that receives nothing. -/
theorem PhaseDue.run_status (hl : ∀ k, s.busLog.getLast? ≠ some (.recv k)) :
    runSteps 2 s = exec (sequencerOperation s.ph s.dir) (statusTaken v vs ts s) :=
  h.run (execPhyComplete_status (s := { s with turns := .agent .seq :: ts }) h.waits h.bint h.status hl) rfl rfl
    rfl

/-- A phase that receives a byte. -/
theorem PhaseDue.run_data {d : Byte} {ds : List Byte} {k : Bool} (hd : s.phyData = d :: ds)
    (hl : s.busLog.getLast? = some (.recv k)) :
    runSteps 2 s = exec (sequencerOperation s.ph s.dir)
      { s with turns := ts, phyStatus := vs, phyData := ds, bstat := v, bdata := d, bint := true } :=
  h.run (execPhyComplete_data (s := { s with turns := .agent .seq :: ts }) h.waits h.bint h.status hd hl) rfl rfl
    rfl

/-- The phase of the start condition: the address byte is commanded. -/
theorem PhaseDue.run_start (hp : s.ph = .startIssued) (hl : s.busLog.getLast? = some .start) :
    runSteps 2 s = .next (addressIssued (statusTaken v vs ts s)) := by
  rw [h.run_status (by simp [hl]), hp, sequencerOperation]
  exact exec_phAddr_ok (s := statusTaken v vs ts s) hp rfl h.ok

/-- The phase of the address byte: the first data byte is commanded or the stop. -/
theorem PhaseDue.run_address {b : Byte} (hp : s.ph = .addrSent) (hi : s.idx = 0)
    (hl : s.busLog.getLast? = some (.xmit b)) :
    runSteps 2 s = outcomeOf (issueDataOrStop (statusTaken v vs ts s)) := by
  rw [h.run_status (by simp [hl]), hp, sequencerOperation,
    exec_phDataFirst_ok (s := statusTaken v vs ts s) hp rfl h.ok, issueDataOrStop]
  have hz : (statusTaken v vs ts s).idx.toNat = 0 := congrArg BitVec.toNat hi
  rw [hz]
  split
  · next hc => rw [hc]; rfl
  · next hc => rw [if_pos (Nat.pos_of_ne_zero fun h0 => hc (BitVec.eq_of_toNat_eq h0))]

/-- The phase of the data byte number IDX: it is counted, a received byte is stored, and the next byte is commanded or
the stop. -/
theorem PhaseDue.run_dataXfer (hp : s.ph = .dataXfer) (hi : s.idx.toNat < s.cnt.toNat)
    (hl : s.busLog.getLast? = some (dataCommand s s.idx.toNat)) (hd : s.dir = .read → s.phyData ≠ []) :
    ∃ d ds m, runSteps 2 s = outcomeOf (issueDataOrStop (dataCounted v d vs ds m ts s)) ∧
      (s.dir = .read → s.phyData = d :: ds ∧ m = s.rxbuf.write s.idx.toNat d) := by
  unfold dataCommand at hl
  cases hdir : s.dir with
  | write =>
    have hop : sequencerOperation s.ph s.dir = .phDataW := by rw [hp, hdir]; rfl
    rw [hdir] at hl
    refine ⟨s.bdata, s.phyData, s.rxbuf, ?_, nofun⟩
    rw [h.run_status (by simp [hl]), hop]
    exact exec_phDataW_ok (s := statusTaken v vs ts s) hp hdir rfl h.ok
  | read =>
    have hop : sequencerOperation s.ph s.dir = .phDataR := by rw [hp, hdir]; rfl
    rw [hdir] at hl
    obtain ⟨d, ds, hds⟩ := List.exists_cons_of_ne_nil (hd hdir)
    refine ⟨d, ds, s.rxbuf.write s.idx.toNat d, ?_, fun _ => ⟨hds, rfl⟩⟩
    rw [h.run_data hds hl, hop]
    exact exec_phDataR_ok
      (s := { s with turns := ts, phyStatus := vs, phyData := ds, bstat := v, bdata := d, bint := true }) hp hdir rfl
      h.ok hi

end

/-! The data phases of a transaction. -/

/-- What a transaction writes between PH.START and PH.DONE when no phase fails: everything else is kept. -/
def TransactionFrame (s t : State) : Prop :=
  t = { s with
    ph := t.ph, idx := t.idx, bint := t.bint, bstat := t.bstat, bdata := t.bdata, bctl := t.bctl, busLog := t.busLog
    rxbuf := t.rxbuf, phyStatus := t.phyStatus, phyData := t.phyData, turns := t.turns }

/-- The data bytes from number IDX on have their values, and the statuses `sts` of their phases are scripted, with the
turns of the agents. -/
structure DataDue (s : State) (sts rs : List Byte) (ts : List Turn) : Prop where
  count   : s.idx.toNat + sts.length = s.cnt.toNat
  payload : s.dir = .write → ∀ i, i < s.cnt.toNat → (s.txpay.read i).isSome = true
  data    : s.dir = .read → sts.length ≤ s.phyData.length
  status  : s.phyStatus = sts ++ rs
  ok      : ∀ v ∈ sts, classify s.cfg.status v = .ok
  turns   : s.turns = phaseSchedule sts.length ++ ts

/-- From `s` on a transaction has issued `cmds` and the stop, and has received the `n` bytes from number IDX on. -/
structure ReachesStop (s : State) (cmds : List PhyCommand) (n : Nat) (rs : List Byte) (ts : List Turn) (t : State) :
    Prop where
  frame    : TransactionFrame s t
  ph       : t.ph = .stopIssued
  idx      : t.idx = s.cnt
  log      : t.busLog = s.busLog ++ cmds ++ [.stop]
  status   : t.phyStatus = rs
  turns    : t.turns = ts
  data     : s.dir = .read → t.phyData = s.phyData.drop n
  received : s.dir = .read → ∀ i, i < n → t.rxbuf.read (s.idx.toNat + i) = s.phyData[i]?
  stored   : s.dir = .read → ∀ i, i < s.idx.toNat → t.rxbuf.read i = s.rxbuf.read i

section
variable {s : State} {v d : Byte} {sts rs ds : List Byte} {ts : List Turn} {m : Memory}

/-- While a data byte is left, it can be commanded. -/
theorem DataDue.issues (h : DataDue s (v :: sts) rs ts) :
    s.idx.toNat < s.cnt.toNat ∧ issueDataOrStop s = .ok (dataIssued s) := by
  have hc := h.count
  rw [List.length_cons] at hc
  have hi : s.idx.toNat < s.cnt.toNat := by omega
  obtain ⟨u, hu⟩ := issueData_ok hi fun hd => h.payload hd _ hi
  cases issueData_eq hu
  exact ⟨hi, (if_pos hi).trans hu⟩

/-- With one byte counted, one fewer is left. -/
theorem DataDue.counted (h : DataDue s (v :: sts) rs ts) (hi : s.idx.toNat < s.cnt.toNat)
    (hd : s.dir = .read → s.phyData = d :: ds) :
    DataDue (dataCounted v d (sts ++ rs) ds m (phaseSchedule sts.length ++ ts) (dataIssued s)) sts rs ts where
  count := by
    show (s.idx + 1).toNat + sts.length = s.cnt.toNat
    have hc := h.count
    rw [List.length_cons] at hc
    rw [idx_succ hi]
    omega
  payload := h.payload
  data hr := by
    have hl := h.data hr
    rw [hd hr] at hl
    exact Nat.le_of_succ_le_succ hl
  status := rfl
  ok v' hv' := h.ok v' (List.mem_cons_of_mem v hv')
  turns := rfl

/-- What is left after the byte number IDX, and that byte. -/
theorem ReachesStop.of_counted {n : Nat} {vs : List Byte} {ts' : List Turn} {t : State} (hi : s.idx.toNat < s.cnt.toNat)
    (hd : s.dir = .read → s.phyData = d :: ds ∧ m = s.rxbuf.write s.idx.toNat d)
    (h : ReachesStop (dataCounted v d vs ds m ts' (dataIssued s))
      ((List.range n).map fun i => dataCommand s ((s.idx + 1).toNat + i)) n rs ts t) :
    ReachesStop s ((List.range (n + 1)).map fun i => dataCommand s (s.idx.toNat + i)) (n + 1) rs ts t where
  frame := h.frame
  ph := h.ph
  idx := h.idx
  log := by
    rw [h.log, idx_succ hi]
    simp [dataCounted, dataIssued, List.range_succ_eq_map, Function.comp_def, Nat.add_assoc, Nat.add_comm]
  status := h.status
  turns := h.turns
  data hr := by
    rw [h.data hr, (hd hr).1]
    rfl
  received hr i hn := by
    have hs : (s.idx + 1).toNat = s.idx.toNat + 1 := idx_succ hi
    obtain ⟨hds, rfl⟩ := hd hr
    rw [hds]
    cases i with
    | zero =>
      refine (h.stored hr s.idx.toNat ?_).trans (Memory.read_write_same _ _ _)
      show s.idx.toNat < (s.idx + 1).toNat
      omega
    | succ i =>
      have hb := h.received hr i (Nat.lt_of_succ_lt_succ hn)
      change t.rxbuf.read ((s.idx + 1).toNat + i) = ds[i]? at hb
      rwa [hs, Nat.add_right_comm] at hb
  stored hr i hn := by
    have hs : (s.idx + 1).toNat = s.idx.toNat + 1 := idx_succ hi
    obtain ⟨-, rfl⟩ := hd hr
    refine (h.stored hr i ?_).trans (Memory.read_write_other _ _ (Nat.ne_of_lt hn))
    show i < (s.idx + 1).toNat
    omega

end

/-- The data bytes not commanded yet go through their phases, and the stop follows. -/
theorem DataDue.reachesStop {rs : List Byte} {ts : List Turn} (sts : List Byte) {s : State} (h : DataDue s sts rs ts) :
    ∃ u t, issueDataOrStop s = .ok u ∧ runSteps (2 * sts.length) u = .next t ∧
      ReachesStop s ((List.range sts.length).map fun i => dataCommand s (s.idx.toNat + i)) sts.length rs ts t := by
  induction sts generalizing s with
  | nil =>
    have he : s.idx.toNat = s.cnt.toNat := h.count
    refine ⟨stop s, stop s, if_neg (by omega), rfl, rfl, rfl, BitVec.eq_of_toNat_eq he, by simp, h.status, h.turns,
      fun _ => ?_, nofun, fun _ _ _ => rfl⟩
    simp
  | cons v sts ih =>
    obtain ⟨hi, hu⟩ := h.issues
    have hphase : PhaseDue (dataIssued s) v (sts ++ rs) (phaseSchedule sts.length ++ ts) :=
      ⟨rfl, rfl, h.status, h.ok v (by simp), h.turns⟩
    obtain ⟨d, ds, m, hrun, hread⟩ := hphase.run_dataXfer rfl hi (List.getLast?_concat ..)
      fun hd => List.ne_nil_of_length_pos (Nat.lt_of_lt_of_le (Nat.zero_lt_succ _) (h.data hd))
    obtain ⟨w, t, hw, hrest, ht⟩ := ih (h.counted (m := m) hi fun hd => (hread hd).1)
    refine ⟨_, t, hu, ?_, .of_counted hi hread ht⟩
    rw [hw] at hrun
    rw [List.length_cons, Nat.mul_succ, Nat.add_comm, runSteps_add hrun, hrest]

/-! From PH.START to the stop. -/

/-- A transaction that PH.START has begun, with the statuses `sts` of its phases scripted, all OK, and the turns of the
agents. -/
structure TransactionDue (s : State) (sts rs : List Byte) (ts : List Turn) : Prop where
  ph      : s.ph = .startIssued
  bint    : s.bint = false
  idx     : s.idx = 0
  last    : s.busLog.getLast? = some .start
  count   : sts.length = s.cnt.toNat + 2
  payload : s.dir = .write → ∀ i, i < s.cnt.toNat → (s.txpay.read i).isSome = true
  data    : s.dir = .read → s.cnt.toNat ≤ s.phyData.length
  status  : s.phyStatus = sts ++ rs
  ok      : ∀ v ∈ sts, classify s.cfg.status v = .ok
  turns   : s.turns = phaseSchedule sts.length ++ ts

/-- What the transaction that PH.START has begun commands before its stop. -/
def transactionCommands (s : State) : List PhyCommand :=
  .xmit (addressByte s.addr s.dir) :: (List.range s.cnt.toNat).map (dataCommand s)

/-- The start condition, the address byte and the data bytes go through their phases, and the stop follows. -/
theorem TransactionDue.reachesStop {s : State} {sts rs : List Byte} {ts : List Turn} (h : TransactionDue s sts rs ts) :
    ∃ t, runSteps (2 * sts.length) s = .next t ∧
      ReachesStop s (transactionCommands s) s.cnt.toNat rs ts t := by
  unfold transactionCommands
  obtain ⟨hp, hb, hi, hl, hc, payload, data, hs, hok, ht⟩ := h
  obtain _ | ⟨v, _ | ⟨w, sts⟩⟩ := sts
  · cases hc
  · cases hc
  have hn : s.cnt.toNat = sts.length := by simpa using hc.symm
  have hv : PhaseDue s v (w :: sts ++ rs) (phaseSchedule (sts.length + 1) ++ ts) :=
    ⟨by rw [hp]; rfl, hb, hs, hok v (by simp), ht⟩
  have hstart := hv.run_start hp hl
  have hw : PhaseDue (addressIssued (statusTaken v (w :: sts ++ rs) (phaseSchedule (sts.length + 1) ++ ts) s)) w
    (sts ++ rs) (phaseSchedule sts.length ++ ts) := ⟨rfl, rfl, rfl, hok w (by simp), rfl⟩
  have haddress := hw.run_address rfl hi (List.getLast?_concat ..)
  have hdata : DataDue (statusTaken w (sts ++ rs) (phaseSchedule sts.length ++ ts)
      (addressIssued (statusTaken v (w :: sts ++ rs) (phaseSchedule (sts.length + 1) ++ ts) s))) sts rs ts := by
    refine ⟨?_, payload, fun hd => hn ▸ data hd, rfl, fun v' hv' => hok v' (by simp [hv']), rfl⟩
    show s.idx.toNat + sts.length = s.cnt.toNat
    simp [hi, hn]
  obtain ⟨u, t, hu, hrun, hstop⟩ := hdata.reachesStop
  rw [hu] at haddress
  rw [hn]
  refine ⟨t, ?_, { hstop with log := ?_ }⟩
  · rw [List.length_cons, List.length_cons, show 2 * (sts.length + 1 + 1) = 2 + (2 + 2 * sts.length) by omega,
      runSteps_add hstart, runSteps_add haddress, hrun]
  · rw [hstop.log]
    simp [statusTaken, addressIssued, hi, dataCommand]

/-! HOST presents the command, SEQ takes it. -/

/-- A header as a number (30_encoding.md R81). -/
theorem header_eq_encodeHA {h : Word} {o : BitVec 4} {a : Address} {n : Nat} (hn : n < 65536)
    (hh : h.toNat = o.toNat * 2 ^ 28 + a.toNat * 2 ^ 16 + n) : h = encodeHA o a (BitVec.ofNat 16 n) := by
  apply BitVec.eq_of_toNat_eq
  rw [hh, encodeHA_toNat, BitVec.toNat_ofNat, Nat.mod_eq_of_lt (by omega)]

/-- A command of the BTC that passes its checks is presented, and SEQ takes it. -/
theorem runSteps_presented {s : State} {h : Word} {hs : List Word} {i : Instr} {rest : List Byte} {ts : List Turn}
    (ht : s.turns = .agent .host :: .agent .seq :: ts) (hp : portFree s = true) (hc : s.hostCmds = h :: hs)
    (hd : decodeCommand h s.hostBytes = .ok i rest) (hu : commandUnit i = some .seq) (hk : failedCheck i s = none) :
    ∃ u, u = { s with turns := ts, hostCmds := hs, hostBytes := rest, cmd := some (.presented i) } ∧
      atPort .seq u = some i ∧ runSteps 2 s = takeCommand i u := by
  obtain ⟨-, hr, hi⟩ := portFree_iff.1 hp
  have hport : atPort .seq { s with turns := ts, hostCmds := hs, hostBytes := rest, cmd := some (.presented i) } =
      some i := atPort_iff.2 ⟨rfl, hu, by cases i <;> exact hk, hr, hi⟩
  refine ⟨_, rfl, hport, ?_⟩
  have hstep : step s = .next
      { s with turns := .agent .seq :: ts, hostCmds := hs, hostBytes := rest, cmd := some (.presented i) } := by
    rw [step_cons ht]
    exact hostTurn_present (s := { s with turns := .agent .seq :: ts }) hp hc hd (by rwa [failedCheck_turns])
  rw [runSteps_next hstep, runSteps_one]
  exact step_atPort rfl hport

theorem transactionSchedule_append (n : Nat) (ts : List Turn) :
    transactionSchedule n ++ ts = .agent .host :: .agent .seq :: (phaseSchedule n ++ .agent .seq :: ts) := by
  simp [transactionSchedule]

/-- A transaction begun in two steps reaches its stop, and SEQ's next step is PH.DONE. -/
theorem TransactionDue.runs_to_phDone {s u : State} {sts rs : List Byte} {ts : List Turn}
    (h : TransactionDue u sts rs (.agent .seq :: ts)) (hs : runSteps 2 s = .next u) :
    ∃ t, runSteps (2 * sts.length + 3) s = exec .phDone { t with turns := ts } ∧
      ReachesStop u (transactionCommands u) u.cnt.toNat rs (.agent .seq :: ts) t := by
  obtain ⟨t, hrun, ht⟩ := h.reachesStop
  refine ⟨t, ?_, ht⟩
  rw [show 2 * sts.length + 3 = 2 + (2 * sts.length + 1) by omega, runSteps_add hs, runSteps_add hrun, runSteps_one]
  exact step_seq ht.turns ht.ph nofun (by simp [seqReady, ht.ph])

/-- PH.START begins a transaction whose data bytes and answers are there. -/
theorem transactionDue_startTransaction {s : State} {a : Address} {dir : Direction} {n : BitVec 16} {sts rs : List Byte}
    {ts : List Turn} (hc : sts.length = n.toNat + 2)
    (hw : dir = .write → ∀ i, i < n.toNat → (s.txpay.read i).isSome = true)
    (hr : dir = .read → n.toNat ≤ s.phyData.length) (hs : s.phyStatus = sts ++ rs)
    (hok : ∀ v ∈ sts, classify s.cfg.status v = .ok) (ht : s.turns = phaseSchedule sts.length ++ ts) :
    TransactionDue (startTransaction a dir n s) sts rs ts :=
  ⟨rfl, rfl, rfl, List.getLast?_concat .., hc, hw, hr, hs, hok, ht⟩

/-- The address byte as a number (30_encoding.md R89). -/
theorem addressByte_eq (a : Address) (dir : Direction) :
    addressByte a dir = BitVec.ofNat 8 (a.toNat * 2 + dir.code.toNat) := by
  apply BitVec.eq_of_toNat_eq
  have := dir.code.isLt
  rw [addressByte, toNat_append_add, BitVec.toNat_ofNat, Nat.mod_eq_of_lt (by omega), Nat.pow_one]

/-! A BSEND. -/

/-- A write commands its payload, in order. -/
theorem transactionCommands_write {s : State} {b : List Byte} (hd : s.dir = .write) (hp : s.txpay = Memory.ofBytes b)
    (hc : s.cnt.toNat = b.length) :
    transactionCommands s = .xmit (BitVec.ofNat 8 (s.addr.toNat * 2)) :: b.map .xmit := by
  have hb : (List.range b.length).map (dataCommand s) = b.map .xmit := by
    refine List.ext_getElem (by simp) fun i hi _ => ?_
    have hi' : i < b.length := by simpa using hi
    simp [dataCommand, hd, hp, hi']
  rw [transactionCommands, hd, addressByte_eq, hc, hb]
  rfl

theorem exec_phDone_write {s : State} (hp : s.ph = .stopIssued) (hd : s.dir = .write) :
    exec .phDone s = .next { respond 0x2 0 [] s with ph := .idle } := by
  simp only [exec, execPhDone, hp, hd, if_true]

/-- Settles O59: HOST presents the command, SEQ begins it, its phases complete, SEQ answers it. -/
theorem bsendRunsToItsResponse : Obligations.BsendRunsToItsResponse := by
  intro s a b sts rs bs h hs ts hp he hl hh hc hb hst hlen hok ht
  rw [transactionSchedule_append, ← hlen] at ht
  have hcnt : (BitVec.ofNat 16 b.length).toNat = b.length := Nat.mod_eq_of_lt hl
  have hdec : decodeCommand h s.hostBytes = .ok (.bsend a b) bs := by
    rw [hb, header_eq_encodeHA (o := 0x2) hl hh]
    exact decodeCommand_encode (p := .default) (i := .bsend a b) (decide_eq_true hl) rfl bs
  obtain ⟨w, hw, hport, hbegun⟩ := runSteps_presented ht hp hc hdec rfl (failedCheck_bsend.2 he)
  rw [takeCommand_bsend hport] at hbegun
  have hdue : TransactionDue
      (startTransaction a .write (BitVec.ofNat 16 b.length) { w with txpay := Memory.ofBytes b }) sts rs
      (.agent .seq :: ts) :=
    transactionDue_startTransaction (by rw [hcnt, hlen]) (fun _ i hi => by rw [hcnt] at hi; simp [hi]) nofun
      (by rw [hw]; exact hst) (by rw [hw]; exact hok) (by rw [hw])
  obtain ⟨t, hrun, frame, ph, idx, log, status, -⟩ := hdue.runs_to_phDone hbegun
  rw [exec_phDone_write (s := { t with turns := ts }) ph (congrArg State.dir frame), hlen] at hrun
  refine ⟨_, hrun, ?_⟩
  have hlog : t.busLog = w.busLog ++ .start :: .xmit (BitVec.ofNat 8 (a.toNat * 2)) :: b.map .xmit ++ [.stop] := by
    rw [log, transactionCommands_write rfl rfl hcnt]
    simp [startTransaction]
  have hidx : t.idx.toNat = b.length := (congrArg BitVec.toNat idx).trans hcnt
  subst hw
  rw [show t = _ from frame]
  exact ⟨hlog, rfl, rfl, rfl, rfl, hidx, hcnt, rfl, rfl, rfl, rfl, rfl, rfl, rfl, rfl, rfl, rfl, rfl, rfl, rfl, rfl,
    status⟩

/-! A BRECV. -/

/-- A read commands one receive a byte and acknowledges all but the last. -/
theorem transactionCommands_read {s : State} {n : Nat} (hd : s.dir = .read) (hc : s.cnt.toNat = n) :
    transactionCommands s =
      .xmit (BitVec.ofNat 8 (s.addr.toNat * 2 + 1)) :: (List.range n).map fun i => .recv (decide (i + 1 < n)) := by
  have hb : (List.range n).map (dataCommand s) = (List.range n).map fun i => .recv (decide (i + 1 < n)) :=
    List.map_congr_left fun i _ => by rw [dataCommand, hd, hc]
  rw [transactionCommands, hd, addressByte_eq, hc, hb]
  rfl

/-- The word of a response that is no reject (30_encoding.md R85). -/
theorem responseWord_ok (o : BitVec 4) (n : BitVec 16) :
    responseWord o 0 n = BitVec.ofNat 32 (o.toNat * 2 ^ 28 + n.toNat) := by
  apply BitVec.eq_of_toNat_eq
  have := o.isLt; have := n.isLt
  have hz : (0 : BitVec 4).toNat = 0 := rfl
  simp only [responseWord, toNat_append_add, BitVec.toNat_ofNat, hz]
  omega

/-- PH.DONE of a BRECV whose bytes are in RXBUF: the dump, the response, IDLE; the rest of what it touches is the output
channel's. -/
theorem exec_phDone_read {s : State} {d : List Byte} (hr : RingOk s) (hp : s.ph = .stopIssued) (hd : s.dir = .read)
    (hi : s.idx.toNat = d.length) (hc : s.cnt.toNat = d.length) (hb : ∀ i, i < d.length → s.rxbuf.read i = d[i]?) :
    ∃ v, exec .phDone s = .next v ∧ v = { s with
      ring := v.ring, wcur := v.wcur, rcur := v.rcur, txdata := v.txdata, txrdy := v.txrdy, stage := []
      diagLog := s.diagLog ++ [.rxDump s.addr d], resp := some ⟨responseWord 0x3 0 s.idx, d⟩, cmd := none
      ph := .idle } := by
  have hread : memReadRange .rxbuf s 0 s.idx.toNat = .ok d :=
    memReadRange_ok d hi.symm (by simp [spaceSize, hi, hc]) fun i hlt => by simpa [State.mem] using hb i (hi ▸ hlt)
  obtain ⟨w, hw⟩ := enqueue_ok hr (diagText s (.rxDump s.addr d))
  have hdone : exec .phDone s = outcomeOf (finishReceive s) := by simp only [exec, execPhDone, hp, hd, if_true]
  refine ⟨_, hdone.trans (congrArg outcomeOf (finishReceive_eq hread hw)), ?_⟩
  rw [enqueue_frame hw]
  rfl

/-- Settles O60: as O59, with the bytes received in RXBUF and the dump on a ring that is well formed. -/
theorem brecvRunsToItsResponse : Obligations.BrecvRunsToItsResponse := by
  intro s a d sts rs ds h hs ts hp he hring hl hh hc hst hlen hdata hok ht
  rw [transactionSchedule_append, ← hlen] at ht
  have hcnt : (BitVec.ofNat 16 d.length).toNat = d.length := Nat.mod_eq_of_lt hl
  have hdec : decodeCommand h s.hostBytes = .ok (.brecv a (BitVec.ofNat 16 d.length)) s.hostBytes := by
    rw [header_eq_encodeHA (o := 0x3) hl hh]
    exact decodeCommand_encode (p := .default) (i := .brecv a _) rfl rfl s.hostBytes
  obtain ⟨w, hw, hport, hbegun⟩ := runSteps_presented ht hp hc hdec rfl (failedCheck_brecv.2 he)
  rw [takeCommand_brecv hport] at hbegun
  have hdata' : w.phyData = d ++ ds := by rw [hw]; exact hdata
  have hring' : RingOk w := by rw [hw]; apply hring.congr <;> rfl
  have hdue : TransactionDue (startTransaction a .read (BitVec.ofNat 16 d.length) w) sts rs (.agent .seq :: ts) :=
    transactionDue_startTransaction (by rw [hcnt, hlen]) nofun (fun _ => by simp [hcnt, hdata'])
      (by rw [hw]; exact hst) (by rw [hw]; exact hok) (by rw [hw])
  obtain ⟨t, hrun, frame, ph, idx, log, status, -, data, received, -⟩ := hdue.runs_to_phDone hbegun
  have hidx : t.idx.toNat = d.length := (congrArg BitVec.toNat idx).trans hcnt
  have hcnt' : t.cnt.toNat = d.length := (congrArg (fun u => u.cnt.toNat) frame).trans hcnt
  have hrx (i) (hi : i < d.length) : t.rxbuf.read i = d[i]? := by
    have hb : t.rxbuf.read (0 + i) = w.phyData[i]? := received rfl i (hcnt.symm ▸ hi)
    rwa [Nat.zero_add, hdata', List.getElem?_append_left hi] at hb
  have hleft : t.phyData = ds := by
    have hb : t.phyData = w.phyData.drop (BitVec.ofNat 16 d.length).toNat := data rfl
    rwa [hcnt, hdata', List.drop_left] at hb
  have hlog : t.busLog = w.busLog ++ .start :: .xmit (BitVec.ofNat 8 (a.toNat * 2 + 1)) ::
      (List.range d.length).map (fun i => .recv (decide (i + 1 < d.length))) ++ [.stop] := by
    rw [log, transactionCommands_read rfl hcnt]
    simp [startTransaction]
  have hringT : RingOk { t with turns := ts } := by
    rw [show t = _ from frame]
    apply hring'.congr <;> rfl
  obtain ⟨v, hdone, hv⟩ := exec_phDone_read hringT ph (congrArg State.dir frame) hidx hcnt' hrx
  have hresp : some (Response.mk (responseWord 0x3 0 t.idx) d) =
      some { word := BitVec.ofNat 32 (0x30000000 + d.length), data := d } := by
    rw [responseWord_ok, hidx]
    rfl
  rw [hdone, hlen] at hrun
  refine ⟨v, hrun, ?_⟩
  subst hw
  rw [hv, show t = _ from frame]
  exact ⟨hlog, hresp, rfl, rfl, rfl, hidx, hcnt, rfl, rfl, hrx, rfl, rfl, rfl, rfl, rfl, status, hleft⟩

end Sys2Proof.Machine
end

section
/-! PROOF. Every transition of PH and the PHY command it issues (O52). -/

namespace Sys2Proof.Machine

/-- After an OK data byte the next one is commanded in DATA_XFER, or the stop in STOP_ISSUED. -/
theorem nextData_transition {s v : State} (hi : s.idx.toNat < s.cnt.toNat) (h : nextData s = .ok v) :
    (s.idx.toNat + 1 < s.cnt.toNat ∧ v.ph = .dataXfer ∧
      v.busLog = s.busLog ++ [dataCommand s (s.idx.toNat + 1)]) ∨
    (s.idx.toNat + 1 = s.cnt.toNat ∧ v.ph = .stopIssued ∧ v.busLog = s.busLog ++ [.stop]) := by
  obtain ⟨hlt, h⟩ | ⟨he, rfl⟩ := nextData_cases hi h
  · cases issueData_eq h
    rw [← idx_succ hi]
    exact .inl ⟨by rwa [idx_succ hi], rfl, rfl⟩
  · exact .inr ⟨he, rfl, rfl⟩

/-- A received byte is stored first, which touches neither PH nor what is commanded next. -/
theorem received_transition {s w v : State} (hw : storeReceived s = .ok w) (h : nextData w = .ok v) :
    (s.idx.toNat + 1 < s.cnt.toNat ∧ v.ph = .dataXfer ∧
      v.busLog = s.busLog ++ [dataCommand s (s.idx.toNat + 1)]) ∨
    (s.idx.toNat + 1 = s.cnt.toNat ∧ v.ph = .stopIssued ∧ v.busLog = s.busLog ++ [.stop]) := by
  obtain ⟨hi, rfl⟩ := storeReceived_cases hw
  exact nextData_transition (s := { s with rxbuf := s.rxbuf.write s.idx.toNat s.bdata }) hi h

theorem failAndStop_transition {c : StatusClass} {s v : State} (h : failAndStop c s = .ok v) :
    v.ph = .stopIssued ∧ v.busLog = s.busLog ++ [.stop] := by
  obtain ⟨w, hw, rfl⟩ := failAndStop_cases h
  rw [enqueue_frame hw]
  exact ⟨rfl, rfl⟩

/-- A command that starts a transaction has been at the port: none stands accepted between two steps. -/
theorem Invariant.startedFromPort {s : State} {i : Instr} {c : Outstanding} (h : Invariant s)
    (hc : (∃ a b, c = .bsend a b) ∨ ∃ a n, c = .brecv a n)
    (hs : s.cmd = some c ∨ atPort .seq s = some i ∧ s.ben = true) : s.ben = true ∧ s.cmd = some (.presented i) := by
  obtain hs | ⟨hs, he⟩ := hs
  · obtain ⟨a, b, rfl⟩ | ⟨a, n, rfl⟩ := hc
    · exact absurd hs (h.started.1 a b)
    · exact absurd hs (h.started.2 a n)
  · exact ⟨he, (atPort_iff.1 hs).1⟩

/-- Settles O52: of the effects of a step, those of the sequencer's phases are the rows of R130, and every other one
leaves PH and bus_log alone. -/
theorem phaseTransitionsAreTheTable : Obligations.PhaseTransitionsAreTheTable := by
  intro s t hs h
  have hu := hs.nextTurn
  have he := step_effect h
  rw [nextTurn_frame] at hu he
  cases he with
  | startWrite _ a b hi hc =>
    obtain ⟨hb, hp⟩ := hu.startedFromPort (.inl ⟨a, b, rfl⟩) hc
    exact .inr <| .inl ⟨hi, hb, .inl ⟨a, b, hp⟩, rfl, rfl⟩
  | startRead _ a n hi hc =>
    obtain ⟨hb, hp⟩ := hu.startedFromPort (.inr ⟨a, n, rfl⟩) hc
    exact .inr <| .inl ⟨hi, hb, .inr ⟨a, n, hp⟩, rfl, rfl⟩
  | address _ hi hb hk => exact .inr <| .inr <| .inl ⟨hi, hb, hk, rfl, rfl⟩
  | failed _ _ _ hi hb hk hn h =>
    subst hk
    have hv := failAndStop_transition h
    obtain hp | hp | hp := waits_cases hi
    · exact .inr <| .inr <| .inr <| .inl ⟨hp, hb, hn, hv⟩
    · exact .inr <| .inr <| .inr <| .inr <| .inr <| .inl ⟨hp, hb, .inr hn, hv⟩
    · exact .inr <| .inr <| .inr <| .inr <| .inr <| .inr <| .inr <| .inl ⟨hp, hb, .inr hn, hv⟩
  | firstData _ _ hi hb hk hc h =>
    have hpos : 0 < s.cnt.toNat := Nat.pos_of_ne_zero fun h0 => hc (BitVec.eq_of_toNat_eq h0)
    cases issueData_eq h
    rw [hu.idxZero (.inr hi)]
    exact .inr <| .inr <| .inr <| .inr <| .inl ⟨hi, hb, hk, hpos, rfl, rfl⟩
  | emptyStop _ hi hb _ hc => exact .inr <| .inr <| .inr <| .inr <| .inr <| .inl ⟨hi, hb, .inl hc, rfl, rfl⟩
  | written _ _ hi hb _ hk h =>
    obtain ⟨hlt, hv⟩ | ⟨he, hv⟩ := nextData_transition (hu.idxLt hi) h
    · exact .inr <| .inr <| .inr <| .inr <| .inr <| .inr <| .inl ⟨hi, hb, hk, hlt, hv⟩
    · exact .inr <| .inr <| .inr <| .inr <| .inr <| .inr <| .inr <| .inl ⟨hi, hb, .inl he, hv⟩
  | received _ _ _ hi hb _ hk hw h =>
    obtain ⟨hlt, hv⟩ | ⟨he, hv⟩ := received_transition hw h
    · exact .inr <| .inr <| .inr <| .inr <| .inr <| .inr <| .inl ⟨hi, hb, hk, hlt, hv⟩
    · exact .inr <| .inr <| .inr <| .inr <| .inr <| .inr <| .inr <| .inl ⟨hi, hb, .inl he, hv⟩
  | doneWrite _ hi => exact .inr <| .inr <| .inr <| .inr <| .inr <| .inr <| .inr <| .inr ⟨hi, rfl, rfl⟩
  | doneRead _ _ hi _ h =>
    obtain ⟨bs, hv⟩ := finishReceive_frame h
    rw [hv]
    exact .inr <| .inr <| .inr <| .inr <| .inr <| .inr <| .inr <| .inr ⟨hi, rfl, rfl⟩
  | commit _ _ _ h => rw [senqCommit_frame h]; exact .inl ⟨rfl, rfl⟩
  | drain _ _ _ _ _ h => obtain ⟨b, -, -, rfl⟩ := ringToTx_cases h; exact .inl ⟨rfl, rfl⟩
  | phy _ _ _ _ _ _ _ _ _ hv => subst hv; exact .inl ⟨rfl, rfl⟩
  | bctl _ ht => cases hs.nextIsAgent.symm.trans ht
  | _ => exact .inl ⟨rfl, rfl⟩

end Sys2Proof.Machine
end

section
/-! PROOF. A turn of an agent that has no enabled step changes nothing (O8). -/

namespace Sys2Proof.Machine

theorem waits_of_cases {p : Phase} (h : p = .startIssued ∨ p = .addrSent ∨ p = .dataXfer) : p.waits = true := by
  obtain rfl | rfl | rfl := h <;> rfl

/-- An agent finds nothing at the port when what stands there, if anything, is another unit's or fails its checks. -/
theorem atPort_eq_none_of_unfit {a : Agent} {s : State}
    (h : ∀ i, s.cmd = some (.presented i) → commandUnit i ≠ some a ∨ failedCheck i s ≠ none) : atPort a s = none := by
  refine Option.eq_none_iff_forall_not_mem.2 fun i hi => ?_
  obtain ⟨hc, hu, hk, -, -⟩ := atPort_iff.1 hi
  exact (h i hc).elim (absurd hu) (absurd hk)

theorem seqReady_idle {s : State} (hp : s.ph = .idle) (hw : ∀ a b, s.cmd ≠ some (.bsend a b))
    (hr : ∀ a n, s.cmd ≠ some (.brecv a n)) : seqReady s = false := by
  simp only [seqReady, hp]
  split
  · exact absurd ‹_› (hw _ _)
  · exact absurd ‹_› (hr _ _)
  all_goals rfl

/-- SEQ waits in IDLE for a command of the BTC. -/
theorem seqTurn_of_idle {s : State} (hp : s.ph = .idle) (hw : ∀ a b, s.cmd ≠ some (.bsend a b))
    (hr : ∀ a n, s.cmd ≠ some (.brecv a n)) (hc : atPort .seq s = none) : seqTurn s = .next s := by
  rw [seqTurn, hc]
  exact if_neg (by simp [seqReady_idle hp hw hr])

/-- PROD polls TXRDY. -/
theorem ssendbStep_of_busy {s : State} {text : List Byte} {pos : Nat} (hp : pos < text.length)
    (hr : s.txrdy = false) : ssendbStep text pos s = s := by
  rw [ssendbStep, List.getElem?_eq_getElem hp]
  exact if_neg (by simp [hr])

theorem drainTurn_not_enabled {s : State} (h : s.txie = false ∨ s.txip = false) : drainTurn s = .next s := by
  unfold drainTurn
  obtain h | h := h <;> rw [h]
  · cases s.txip <;> rfl
  · cases s.txie <;> rfl

theorem uartTurn_not_enabled {s : State} (h : s.txen = false ∨ s.txrdy = true) : uartTurn s = .next s := by
  unfold uartTurn
  obtain h | h := h <;> rw [h]
  · cases s.txrdy <;> rfl
  · cases s.txen <;> rfl

theorem phyTurn_not_enabled {s : State} (h : s.ph.waits = false ∨ s.bint = true) : phyTurn s = .next s := by
  unfold phyTurn
  obtain h | h := h <;> rw [h]
  · rfl
  · exact ite_self _

/-- HOST is blocked while it may not present. -/
theorem hostTurn_of_blocked {s : State} (hr : s.resp = none) (hp : portFree s = false) : hostTurn s = .next s := by
  simp [hostTurn, hr, hp]

/-- HOST has no command, or has not given all its payload bytes. -/
theorem hostTurn_of_incomplete {s : State} (hr : s.resp = none)
    (h : s.hostCmds = [] ∨ ∃ h hs, s.hostCmds = h :: hs ∧ decodeCommand h s.hostBytes = .short) :
    hostTurn s = .next s := by
  cases hp : portFree s with
  | false => exact hostTurn_of_blocked hr hp
  | true =>
    obtain hc | ⟨h, hs, hc, hd⟩ := h
    · simp [hostTurn, hr, hp, hc]
    · simp [hostTurn, hr, hp, hc, hd]

/-- Settles O8, agent by agent: each guard of an agent's turn is false, or the port has nothing for its unit. -/
theorem waitingTurnChangesNothing : Obligations.WaitingTurnChangesNothing := by
  intro s ts
  have unfit {a : Agent} (h : ∀ i, s.cmd = some (.presented i) → commandUnit i ≠ some a ∨ failedCheck i s ≠ none) :
      atPort a { s with turns := ts } = none :=
    atPort_eq_none_of_unfit fun i hi => by rw [failedCheck_turns]; exact h i hi
  refine ⟨fun ht h => ?_, fun ht h => ?_, fun ht h => ?_, fun ht h => ?_, fun ht h => ?_, fun ht hr h => ?_⟩ <;>
    rw [step_cons ht]
  · obtain ⟨hp, hb⟩ | ⟨hp, hw, hr, hc⟩ := h
    · exact seqTurn_of_waits (s := { s with turns := ts }) (waits_of_cases hp) hb
    · exact seqTurn_of_idle hp hw hr (unfit hc)
  · have hport : atPort .prod { s with turns := ts } = none := unfit fun i hi => by
      obtain ⟨text, pos, hc, -⟩ | hc | ⟨a, b, hc⟩ | ⟨a, n, hc⟩ | ⟨j, hc, hj⟩ := h <;> cases hi.symm.trans hc
      exact hj
    simp only [runTurn, prodTurn, hport, prodStep]
    obtain ⟨text, pos, hc, hp, hr⟩ | hc | ⟨a, b, hc⟩ | ⟨a, n, hc⟩ | ⟨i, hc, -⟩ := h <;> simp only [hc]
    exact congrArg Host.Outcome.next (ssendbStep_of_busy hp hr)
  · exact drainTurn_not_enabled h
  · exact uartTurn_not_enabled h
  · refine phyTurn_not_enabled ?_
    obtain hp | hp | hb := h
    · exact .inl (congrArg Phase.waits hp)
    · exact .inl (congrArg Phase.waits hp)
    · exact .inr hb
  · obtain hc | hp | h := h
    · exact hostTurn_of_blocked hr (Bool.eq_false_iff.2 fun hf => hc (portFree_iff.1 hf).1)
    · exact hostTurn_of_blocked hr (Bool.eq_false_iff.2 fun hf => hp (portFree_iff.1 hf).2.2)
    · exact hostTurn_of_incomplete hr h

end Sys2Proof.Machine
end

section
/-! PROOF. The sequencer's steps when a phase is OK (O22 to O27, O29, O30), PHY.COMPLETE (O31) and the BCTL patterns
(O32). -/

namespace Sys2Proof.Machine

/-! The start of a transaction. -/

theorem exec_phStart_bsend {s : State} {a : Address} {b : List Byte} (hp : s.ph = .idle) :
    exec .phStart { s with cmd := some (.bsend a b) } =
      .next (startTransaction a .write (BitVec.ofNat 16 b.length) { s with txpay := Memory.ofBytes b }) :=
  if_pos hp

theorem exec_phStart_brecv {s : State} {a : Address} {n : BitVec 16} (hp : s.ph = .idle) :
    exec .phStart { s with cmd := some (.brecv a n) } = .next (startTransaction a .read n s) :=
  if_pos hp

/-- Settles O22: the acceptance leaves the command in CMD, and PH.START takes it from there. -/
theorem bsendStartsTransaction : Obligations.BsendStartsTransaction := by
  intro s a b hp he _
  obtain ⟨hc, -, hi⟩ := portFree_iff.1 hp
  refine ⟨_, exec_bsend_accepted hp he, Memory.ofBytes b, Memory.read_ofBytes b, Memory.wf_ofBytes b, ?_⟩
  rw [exec_phStart_bsend hi, startTransaction, ← hc]
  rfl

/-- Settles O23, as O22. -/
theorem brecvStartsTransaction : Obligations.BrecvStartsTransaction := by
  intro s a n hp he
  obtain ⟨hc, -, hi⟩ := portFree_iff.1 hp
  refine ⟨_, exec_brecv_accepted hp he, ?_⟩
  rw [exec_phStart_brecv hi, startTransaction, ← hc]
  rfl

/-! The address byte and the data bytes. -/

/-- Settles O24: the address byte `{ADDR, DIR}` is the number `ADDR * 2 + DIR`. -/
theorem phAddrCommandsAddressByte : Obligations.PhAddrCommandsAddressByte := by
  rintro s b hp hb hk rfl
  have hbyte : addressByte s.addr s.dir =
      BitVec.ofNat 8 (s.addr.toNat * 2 + if s.dir = .read then 1 else 0) := by
    rw [addressByte_eq]
    cases s.dir <;> rfl
  rw [exec_phAddr_ok hp hb hk, hbyte]
  rfl

/-- A receive's pattern is told by its acknowledge (30_encoding.md R88). -/
theorem phyIssue_recv (p : Prop) [Decidable p] (s : State) :
    phyIssue (.recv (decide p)) s = { s with
      bctl := if p then s.cfg.patterns.xfera else s.cfg.patterns.xfern
      bint := false, busLog := s.busLog ++ [.recv (decide p)] } := by
  simp [phyIssue, patternOf]

/-- Settles O25: the stop when CNT = 0, else the data byte number IDX in either direction. -/
theorem phDataFirstCommandsDataOrStop : Obligations.PhDataFirstCommandsDataOrStop := by
  intro s hp hb hk
  have hne (hi : s.idx.toNat < s.cnt.toNat) : s.cnt ≠ 0 := fun h0 => by simp [h0] at hi
  rw [exec_phDataFirst_ok hp hb hk]
  refine ⟨fun hc => ?_, fun b hi hd hm => ?_, fun hi hd => ?_⟩
  · rw [if_pos hc]
    rfl
  · rw [if_neg (hne hi), issueData_write hd hi hm]
    rfl
  · rw [if_neg (hne hi), issueData_read hd, ackChoice, phyIssue_recv]
    rfl

/-- IDX counts a byte, as a number. -/
theorem idx_add_one (i : BitVec 16) : i + 1 = BitVec.ofNat 16 (i.toNat + 1) := by
  simp [BitVec.ofNat_add]

/-- With a byte left, the next one is commanded. -/
theorem nextData_of_lt {s : State} (h : s.idx.toNat + 1 < s.cnt.toNat) :
    nextData s = issueData { s with idx := s.idx + 1 } := by
  have hi : s.idx.toNat < s.cnt.toNat := by omega
  refine if_pos ?_
  show (s.idx + 1).toNat < s.cnt.toNat
  rwa [idx_succ hi]

theorem nextData_write {s : State} {b : Byte} (hd : s.dir = .write) (hlt : s.idx.toNat + 1 < s.cnt.toNat)
    (hm : s.txpay.read (s.idx.toNat + 1) = some b) :
    nextData s = .ok { s with
      idx := BitVec.ofNat 16 (s.idx.toNat + 1), bdata := b, bctl := s.cfg.patterns.xfern, bint := false
      busLog := s.busLog ++ [.xmit b], ph := .dataXfer } := by
  have hi : s.idx.toNat < s.cnt.toNat := by omega
  rw [← idx_succ hi] at hm
  rw [nextData_of_lt hlt, issueData_write (s := { s with idx := s.idx + 1 }) hd (by rwa [idx_succ hi]) hm,
    ← idx_add_one]
  rfl

theorem nextData_read {s : State} (hd : s.dir = .read) (hlt : s.idx.toNat + 1 < s.cnt.toNat) :
    nextData s = .ok { s with
      idx := BitVec.ofNat 16 (s.idx.toNat + 1)
      bctl := if s.idx.toNat + 2 < s.cnt.toNat then s.cfg.patterns.xfera else s.cfg.patterns.xfern
      bint := false, busLog := s.busLog ++ [.recv (decide (s.idx.toNat + 2 < s.cnt.toNat))], ph := .dataXfer } := by
  have hi : s.idx.toNat < s.cnt.toNat := by omega
  have hack : ackChoice (s.idx + 1) s.cnt = decide (s.idx.toNat + 2 < s.cnt.toNat) := by rw [ackChoice, idx_succ hi]
  rw [nextData_of_lt hlt, issueData_read (s := { s with idx := s.idx + 1 }) hd, hack, phyIssue_recv, ← idx_add_one]

/-- After the last byte IDX is CNT, and the stop is commanded. -/
theorem nextData_of_eq {s : State} (h : s.idx.toNat + 1 = s.cnt.toNat) :
    nextData s = .ok (stop { s with idx := s.cnt }) := by
  have hi : s.idx.toNat < s.cnt.toNat := by omega
  have he : s.idx + 1 = s.cnt := BitVec.eq_of_toNat_eq ((idx_succ hi).trans h)
  simp only [nextData, issueDataOrStop, he, Nat.lt_irrefl, if_false]

/-- Settles O26: the operation is `nextData`, which commands the next byte of a write or stops. -/
theorem phDataWriteCountsAndContinues : Obligations.PhDataWriteCountsAndContinues := by
  intro s hp hb hd hk hi
  rw [exec_phDataW_ok hp hd hb hk]
  refine ⟨fun b hlt hm => ?_, fun he => ?_⟩
  · rw [nextData_write hd hlt hm, ← hp]
    rfl
  · rw [nextData_of_eq he]
    rfl

/-- Settles O27: RXBUF after the write of BDATA is the memory asked for, and `nextData` goes on from there. -/
theorem phDataReadStoresAndContinues : Obligations.PhDataReadStoresAndContinues := by
  intro s hp hb hd hk hi
  refine ⟨s.rxbuf.write s.idx.toNat s.bdata, Memory.read_write_same _ _ _, fun a ha => Memory.read_write_other _ _ ha,
    ?_⟩
  rw [exec_phDataR_ok hp hd hb hk hi]
  generalize s.rxbuf.write s.idx.toNat s.bdata = m
  refine ⟨fun hlt => ?_, fun he => ?_⟩
  · rw [nextData_read (s := { s with rxbuf := m }) hd hlt, ← hp]
    rfl
  · rw [nextData_of_eq (s := { s with rxbuf := m }) he]
    rfl

/-! The end of a transaction. -/

/-- Settles O29: the response word of a BSEND with COUNT 0. -/
theorem phDoneAnswersBsend : Obligations.PhDoneAnswersBsend := by
  intro s hp hd
  exact exec_phDone_write hp hd

/-- Settles O30: the bytes are read back, and the dump's text is committed on a ring that is well formed. -/
theorem phDoneAnswersBrecv : Obligations.PhDoneAnswersBrecv := by
  intro s bs hp hd hr hi hl hb
  have hread : memReadRange .rxbuf s 0 s.idx.toNat = .ok bs :=
    memReadRange_ok bs hl (by simpa [spaceSize] using hi) fun i hlt => by simpa [State.mem] using hb i (hl ▸ hlt)
  have hword : responseWord 0x3 0 s.idx = BitVec.ofNat 32 (0x30000000 + s.idx.toNat) := responseWord_ok 0x3 s.idx
  obtain ⟨v, hv⟩ := enqueue_ok hr (diagText s (.rxDump s.addr bs))
  refine ⟨v, hv, ?_⟩
  simp only [exec, execPhDone, hp, hd, if_true, finishReceive_eq hread hv, outcomeOf, respond, hword]

/-! PHY.COMPLETE. -/

theorem drawStatus_scripted {s : State} {v : Byte} {vs : List Byte} (h : s.phyStatus = v :: vs) :
    drawStatus s = (v, { s with phyStatus := vs }) := by
  rw [drawStatus, h]

theorem drawStatus_free {s : State} (h : s.phyStatus = []) :
    drawStatus s = (Config.freeStatus s.draws, { s with draws := s.draws + 1 }) := by
  rw [drawStatus, h]

theorem drawData_scripted {s : State} {d : Byte} {ds : List Byte} (h : s.phyData = d :: ds) :
    drawData s = (d, { s with phyData := ds }) := by
  rw [drawData, h]

theorem drawData_free {s : State} (h : s.phyData = []) :
    drawData s = (Config.freeData s.draws, { s with draws := s.draws + 1 }) := by
  rw [drawData, h]

section
variable {s u : State} {v : Byte} (hw : s.ph.waits = true) (hb : s.bint = false) (hs : drawStatus s = (v, u))
include hw hb hs

/-- After a command that receives nothing the status alone is drawn. -/
theorem execPhyComplete_of_status (hl : ∀ k, s.busLog.getLast? ≠ some (.recv k)) :
    execPhyComplete s = .next { u with bstat := v, bint := true } := by
  simp only [execPhyComplete, phyCompleteEnabled, hw, hb, hs]
  cases hc : s.busLog.getLast? with
  | none => rfl
  | some c =>
    cases c with
    | recv k => exact absurd hc (hl k)
    | _ => rfl

/-- After a receive the status is drawn, then the byte. -/
theorem execPhyComplete_of_data {w : State} {d : Byte} {k : Bool} (hl : s.busLog.getLast? = some (.recv k))
    (hd : drawData { u with bstat := v, bint := true } = (d, w)) :
    execPhyComplete s = .next { w with bdata := d } := by
  simp only [execPhyComplete, phyCompleteEnabled, hw, hb, hs, hl, hd]
  rfl

end

/-- Settles O31: each answer is the script's next, or a free value where the script is empty. -/
theorem phyCompleteReportsAnyStatus : Obligations.PhyCompleteReportsAnyStatus := by
  intro s hp hb
  have hw := waits_of_cases hp
  refine ⟨fun hl => ⟨fun v vs hs => ?_, fun hs => ?_⟩,
    fun k hl => ⟨fun v vs d ds hs hd => ?_, fun v vs hs hd => ?_, fun d ds hs hd => ?_, fun hs hd => ?_⟩⟩
  · exact execPhyComplete_status hw hb hs hl
  · exact ⟨_, execPhyComplete_of_status hw hb (drawStatus_free hs) hl⟩
  · exact execPhyComplete_data hw hb hs hd hl
  · exact ⟨_, execPhyComplete_of_data hw hb (drawStatus_scripted hs) hl (drawData_free hd)⟩
  · exact ⟨_, execPhyComplete_of_data hw hb (drawStatus_free hs) hl (drawData_scripted hd)⟩
  · exact ⟨_, _, execPhyComplete_of_data hw hb (drawStatus_free hs) hl (drawData_free hd)⟩

/-! The BCTL patterns. -/

/-- Settles O32: P.XFERN receives exactly in the phases of a read after its address byte. -/
theorem patternsCommandThePhy : Obligations.PatternsCommandThePhy := by
  intro s
  have xfern {c : PhyCommand} (h : xfernCommand s = c) : exec .pXfern s = .next (phyIssue c s) := by
    rw [← h]
    rfl
  refine ⟨rfl, rfl, rfl, fun hd hp => xfern (if_pos ⟨hd, hp⟩), fun h => xfern (if_neg ?_)⟩
  rintro ⟨hd, hp⟩
  obtain hw | ⟨ha, hx⟩ := h
  · cases hd.symm.trans hw
  · exact hp.elim ha hx

end Sys2Proof.Machine
end

section
/-! PROOF. The status decoder: the phase that is not OK (O28), the classification (O34), the error line (O35), the
receive dump (O36) and the numbers in the texts (O37). -/

namespace Sys2Proof.Machine

/-- Settles O28: the phase ends in `Fail(c); Stop()`, whose enqueue commit completes on a well-formed ring. -/
theorem failedPhaseRecordsAndStops : Obligations.FailedPhaseRecordsAndStops := by
  intro s i c hi hb hk hn hr
  obtain ⟨v, hv⟩ := enqueue_ok hr (diagText s (.errLine c s.bstat s.addr))
  refine ⟨v, hv, ?_⟩
  rw [exec_phase_failed hi hb hk hn, failAndStop_eq, hv, enqueue_frame hv]
  rfl

/-! The status table. -/

theorem mem_statusSymbols (k : StatusSymbol) : k ∈ StatusSymbol.all := by
  cases k <;> decide

/-- In a table of distinct values a value names one symbol. -/
theorem value_injective_of_distinct {t : StatusTable} (h : t.Distinct) : Function.Injective t.value :=
  fun k _ he => List.inj_on_of_nodup_map h (mem_statusSymbols k) (mem_statusSymbols _) he

theorem lookupStatus_eq_none_iff {t : StatusTable} {v : Byte} :
    lookupStatus t v = none ↔ ∀ k, t.value k ≠ v := by
  simp [lookupStatus, mem_statusSymbols]

theorem value_of_lookupStatus {t : StatusTable} {v : Byte} {k : StatusSymbol} (h : lookupStatus t v = some k) :
    v = t.value k := by
  have hk : decide (t.value k = v) = true := List.find?_some (p := fun k => decide (t.value k = v)) h
  exact (of_decide_eq_true hk).symm

theorem lookupStatus_eq_some_iff {t : StatusTable} {v : Byte} {k : StatusSymbol} (h : t.Distinct) :
    lookupStatus t v = some k ↔ v = t.value k := by
  refine ⟨value_of_lookupStatus, fun hv => ?_⟩
  cases hl : lookupStatus t v with
  | none => exact absurd hv.symm (lookupStatus_eq_none_iff.1 hl k)
  | some k' => rw [value_injective_of_distinct h ((value_of_lookupStatus hl).symm.trans hv)]

/-- No known symbol has the class of the unknown codes. -/
theorem symbolClass_ne_unrecognized (k : StatusSymbol) : symbolClass k ≠ .unrecognized := by
  cases k <;> decide

theorem classify_eq_unrecognized_iff {t : StatusTable} {v : Byte} :
    classify t v = .unrecognized ↔ ∀ k, t.value k ≠ v := by
  rw [← lookupStatus_eq_none_iff, classify]
  cases lookupStatus t v with
  | none => simp
  | some k => simp [symbolClass_ne_unrecognized]

/-- Every other class is that of the symbol whose value the code is, one of the symbols `ks` of that class. -/
theorem classify_eq_iff_of_mem {t : StatusTable} {v : Byte} {c : StatusClass} {ks : List StatusSymbol}
    (h : t.Distinct) (hc : c ≠ .unrecognized) (hks : ∀ k, symbolClass k = c ↔ k ∈ ks) :
    classify t v = c ↔ ∃ k ∈ ks, v = t.value k := by
  simp only [← hks, ← lookupStatus_eq_some_iff h, classify]
  cases lookupStatus t v with
  | none => simp [hc.symm]
  | some k => simp

/-- Settles O34: the symbols of each class, and the codes that are no symbol's value. -/
theorem classifyIsTheTable : Obligations.ClassifyIsTheTable := by
  intro t v h
  have ok : ∀ k, symbolClass k = .ok ↔
      k ∈ [StatusSymbol.start, .slawAck, .datwAck, .slarAck, .datrAck, .datrNack] := fun k => by cases k <;> decide
  have recoverable : ∀ k, symbolClass k = .recoverable ↔
      k ∈ [StatusSymbol.slawNack, .datwNack, .slarNack] := fun k => by cases k <;> decide
  have fatal : ∀ k, symbolClass k = .fatal ↔ k ∈ [StatusSymbol.rstart, .arbLost] := fun k => by cases k <;> decide
  refine ⟨?_, ?_, ?_, classify_eq_unrecognized_iff⟩
  · simp [classify_eq_iff_of_mem h (by decide) ok, StatusTable.value]
  · simp [classify_eq_iff_of_mem h (by decide) recoverable, StatusTable.value]
  · simp [classify_eq_iff_of_mem h (by decide) fatal, StatusTable.value]

/-! The texts of the two events. -/

theorem ascii_newline : ascii "\n" = [0x0a] := by decide

@[simp] theorem hex2_length (v : Byte) : (hex2 v).length = 2 := rfl

/-- Every event's text ends in a line terminator. -/
theorem standardRender_getLast? (t : StatusTable) (e : DiagEvent) : (standardRender t e).getLast? = some 0x0a := by
  cases e <;> rw [standardRender, ascii_newline, List.getLast?_concat]

/-- The longest severity with the longest description of its class: `Recoverable` with `data tx nack`. -/
theorem severityName_describe_length_le (t : StatusTable) (v : Byte) :
    (severityName (classify t v)).length + (describe t v).length ≤ 23 := by
  unfold classify describe
  cases lookupStatus t v with
  | none => decide
  | some k => cases k <;> decide

theorem errLine_length (t : StatusTable) (c : StatusClass) (v : Byte) (a : Address) :
    (standardRender t (.errLine c v a)).length = 22 + ((severityName c).length + (describe t v).length) := by
  have h1 : (ascii "TWI ").length = 4 := by decide
  have h2 : (ascii " ").length = 1 := by decide
  have h3 : (ascii " st=0x").length = 6 := by decide
  have h4 : (ascii " ad=0x").length = 6 := by decide
  simp only [standardRender, ascii_newline, List.length_append, h1, h2, h3, h4, hex2_length, List.length_singleton]
  omega

/-- An error line begins with `TWI ` and the severity. -/
theorem errLine_begins_with_severity (t : StatusTable) (c : StatusClass) (v : Byte) (a : Address) :
    ascii "TWI " ++ severityName c <+: standardRender t (.errLine c v a) := by
  simp [standardRender]

/-- Settles O35: the parts of the line, and the severity each class has. -/
theorem errorLineHasItsShape : Obligations.ErrorLineHasItsShape := by
  intro t v a hok
  have begins {text : String} (h : ascii text = ascii "TWI " ++ severityName (classify t v)) :
      ascii text <+: standardRender t (.errLine (classify t v) v a) := h ▸ errLine_begins_with_severity t _ v a
  refine ⟨?_, standardRender_getLast? t _, fun hr => begins ?_, fun hr => begins ?_⟩
  · rw [errLine_length]
    exact Nat.add_le_add_left (severityName_describe_length_le t v) 22
  · rw [hr]
    decide
  · cases hc : classify t v with
    | ok => exact absurd hc hok
    | recoverable => exact absurd hc hr
    | fatal => decide
    | unrecognized => decide

/-! Decimal numerals. -/

/-- One decimal digit (42_status_decoder.md R149). -/
def decDigit (d : Nat) : Byte := BitVec.ofNat 8 (0x30 + d)

theorem toNat_decDigit {d : Nat} (h : d < 10) : (decDigit d).toNat = 0x30 + d := by
  simp only [decDigit, BitVec.toNat_ofNat]
  omega

/-- With fuel enough the digits of a positive number are those of `Nat.digits`, the most significant first. -/
theorem decDigits_eq_digits {fuel n : Nat} (h0 : 0 < n) (hf : n < fuel) :
    decDigits fuel n = (Nat.digits 10 n).reverse.map decDigit := by
  induction fuel generalizing n with
  | zero => omega
  | succ fuel ih =>
    rw [decDigits]
    split
    · next hlt =>
      rw [Nat.digits_of_lt 10 n h0.ne' hlt]
      rfl
    · next hge =>
      rw [ih (by omega) (by omega), Nat.digits_def' (by decide) h0]
      simp [decDigit]

theorem dec_eq_digits {n : Nat} (h : 0 < n) : dec n = (Nat.digits 10 n).reverse.map decDigit :=
  decDigits_eq_digits h n.lt_succ_self

theorem dec_zero : dec 0 = [0x30] := by decide

/-- The bytes of a numeral are digits. -/
theorem exists_decDigit_of_mem_dec {n : Nat} {b : Byte} (hb : b ∈ dec n) : ∃ d < 10, b = decDigit d := by
  obtain rfl | h := n.eq_zero_or_pos
  · exact ⟨0, by decide, List.mem_singleton.1 (dec_zero ▸ hb)⟩
  · rw [dec_eq_digits h] at hb
    obtain ⟨d, hd, rfl⟩ := List.mem_map.1 hb
    exact ⟨d, Nat.digits_lt_base (by decide) (List.mem_reverse.1 hd), rfl⟩

/-- Read as a decimal numeral, `dec n` is `n`. -/
theorem dec_value (n : Nat) : (dec n).foldl (fun v b => 10 * v + (b.toNat - 0x30)) 0 = n := by
  obtain rfl | h := n.eq_zero_or_pos
  · rfl
  · calc (dec n).foldl (fun v b => 10 * v + (b.toNat - 0x30)) 0
      _ = (Nat.digits 10 n).foldr (fun d v => 10 * v + ((decDigit d).toNat - 0x30)) 0 := by
        rw [dec_eq_digits h, List.foldl_map, List.foldl_reverse]
      _ = (Nat.digits 10 n).foldr (fun d v => d + 10 * v) 0 := by
        refine List.foldr_ext _ _ _ fun d hd v => ?_
        rw [toNat_decDigit (Nat.digits_lt_base (by decide) hd)]
        omega
      _ = n := by
        exact (Nat.ofDigits_eq_foldr 10 _).symm.trans (Nat.ofDigits_digits 10 n)

theorem dec_head?_ne_zero {n : Nat} (h : 0 < n) : (dec n).head? ≠ some 0x30 := by
  have hne : Nat.digits 10 n ≠ [] := Nat.digits_ne_nil_iff_ne_zero.2 h.ne'
  have hlast := Nat.getLast_digit_ne_zero 10 h.ne'
  have hlt := Nat.digits_lt_base (by decide) (List.getLast_mem hne)
  rw [dec_eq_digits h, List.head?_map, List.head?_reverse, List.getLast?_eq_getLast_of_ne_nil hne]
  intro he
  have hzero := congrArg BitVec.toNat (Option.some.inj he)
  rw [toNat_decDigit hlt] at hzero
  exact hlast (by simpa using hzero)

theorem dec_length {n k : Nat} (h1 : 10 ^ k ≤ max n 1) (h2 : n < 10 ^ (k + 1)) : (dec n).length = k + 1 := by
  obtain rfl | h := n.eq_zero_or_pos
  · obtain rfl : k = 0 := by
      by_contra hk
      exact absurd h1 (Nat.not_le.2 (Nat.one_lt_pow hk (by decide)))
    rfl
  · rw [Nat.max_eq_left h] at h1
    rw [dec_eq_digits h, List.length_map, List.length_reverse]
    exact Nat.le_antisymm ((Nat.digits_length_le_iff (by decide) n).2 h2)
      ((Nat.lt_digits_length_iff (by decide) n).2 h1)

theorem rxDump_length (t : StatusTable) (a : Address) (bs : List Byte) :
    (standardRender t (.rxDump a bs)).length = 19 + 3 * bs.length + (dec bs.length).length := by
  have h1 : (ascii "TWI rx ad=0x").length = 12 := by decide
  have h2 : (ascii " n=").length = 3 := by decide
  have h3 : (ascii ":").length = 1 := by decide
  have h4 : (ascii " ").length = 1 := by decide
  have bytes : (bs.flatMap fun b => ascii " " ++ hex2 b).length = 3 * bs.length := by
    simp [List.length_flatMap, h4, Nat.mul_comm]
  simp only [standardRender, ascii_newline, List.length_append, h1, h2, h3, bytes, hex2_length, List.length_singleton]
  omega

/-- Settles O36: the fixed parts, three bytes per byte, and the numeral of the count. -/
theorem receiveDumpLength : Obligations.ReceiveDumpLength := by
  intro t a bs k h1 h2
  refine ⟨?_, standardRender_getLast? t _⟩
  rw [rxDump_length, dec_length h1 h2]
  omega

/-! Hexadecimal numerals. -/

theorem getElem?_hexDigits {n : Nat} (h : n < 16) : (ascii "0123456789abcdef")[n]? = some (hexDigit n) := by
  decide +revert

/-- A dump of no byte shows the address zero-extended to 8 bits, and the count 0. -/
theorem rxDump_nil (t : StatusTable) (a : Address) :
    standardRender t (.rxDump a []) = ascii "TWI rx ad=0x" ++ hex2 (a.setWidth 8) ++ ascii " n=0:\n" := by
  have count : ascii " n=" ++ (dec 0 ++ (ascii ":" ++ ascii "\n")) = ascii " n=0:\n" := by decide
  simp only [standardRender, List.length_nil, List.flatMap_nil, List.append_nil, List.append_assoc, count]

/-- Settles O37: `hex2` looks its nibbles up among the sixteen digits, and `dec` writes the digits of `Nat.digits`. -/
theorem numbersRenderAsText : Obligations.NumbersRenderAsText := by
  refine ⟨fun v => ⟨rfl, ?_, ?_⟩, fun t a v hv => ?_,
    fun n => ⟨dec_value n, fun b hb => ?_, dec_head?_ne_zero, dec_zero⟩⟩
  · have hv : v.toNat < 256 := v.isLt
    rw [getElem?_hexDigits (by omega)]
    rfl
  · rw [getElem?_hexDigits (Nat.mod_lt _ (by decide))]
    rfl
  · have ha : a.setWidth 8 = v := BitVec.eq_of_toNat_eq (by rw [BitVec.toNat_setWidth_of_le (by decide), hv])
    rw [rxDump_nil, ha]
  · obtain ⟨d, hd, rfl⟩ := exists_decDigit_of_mem_dec hb
    rw [toNat_decDigit hd]
    omega

end Sys2Proof.Machine
end

section
/-! PROOF. Every step keeps the invariant (O4): its part on the output channel, its part on the bus controller and its
part on the ports, each for every effect of a step. -/

namespace Sys2Proof.Machine

/-! The output channel. -/

/-- The part of the invariant that speaks of the ring, the transmitter and their enables. -/
structure ChannelSound (s : State) : Prop where
  ring     : RingOk s
  busy     : RingBusy s
  ringWf   : s.ring.wf = true
  ringSize : ∀ c ∈ s.ring, c.1 < s.cfg.cap
  together : s.txie = s.txen
  pending  : s.txip = true → s.txen = true

theorem ChannelSound.enqueue {s v : State} {t : List Byte} (h : ChannelSound s) (he : enqueue t s = .ok v) :
    ChannelSound v := by
  obtain ⟨ring, busy, ringWf, ringSize⟩ := enqueue_keeps h.ring h.busy h.ringWf h.ringSize he
  have hv := enqueue_frame he
  exact { ring, busy, ringWf
          ringSize := by rw [congrArg State.cfg hv]; exact ringSize
          together := by rw [hv]; exact h.together
          pending := by rw [hv]; exact h.pending }

/-- A byte that enters the transmit register makes the channel busy. -/
theorem ChannelSound.drain {s v : State} (h : ChannelSound s) (hn : s.rcur ≠ s.wcur)
    (hv : ringToTx { s with txip := false } = .ok v) : ChannelSound v := by
  have held : 0 < occupied s := Nat.pos_of_ne_zero fun h0 => hn (h.ring.occupied_eq_zero.1 h0)
  obtain ⟨b, -, -, rfl⟩ := ringToTx_cases hv
  exact { h with ring := { (h.ring.pop held).1 with }, busy := fun _ => .inl rfl, pending := nofun }

theorem Effect.channelSound {t : Turn} {u v : State} (hu : ChannelSound u) (h : Effect t u v) : ChannelSound v := by
  cases h with
  | sinit => exact { hu with ring := { hu.ring with }, together := rfl, pending := fun _ => rfl }
  | failed _ _ _ _ _ _ _ h =>
    obtain ⟨w, hw, rfl⟩ := failAndStop_cases h
    have sound := hu.enqueue hw
    exact { sound with ring := { sound.ring with } }
  | firstData _ _ _ _ _ _ h => rw [issueData_frame h]; exact { hu with ring := { hu.ring with } }
  | written _ _ _ _ _ _ h => rw [nextData_frame h]; exact { hu with ring := { hu.ring with } }
  | received _ _ _ _ _ _ _ hw h => rw [received_frame hw h]; exact { hu with ring := { hu.ring with } }
  | doneRead _ _ _ _ h =>
    obtain ⟨bs, w, -, hw, rfl⟩ := finishReceive_cases h
    have sound := hu.enqueue hw
    exact { sound with ring := { sound.ring with } }
  | sendByte => exact { hu with ring := { hu.ring with }, busy := fun _ => .inl rfl }
  | commit _ _ _ h =>
    obtain ⟨w, hw, rfl⟩ := senqCommit_cases h
    have sound := hu.enqueue hw
    exact { sound with ring := { sound.ring with } }
  | drain _ _ _ hn _ h => exact hu.drain hn h
  | drainNothing _ _ hn =>
    have busy : RingBusy { u with txip := false } := fun held =>
      .inl (hn.resolve_left fun he => held.ne' (hu.ring.occupied_eq_zero.2 he))
    exact { hu with ring := { hu.ring with }, busy, pending := nofun }
  | uart _ _ he => exact { hu with ring := { hu.ring with }, busy := fun _ => .inr rfl, pending := fun _ => he }
  | phy _ _ _ _ _ _ _ _ _ hv => subst hv; exact { hu with ring := { hu.ring with } }
  | _ => exact { hu with ring := { hu.ring with } }

/-! The bus controller. -/

/-- The part of the invariant that speaks of the transaction in progress. -/
structure BusSound (s : State) : Prop where
  txpayWf  : s.txpay.wf = true
  rxbufWf  : s.rxbuf.wf = true
  idxLe    : s.idx.toNat ≤ s.cnt.toNat
  idxZero  : s.ph = .startIssued ∨ s.ph = .addrSent → s.idx = 0
  idxLt    : s.ph = .dataXfer → s.idx.toNat < s.cnt.toNat
  payload  : s.ph.waits = true → s.dir = .write → ∀ i, i < s.cnt.toNat → (s.txpay.read i).isSome = true
  received : s.ph ≠ .idle → s.dir = .read → ∀ i, i < s.idx.toNat → (s.rxbuf.read i).isSome = true
  okSoFar  : s.ph.waits = true → s.bres = .ok
  bctl     : s.bctl = 0x00 ∨ ∃ c, s.bctl = patternOf s.cfg.patterns c

/-- What holds of a transaction between its phases, whatever PH is: IDX data bytes are over, and their values and those
of the payload are there. -/
structure BytesPresent (s : State) : Prop where
  txpayWf  : s.txpay.wf = true
  rxbufWf  : s.rxbuf.wf = true
  idxLe    : s.idx.toNat ≤ s.cnt.toNat
  payload  : s.dir = .write → ∀ i, i < s.cnt.toNat → (s.txpay.read i).isSome = true
  received : s.dir = .read → ∀ i, i < s.idx.toNat → (s.rxbuf.read i).isSome = true

theorem not_idle_of_waits {p : Phase} (h : p.waits = true) : p ≠ .idle := by
  rintro rfl
  cases h

theorem BusSound.bytesPresent {s : State} (h : BusSound s) (hw : s.ph.waits = true) : BytesPresent s :=
  { h with payload := h.payload hw, received := h.received (not_idle_of_waits hw) }

theorem BytesPresent.stop {s : State} (h : BytesPresent s) : BusSound (stop s) :=
  { h with
    idxZero := by simp
    idxLt := nofun
    payload := nofun
    received := fun _ => h.received
    okSoFar := nofun
    bctl := .inr ⟨.stop, rfl⟩ }

theorem BytesPresent.issueData {s v : State} (h : BytesPresent s) (hk : s.bres = .ok) (hi : s.idx.toNat < s.cnt.toNat)
    (hv : issueData s = .ok v) : BusSound v := by
  cases issueData_eq hv
  exact { h with
    idxZero := by simp
    idxLt := fun _ => hi
    payload := fun _ => h.payload
    received := fun _ => h.received
    okSoFar := fun _ => hk
    bctl := .inr ⟨_, rfl⟩ }

/-- The data byte number IDX is counted, whose value a read has stored. -/
theorem BytesPresent.nextData {s v : State} (h : BytesPresent s) (hk : s.bres = .ok) (hi : s.idx.toNat < s.cnt.toNat)
    (hb : s.dir = .read → (s.rxbuf.read s.idx.toNat).isSome = true) (hv : nextData s = .ok v) : BusSound v := by
  have counted : BytesPresent { s with idx := s.idx + 1 } :=
    { h with
      idxLe := (idx_succ hi).trans_le hi
      received := fun hd i hlt => by
        have hlt' : i < s.idx.toNat + 1 := idx_succ hi ▸ hlt
        obtain hlt' | rfl := Nat.lt_succ_iff_lt_or_eq.1 hlt'
        · exact h.received hd i hlt'
        · exact hb hd }
  obtain ⟨hlt, hv⟩ | ⟨-, rfl⟩ := nextData_cases hi hv
  · exact counted.issueData hk ((idx_succ hi).trans_lt hlt) hv
  · exact counted.stop

/-- A received byte is stored at its number. -/
theorem BytesPresent.storeReceived {s : State} (h : BytesPresent s) :
    BytesPresent { s with rxbuf := s.rxbuf.write s.idx.toNat s.bdata } :=
  { h with
    rxbufWf := Memory.wf_write _ _ _ h.rxbufWf
    received := fun hd i hlt => by
      rw [Memory.read_write_other _ _ (Nat.ne_of_lt hlt)]
      exact h.received hd i hlt }

/-- PH.START begins with IDX = 0 and, for a write, with its payload there. -/
theorem busSound_startTransaction {s : State} {a : Address} {dir : Direction} {n : BitVec 16}
    (txpayWf : s.txpay.wf = true) (rxbufWf : s.rxbuf.wf = true)
    (payload : dir = .write → ∀ i, i < n.toNat → (s.txpay.read i).isSome = true) :
    BusSound (startTransaction a dir n s) :=
  { txpayWf, rxbufWf
    idxLe := Nat.zero_le _
    idxZero := fun _ => rfl
    idxLt := nofun
    payload := fun _ => payload
    received := fun _ _ _ hi => absurd hi (Nat.not_lt_zero _)
    okSoFar := fun _ => rfl
    bctl := .inr ⟨.start, rfl⟩ }

/-- The payload of a BSEND covers the count that is latched for it. -/
theorem isSome_read_ofBytes {b : List Byte} {i : Nat} (hi : i < (BitVec.ofNat 16 b.length).toNat) :
    ((Memory.ofBytes b).read i).isSome = true := by
  have hlt : i < b.length := Nat.lt_of_lt_of_le hi (by rw [BitVec.toNat_ofNat]; exact Nat.mod_le _ _)
  rw [Memory.read_ofBytes, List.getElem?_eq_getElem hlt]
  rfl

/-- The end of a transaction, in IDLE. -/
theorem BusSound.idle {s : State} (h : BusSound s) : BusSound { s with ph := .idle } :=
  { h with
    idxZero := by simp
    idxLt := nofun
    payload := nofun
    received := fun hn => absurd rfl hn
    okSoFar := nofun }

theorem Effect.busSound {t : Turn} {u v : State} (ht : t.isAgent = true) (hu : BusSound u) (h : Effect t u v) :
    BusSound v := by
  cases h with
  | startWrite =>
    exact busSound_startTransaction (Memory.wf_ofBytes _) hu.rxbufWf fun _ _ hi => isSome_read_ofBytes hi
  | startRead => exact busSound_startTransaction hu.txpayWf hu.rxbufWf nofun
  | address _ hi =>
    have hw : u.ph.waits = true := by rw [hi]; rfl
    exact { hu with
      idxZero := fun _ => hu.idxZero (.inl hi)
      idxLt := nofun
      payload := fun _ => hu.payload hw
      received := fun _ => hu.received (not_idle_of_waits hw)
      okSoFar := fun _ => hu.okSoFar hw
      bctl := .inr ⟨.xmit (addressByte u.addr u.dir), rfl⟩ }
  | failed _ _ _ hw _ _ _ h =>
    obtain ⟨w, hw', rfl⟩ := failAndStop_cases h
    rw [enqueue_frame hw']
    exact BytesPresent.stop { hu.bytesPresent hw with }
  | emptyStop _ hi => exact (hu.bytesPresent (by rw [hi]; rfl)).stop
  | firstData _ _ hi _ _ hc h =>
    have hw : u.ph.waits = true := by rw [hi]; rfl
    have hlt : u.idx.toNat < u.cnt.toNat := by
      rw [hu.idxZero (.inr hi)]
      exact Nat.pos_of_ne_zero fun h0 => hc (BitVec.eq_of_toNat_eq h0)
    exact (hu.bytesPresent hw).issueData (hu.okSoFar hw) hlt h
  | written _ _ hi _ hd _ h =>
    have hw : u.ph.waits = true := by rw [hi]; rfl
    exact (hu.bytesPresent hw).nextData (hu.okSoFar hw) (hu.idxLt hi) (fun hr => by rw [hd] at hr; cases hr) h
  | received _ _ _ hi _ _ _ hs h =>
    have hw : u.ph.waits = true := by rw [hi]; rfl
    obtain ⟨hlt, rfl⟩ := storeReceived_cases hs
    exact (hu.bytesPresent hw).storeReceived.nextData (hu.okSoFar hw) hlt
      (fun _ => by rw [Memory.read_write_same]; rfl) h
  | doneWrite => exact { hu.idle with }
  | doneRead _ _ _ _ h =>
    obtain ⟨bs, hv⟩ := finishReceive_frame h
    rw [hv]
    exact { hu.idle with }
  | commit _ _ _ h => rw [senqCommit_frame h]; exact { hu with }
  | drain _ _ _ _ _ h => obtain ⟨b, -, -, rfl⟩ := ringToTx_cases h; exact { hu with }
  | phy _ _ _ _ _ _ _ _ _ hv => subst hv; exact { hu with }
  | bctl _ ht' => cases ht.symm.trans ht'
  | _ => exact { hu with }

/-! The ports. -/

/-- The part of the invariant that speaks of the outstanding command, its stage, the response and the turns. -/
structure PortSound (s : State) : Prop where
  stageWf   : s.stage.wf = true
  stageSize : s.stage.length ≤ s.cfg.stageMax
  onePort   : s.cmd ≠ none → s.ph = .idle ∧ s.resp = none
  presented : ∀ i, s.cmd = some (.presented i) → commandUnit i ≠ none ∧ failedCheck i s = none
  started   : (∀ a b, s.cmd ≠ some (.bsend a b)) ∧ ∀ a n, s.cmd ≠ some (.brecv a n)
  respIdle  : s.resp ≠ none → s.ph = .idle
  staged    : s.stage ≠ [] → s.cmd = some .senq
  agents    : ∀ t ∈ s.turns, t.isAgent = true

section
variable {s v : State} (h : PortSound s)
include h

theorem PortSound.cmd_none (hp : s.ph ≠ .idle) : s.cmd = none :=
  Classical.byContradiction fun hn => hp (h.onePort hn).1

theorem PortSound.resp_none (hp : s.ph ≠ .idle) : s.resp = none :=
  Classical.byContradiction fun hn => hp (h.respIdle hn)

theorem PortSound.stage_nil (hc : s.cmd ≠ some .senq) : s.stage = [] :=
  Classical.byContradiction fun hn => hc (h.staged hn)

/-- A step that leaves no command outstanding and nothing staged has only the response to account for. -/
theorem PortSound.of_noCommand (ht : v.turns = s.turns) (hc : v.cmd = none)
    (hg : v.stage = [] ∨ v.stage = s.stage ∧ s.cmd ≠ some .senq) (respIdle : v.resp ≠ none → v.ph = .idle) :
    PortSound v := by
  have hnil : v.stage = [] := hg.elim id fun ⟨hg, hs⟩ => hg.trans (h.stage_nil hs)
  exact {
    respIdle
    stageWf := by rw [hnil]; rfl
    stageSize := by rw [hnil]; exact Nat.zero_le _
    onePort := fun hn => absurd hc hn
    presented := fun i hi => by cases hc.symm.trans hi
    started := by simp [hc]
    staged := fun hn => absurd hnil hn
    agents := by rw [ht]; exact h.agents }

/-- A unit takes a command and has it answered, or begins its transaction. -/
theorem PortSound.of_atPort {a : Agent} {i : Instr} (hi : atPort a s = some i) (ht : v.turns = s.turns)
    (hc : v.cmd = none) (hg : v.stage = s.stage) (hr : v.resp = s.resp ∨ v.ph = s.ph) : PortSound v := by
  obtain ⟨hs, -, -, hresp, hp⟩ := atPort_iff.1 hi
  refine h.of_noCommand ht hc (.inr ⟨hg, by simp [hs]⟩) fun hn => ?_
  obtain hr | hr := hr
  · exact absurd (hr.trans hresp) hn
  · exact hr.trans hp

/-- In a transaction nothing stands at the ports, and a step that puts nothing there keeps them so. -/
theorem PortSound.of_transaction (hp : s.ph ≠ .idle) (ht : v.turns = s.turns) (hc : v.cmd = s.cmd)
    (hg : v.stage = [] ∨ v.stage = s.stage) (hr : v.resp = s.resp) : PortSound v := by
  have hs := h.cmd_none hp
  exact h.of_noCommand ht (hc.trans hs) (hg.imp_right fun hg => ⟨hg, by simp [hs]⟩)
    fun hn => absurd (hr.trans (h.resp_none hp)) hn

/-- A SSENDB stands in IDLE, with no response waiting and nothing staged. -/
theorem PortSound.of_sending {text : List Byte} {pos : Nat} (hc : Sending s text pos) :
    s.ph = .idle ∧ s.resp = none ∧ s.cmd ≠ some .senq := by
  obtain hc | ⟨hi, -⟩ := hc
  · obtain ⟨hp, hr⟩ := h.onePort (by simp [hc])
    exact ⟨hp, hr, by simp [hc]⟩
  · obtain ⟨hc, -, -, hr, hp⟩ := atPort_iff.1 hi
    exact ⟨hp, hr, by simp [hc]⟩

/-- A SSENDB goes on, from any position to any other. -/
theorem PortSound.ssendb {text : List Byte} {pos : Nat} (hc : Sending s text pos) (next : Nat) :
    PortSound { s with cmd := some (.ssendb text next) } := by
  obtain ⟨hp, hr, hs⟩ := h.of_sending hc
  exact { h with
    onePort := fun _ => ⟨hp, hr⟩
    presented := nofun
    started := by simp
    staged := fun hn => absurd (h.stage_nil hs) hn }

end

theorem Effect.portSound {t : Turn} {u v : State} (hu : PortSound u) (h : Effect t u v) : PortSound v := by
  cases h with
  | takeResponse =>
    exact { hu with onePort := fun hn => ⟨(hu.onePort hn).1, rfl⟩, respIdle := fun hn => absurd rfl hn }
  | present _ _ _ i hp hi hk =>
    obtain ⟨hc, hr, hidle⟩ := portFree_iff.1 hp
    exact { hu with
      onePort := fun _ => ⟨hidle, hr⟩
      presented := by rintro _ ⟨⟩; exact ⟨hi, by cases i <;> exact hk⟩
      started := by simp
      staged := fun hn => absurd (hu.stage_nil (by simp [hc])) hn }
  | rejected _ _ _ _ _ hp =>
    obtain ⟨hc, -, hidle⟩ := portFree_iff.1 hp
    exact hu.of_noCommand rfl hc (.inr ⟨rfl, by simp [hc]⟩) fun _ => hidle
  | binit _ _ _ hi => exact hu.of_atPort hi rfl rfl rfl (.inr rfl)
  | sinit _ _ _ hi => exact hu.of_atPort hi rfl rfl rfl (.inr rfl)
  | stage _ text hi =>
    obtain ⟨-, -, -, hr, hidle⟩ := atPort_iff.1 hi
    exact { hu with
      stageWf := Memory.wf_ofBytes _
      stageSize := by simp
      onePort := fun _ => ⟨hidle, hr⟩
      presented := nofun
      started := by simp
      staged := fun _ => rfl }
  | startWrite _ _ _ _ hc =>
    obtain hc | ⟨hi, -⟩ := hc
    · exact absurd hc (hu.started.1 _ _)
    · exact hu.of_atPort hi rfl rfl rfl (.inl rfl)
  | startRead _ _ _ _ hc =>
    obtain hc | ⟨hi, -⟩ := hc
    · exact absurd hc (hu.started.2 _ _)
    · exact hu.of_atPort hi rfl rfl rfl (.inl rfl)
  | address _ hi => exact hu.of_transaction (by simp [hi]) rfl rfl (.inr rfl) rfl
  | failed _ _ _ hw _ _ _ h =>
    obtain ⟨w, hw', rfl⟩ := failAndStop_cases h
    rw [enqueue_frame hw']
    exact hu.of_transaction (not_idle_of_waits hw) rfl rfl (.inl rfl) rfl
  | emptyStop _ hi => exact hu.of_transaction (by simp [hi]) rfl rfl (.inr rfl) rfl
  | firstData _ _ hi _ _ _ h =>
    rw [issueData_frame h]
    exact hu.of_transaction (by simp [hi]) rfl rfl (.inr rfl) rfl
  | written _ _ hi _ _ _ h =>
    rw [nextData_frame h]
    exact hu.of_transaction (by simp [hi]) rfl rfl (.inr rfl) rfl
  | received _ _ _ hi _ _ _ hw h =>
    rw [received_frame hw h]
    exact hu.of_transaction (by simp [hi]) rfl rfl (.inr rfl) rfl
  | doneWrite _ hi => exact hu.of_noCommand rfl rfl (.inr ⟨rfl, by simp [hu.cmd_none, hi]⟩) fun _ => rfl
  | doneRead _ _ _ _ h =>
    obtain ⟨bs, w, -, hw, rfl⟩ := finishReceive_cases h
    rw [enqueue_frame hw]
    exact hu.of_noCommand rfl rfl (.inl rfl) fun _ => rfl
  | sendByte _ _ pos _ hc => exact { hu.ssendb hc (pos + 1) with }
  | sendWait _ _ _ hi => exact hu.ssendb (.inr ⟨hi, rfl⟩) 0
  | sendEnd _ _ _ hc =>
    obtain ⟨hidle, -, hs⟩ := hu.of_sending hc
    exact hu.of_noCommand rfl rfl (.inr ⟨rfl, hs⟩) fun _ => hidle
  | commit _ _ hc h =>
    obtain ⟨w, hw, rfl⟩ := senqCommit_cases h
    rw [enqueue_frame hw]
    exact hu.of_noCommand rfl rfl (.inl rfl) fun _ => (hu.onePort (by simp [hc])).1
  | drain _ _ _ _ _ h => obtain ⟨b, -, -, rfl⟩ := ringToTx_cases h; exact { hu with }
  | phy _ _ _ _ _ _ _ _ _ hv => subst hv; exact { hu with }
  | _ => exact { hu with }

/-! The whole invariant. -/

/-- The invariant, in its three parts. -/
theorem invariant_iff {s : State} :
    Invariant s ↔ s.cfg.Valid ∧ ChannelSound s ∧ BusSound s ∧ PortSound s :=
  ⟨fun h => ⟨h.valid, { h with }, { h with }, { h with }⟩,
    fun ⟨valid, channel, bus, port⟩ => { channel, bus, port with valid }⟩

/-- An agent's turn keeps the invariant, whatever it does. -/
theorem Effect.invariant {t : Turn} {u v : State} (ht : t.isAgent = true) (hu : Invariant u) (h : Effect t u v) :
    Invariant v := by
  obtain ⟨valid, channel, bus, port⟩ := invariant_iff.1 hu
  have hc : v.cfg = u.cfg := h.enablesKept.1
  exact invariant_iff.2 ⟨by rw [hc]; exact valid, h.channelSound channel, h.busSound ht bus, h.portSound port⟩

/-- Settles O4: taking the turn keeps the invariant, and so does every effect of an agent's turn. -/
theorem stepKeepsInvariant : Obligations.StepKeepsInvariant := by
  intro s t hs h
  exact (step_effect h).invariant hs.nextIsAgent hs.nextTurn

end Sys2Proof.Machine
end

section
/-! PROOF. The commands of the output channel: SINIT (O39, O40), SSENDB (O41, O42, O43) and SENQ (O44); the enqueue
commit (O45); UART.DONE (O48) and IRQ.DRAIN (O47). -/

namespace Sys2Proof.Machine

/-! The line rate divisor. -/

theorem lineDivisor_in_range {f : Nat} {x : BitVec 24} (hx : 0 < x.toNat) (hl : 1 ≤ f / (16 * x.toNat))
    (hh : f / (16 * x.toNat) ≤ 4096) : lineDivisor f x = some (BitVec.ofNat 12 (f / (16 * x.toNat) - 1)) := by
  unfold lineDivisor
  rw [if_neg (by omega)]
  generalize f / (16 * x.toNat) = q at *
  have hd : ((q : Int) - 1).toNat = q - 1 := by omega
  simp only [hd]
  exact if_neg (by omega)

theorem lineDivisor_out_of_range {f : Nat} {x : BitVec 24}
    (h : x.toNat = 0 ∨ f / (16 * x.toNat) < 1 ∨ 4096 < f / (16 * x.toNat)) : lineDivisor f x = none := by
  unfold lineDivisor
  split
  · rfl
  · generalize f / (16 * x.toNat) = q at *
    exact if_pos (by omega)

/-- The rates that have a divisor: exactly those of the two lemmas above. -/
theorem lineDivisor_isSome_iff {f : Nat} {x : BitVec 24} :
    (∃ d, lineDivisor f x = some d) ↔ 0 < x.toNat ∧ 1 ≤ f / (16 * x.toNat) ∧ f / (16 * x.toNat) ≤ 4096 := by
  constructor
  · rintro ⟨d, hd⟩
    refine Classical.byContradiction fun hn => ?_
    rw [lineDivisor_out_of_range (by omega)] at hd
    cases hd
  · rintro ⟨hx, hl, hh⟩
    exact ⟨_, lineDivisor_in_range hx hl hh⟩

/-! SINIT. -/

theorem exec_sinit_rejected {s : State} {x : BitVec 24} (hp : portFree s = true)
    (hd : lineDivisor s.cfg.fclk x = none) : exec (.sinit x) s = .next (reject 0x9 .argRange s) := by
  simp only [exec, execSinit, hp, hd, if_true]

/-- Settles O39: the command has a divisor, and CMD is none already, or it has none. -/
theorem sinitSetsLineRateAndEnables : Obligations.SinitSetsLineRateAndEnables := by
  rintro s x q hp rfl
  have hc := (portFree_iff.1 hp).1
  refine ⟨fun hx hl hh => ?_, fun h => exec_sinit_rejected hp (lineDivisor_out_of_range h)⟩
  rw [exec_sinit_accepted hp (lineDivisor_in_range hx hl hh), respond, ← hc]
  rfl

/-- Settles O40: SINIT answers OK exactly when the rate has a divisor, and at 16 MHz those are the rates given. -/
theorem sinitRangeAtSixteenMegahertz : Obligations.SinitRangeAtSixteenMegahertz := by
  intro s x hp hf
  have accepted_iff : (∃ t, exec (.sinit x) s = .next t ∧ t.resp = some { word := 0x90000000, data := [] }) ↔
      ∃ d, lineDivisor s.cfg.fclk x = some d := by
    cases hd : lineDivisor s.cfg.fclk x with
    | none => simp [exec_sinit_rejected hp hd, responseWord, rejectValue]
    | some d => simp [exec_sinit_accepted hp hd, responseWord]
  have at_least_one (hx : 0 < x.toNat) : 1 ≤ 16000000 / (16 * x.toNat) ↔ x.toNat ≤ 1000000 := by
    rw [Nat.le_div_iff_mul_le (by omega)]
    omega
  have at_most_4096 (hx : 0 < x.toNat) : 16000000 / (16 * x.toNat) ≤ 4096 ↔ 245 ≤ x.toNat := by
    rw [← Nat.lt_succ_iff, Nat.div_lt_iff_lt_mul (by omega)]
    omega
  rw [accepted_iff, lineDivisor_isSome_iff, hf]
  constructor
  · rintro ⟨hx, hl, hh⟩
    exact ⟨(at_most_4096 hx).1 hh, (at_least_one hx).1 hl⟩
  · rintro ⟨hl, hh⟩
    have hx : 0 < x.toNat := by omega
    exact ⟨hx, (at_least_one hx).2 hh, (at_most_4096 hx).2 hl⟩

/-! SSENDB. -/

theorem exec_ssendb_rejected {s : State} {text : List Byte} (hp : portFree s = true) (he : s.txen = false) :
    exec (.ssendb text) s = .next (reject 0xa .notInitialised s) := by
  simp [exec, execSsendb, hp, he]

/-- Settles O41: TXEN decides between the two. -/
theorem ssendbNeedsTransmitter : Obligations.SsendbNeedsTransmitter := by
  intro s text hp
  exact ⟨exec_ssendb_accepted hp, exec_ssendb_rejected hp⟩

theorem prodStep_ssendb {s : State} {text : List Byte} {pos : Nat} (hc : s.cmd = some (.ssendb text pos)) :
    prodStep s = .next (ssendbStep text pos s) := by
  rw [prodStep, hc]

theorem ssendbStep_of_ready {s : State} {text : List Byte} {pos : Nat} {b : Byte} (hb : text[pos]? = some b)
    (hr : s.txrdy = true) : ssendbStep text pos s = { txWrite b s with cmd := some (.ssendb text (pos + 1)) } := by
  rw [ssendbStep, hb]
  exact if_pos hr

theorem ssendbStep_of_end {s : State} {text : List Byte} {pos : Nat} (hb : text.length ≤ pos) :
    ssendbStep text pos s = respond 0xa (BitVec.ofNat 16 text.length) [] s := by
  rw [ssendbStep, List.getElem?_eq_none hb]

/-- The response word of a SSENDB, whose text fits COUNT. -/
theorem responseWord_ssendb {n : Nat} (h : n < 65536) :
    responseWord 0xa 0 (BitVec.ofNat 16 n) = BitVec.ofNat 32 (0xa0000000 + n) := by
  rw [responseWord_ok, BitVec.toNat_ofNat, Nat.mod_eq_of_lt h]
  rfl

/-- Settles O42: the position has a byte, or is the end of the text. -/
theorem ssendbWritesByteByByte : Obligations.SsendbWritesByteByByte := by
  intro s text pos hc hl
  rw [prodStep_ssendb hc]
  refine ⟨fun b hb hr => congrArg _ (ssendbStep_of_ready hb hr), fun he => ?_⟩
  rw [ssendbStep_of_end he.ge, respond, responseWord_ssendb hl]

/-- PROD's turn in a SSENDB, accepted or about to be taken from the port. -/
theorem prodTurn_of_sending {s : State} {text : List Byte} {pos : Nat} (h : Sending s text pos) :
    prodTurn s = .next (ssendbStep text pos { s with cmd := some (.ssendb text pos) }) := by
  unfold prodTurn
  obtain hc | ⟨hi, rfl⟩ := h
  · have hport : atPort .prod s = none := atPort_eq_none fun i hi _ => by cases hc.symm.trans hi
    rw [hport, ← hc]
    exact prodStep_ssendb hc
  · rw [hi]
    exact takeCommand_ssendb hi

theorem Sending.turns {s : State} {text : List Byte} {pos : Nat} (h : Sending s text pos) (ts : List Turn) :
    Sending { s with turns := ts } text pos := by
  refine h.imp_right fun ⟨hi, h0⟩ => ⟨atPort_iff.2 ?_, h0⟩
  rw [failedCheck_turns]
  exact atPort_iff.1 hi

section
variable {s : State} {text : List Byte} {pos : Nat} {ts : List Turn} (ht : s.turns = .agent .prod :: ts)
  (h : Sending s text pos)
include ht h

/-- PROD's step in a SSENDB with a byte left, TXRDY = 1. -/
theorem step_sendByte {b : Byte} (hb : text[pos]? = some b) (hr : s.txrdy = true) :
    step s = .next { txWrite b s with turns := ts, cmd := some (.ssendb text (pos + 1)) } := by
  rw [step_cons ht]
  exact (prodTurn_of_sending (h.turns ts)).trans (congrArg _ (ssendbStep_of_ready hb hr))

/-- PROD's step in a SSENDB with no byte left. -/
theorem step_sendEnd (hb : text.length ≤ pos) :
    step s = .next (respond 0xa (BitVec.ofNat 16 text.length) [] { s with turns := ts }) := by
  rw [step_cons ht]
  exact (prodTurn_of_sending (h.turns ts)).trans (congrArg _ (ssendbStep_of_end hb))

end

/-! The transmitter. -/

theorem exec_uartDone {s : State} (hr : s.txrdy = false) (he : s.txen = true) :
    exec .uartDone s = .next { s with wire := s.wire ++ [s.txdata], txrdy := true, txip := true } := by
  simp [exec, execUartDone, uartDoneEnabled, hr, he]

/-- Settles O48: UART.DONE is enabled. -/
theorem uartDoneTakesTheByte : Obligations.UartDoneTakesTheByte := by
  intro s hr he
  exact exec_uartDone hr he

/-- What UART's turn leaves when TXEN = 1: the byte in flight, if there is one, on the wire, and its completion. -/
def uartSettled (ts : List Turn) (s : State) : State :=
  { s with wire := s.wire ++ inFlight s, txrdy := true, txip := s.txip || !s.txrdy, turns := ts }

theorem step_uart {s : State} {ts : List Turn} (ht : s.turns = .agent .uart :: ts) (he : s.txen = true) :
    step s = .next (uartSettled ts s) := by
  rw [step_cons ht, runTurn]
  obtain hr | hr := Bool.eq_false_or_eq_true s.txrdy
  · rw [uartTurn_not_enabled (s := { s with turns := ts }) (.inr hr)]
    simp [uartSettled, inFlight, hr]
  · rw [uartTurn_selected (s := { s with turns := ts }) he hr, exec_uartDone (s := { s with turns := ts }) hr he]
    simp [uartSettled, inFlight, hr]

/-- A byte of a SSENDB leaves before the next is written. -/
theorem runSteps_sendByte {s : State} {text : List Byte} {pos : Nat} {b : Byte} {ts : List Turn}
    (ht : s.turns = .agent .prod :: .agent .uart :: ts) (h : Sending s text pos) (hb : text[pos]? = some b)
    (hr : s.txrdy = true) (he : s.txen = true) :
    runSteps 2 s = .next { s with
      wire := s.wire ++ [b], txdata := b, txip := true, cmd := some (.ssendb text (pos + 1)), turns := ts } := by
  rw [runSteps_next (step_sendByte ht h hb hr), runSteps_one, step_uart (ts := ts)]
  · simp [uartSettled, inFlight, hr]
  · rfl
  · exact he

/-- The bytes of a text after those `sent` leave one by one, and the response follows. -/
theorem runSteps_ssendb {ts : List Turn} (rest : List Byte) {s : State} {sent : List Byte}
    (h : Sending s (sent ++ rest) sent.length) (he : s.txen = true) (hr : s.txrdy = true)
    (ht : s.turns = sendSchedule rest.length ++ ts) :
    runSteps (2 * rest.length + 1) s =
      .next { respond 0xa (BitVec.ofNat 16 (sent ++ rest).length) [] s with
        wire := s.wire ++ rest, txdata := rest.getLastD s.txdata, txip := s.txip || !rest.isEmpty, turns := ts } := by
  induction rest generalizing s sent with
  | nil =>
    rw [List.length_nil, Nat.mul_zero, Nat.zero_add, runSteps_one, step_sendEnd ht h (by simp)]
    simp [respond]
  | cons b rest ih =>
    have hb : (sent ++ b :: rest)[sent.length]? = some b := by simp
    have hsplit : sent ++ b :: rest = sent ++ [b] ++ rest := by simp
    rw [List.length_cons, show 2 * (rest.length + 1) + 1 = 2 + (2 * rest.length + 1) by omega,
      runSteps_add (runSteps_sendByte ht h hb hr he), hsplit, ih (sent := sent ++ [b])]
    · simp [respond, List.getLast?_cons]
    · exact .inl (by simp)
    · exact he
    · exact hr
    · rfl

/-- Settles O43: the run from position 0. -/
theorem ssendbRunSendsItsText : Obligations.SsendbRunSendsItsText := by
  intro s text ts hc he hr hl ht
  have sending : Sending s ([] ++ text) 0 :=
    hc.imp_right fun ⟨hc, hresp, hp⟩ => ⟨atPort_iff.2 ⟨hc, rfl, failedCheck_ssendb.2 he, hresp, hp⟩, rfl⟩
  rw [runSteps_ssendb text sending he hr ht, respond, List.nil_append, responseWord_ssendb hl]

/-! SENQ. -/

/-- The commit of a SENQ whose text is staged. -/
theorem senqCommit_of_stage {s v : State} {t : List Byte} (hg : s.stage.bytes = t) (hv : enqueue t s = .ok v) :
    senqCommit s = .ok (respond 0xb 0 [] { v with stage := [] }) := by
  rw [senqCommit_eq, hg, hv]
  rfl

/-- Settles O44: what PROD holds between the two steps does not touch the commit. -/
theorem senqStagesThenCommits : Obligations.SenqStagesThenCommits := by
  intro s text hp
  refine ⟨_, exec_senq_accepted hp, rfl, Memory.bytes_ofBytes _, fun hr => ?_⟩
  obtain ⟨v, hv⟩ := enqueue_ok hr (text.take s.cfg.stageMax)
  have commit := enqueue_transfers (text.take s.cfg.stageMax) s { stageText text s with cmd := some .senq }
    rfl rfl rfl rfl rfl rfl rfl
  rw [hv] at commit
  refine ⟨v, hv, (congrArg outcomeOf (senqCommit_of_stage (Memory.bytes_ofBytes _) commit)).trans ?_⟩
  rw [enqueue_frame hv]
  rfl

/-! The enqueue commit. -/

/-- Byte `i` of what is appended stands `i` slots after the write cursor. -/
theorem RingOk.read_appended {s : State} (h : RingOk s) {t : List Byte} {n i : Nat} (hn : n ≤ freeSpace s)
    (hl : n ≤ t.length) (hi : i < n) : (appended t n s).ring.read (advance s.cfg.cap s.wcur i) = t[i]? := by
  have hlen : (t.take n).length = n := List.length_take_of_le hl
  have hcap := h.capPos
  unfold freeSpace at hn
  rw [← List.getElem?_take_of_lt hi, ← Nat.zero_add i]
  exact (read_ringStore _ _ _ _ _ _ (by omega) (by omega)).trans (by rw [Nat.zero_add])

/-- A slot that nothing is appended to keeps its byte. -/
theorem read_appended_other {s : State} {t : List Byte} {n a : Nat} (hl : n ≤ t.length)
    (ha : ∀ i, i < n → a ≠ advance s.cfg.cap s.wcur i) : (appended t n s).ring.read a = s.ring.read a := by
  refine read_ringStore_other _ _ _ _ _ _ fun i hi => ?_
  rw [List.length_take_of_le hl] at hi
  rw [Nat.zero_add]
  exact ha i hi

/-- Settles O45: nothing fits, or the bytes that fit are stored and Prime has its condition or not. -/
theorem enqueueAppendsWhatFits : Obligations.EnqueueAppendsWhatFits := by
  intro s t n h hn
  have hl : n ≤ t.length := by omega
  have hf : n ≤ freeSpace s := by unfold freeSpace; omega
  have stored (i) (hi : i < n) := h.read_appended hf hl hi
  have kept (a) := read_appended_other (s := s) (a := a) hl
  have cases := enqueue_cases h t
  rw [show min t.length (freeSpace s) = n from hn.symm] at cases
  obtain ⟨h0, he⟩ | ⟨hpos, hp, he⟩ | ⟨hpos, hp, b, hb, he⟩ := cases
  · subst h0
    exact ⟨s, he, fun _ => rfl, rfl, (Nat.mod_eq_of_lt h.wcurLt).symm, nofun, fun _ _ => rfl, nofun,
      fun _ => ⟨rfl, rfl, rfl⟩⟩
  · have hp' : s.txrdy = true → s.txip = true := by simpa [primeCondition] using hp
    exact ⟨_, he, fun h0 => absurd h0 hpos.ne', rfl, rfl, stored, kept, fun _ hr hi => by simp [hp' hr] at hi,
      fun _ => ⟨rfl, rfl, rfl⟩⟩
  · obtain ⟨hr, hi⟩ : s.txrdy = true ∧ s.txip = false := by simpa [primeCondition] using hp
    exact ⟨_, he, fun h0 => absurd h0 hpos.ne', rfl, rfl, stored, kept, fun _ _ _ => ⟨rfl, rfl, hb⟩,
      fun hq => by simp [hpos.ne', hr, hi] at hq⟩

/-! IRQ.DRAIN. -/

theorem irqRequest_iff {s : State} : irqRequest s = true ↔ s.txip = true ∧ s.txie = true := by simp [irqRequest]

theorem exec_irqDrain_sends {s : State} {b : Byte} (hq : irqRequest s = true) (hn : s.rcur ≠ s.wcur)
    (hr : s.txrdy = true) (hlt : s.rcur < s.cfg.cap) (hb : s.ring.read s.rcur = some b) :
    exec .irqDrain s = .next { s with
      txip := false, txdata := b, rcur := advance s.cfg.cap s.rcur 1, txrdy := false } := by
  simp only [exec, execIrqDrain, hq, if_true, if_pos (And.intro hn hr)]
  rw [ringToTx_eq (s := { s with txip := false }) hlt hb]
  rfl

theorem exec_irqDrain_clears {s : State} (hq : irqRequest s = true) (h : s.rcur = s.wcur ∨ s.txrdy = false) :
    exec .irqDrain s = .next { s with txip := false } := by
  simp only [exec, execIrqDrain, hq, if_true]
  exact if_neg fun ⟨hn, hr⟩ => h.elim hn (by simp [hr])

/-- Settles O47: the interrupt is requested, and the ring and the transmitter decide. -/
theorem irqDrainSendsOneByte : Obligations.IrqDrainSendsOneByte := by
  intro s he hp
  have hq : irqRequest s = true := irqRequest_iff.2 ⟨hp, he⟩
  exact ⟨fun b => exec_irqDrain_sends hq, exec_irqDrain_clears hq⟩

end Sys2Proof.Machine
end

section
/-! PROOF. The channel drains (O50), and the output channel's steps leave the bus controller alone (O57). -/

namespace Sys2Proof.Machine

/-! DRAIN's step. -/

/-- With an empty ring DRAIN's step only leaves TXIP = 0. -/
theorem step_drain_empty {s : State} {ts : List Turn} (ht : s.turns = .agent .drain :: ts) (hi : s.txie = true)
    (hn : s.rcur = s.wcur) : step s = .next { s with txip := false, turns := ts } := by
  rw [step_cons ht, runTurn]
  obtain hp | hp := Bool.eq_false_or_eq_true s.txip
  · rw [drainTurn_selected (s := { s with turns := ts }) hi hp]
    exact exec_irqDrain_clears (s := { s with turns := ts }) (irqRequest_iff.2 ⟨hp, hi⟩) (.inl hn)
  · rw [drainTurn_not_enabled (s := { s with turns := ts }) (.inr hp), ← hp]

/-- With a completion pending DRAIN's step sends the oldest byte. -/
theorem step_drain_sends {s : State} {ts : List Turn} {b : Byte} (ht : s.turns = .agent .drain :: ts)
    (hi : s.txie = true) (hp : s.txip = true) (hr : s.txrdy = true) (hok : RingOk s) (hn : 0 < occupied s)
    (hb : s.ring.read s.rcur = some b) :
    step s = .next { s with
      txip := false, txdata := b, rcur := advance s.cfg.cap s.rcur 1, txrdy := false, turns := ts } := by
  have hne : s.rcur ≠ s.wcur := fun he => hn.ne' (hok.occupied_eq_zero.2 he)
  rw [step_cons ht, runTurn, drainTurn_selected (s := { s with turns := ts }) hi hp]
  exact exec_irqDrain_sends (s := { s with turns := ts }) (irqRequest_iff.2 ⟨hp, hi⟩) hne hr hok.rcurLt hb

/-! UART and DRAIN in turn. -/

section
variable {s : State} {ts : List Turn} (hok : RingOk s) (he : s.txen = true) (hi : s.txie = true)
include hok he hi

/-- With an empty ring the byte in flight leaves, and the channel is idle. -/
theorem runSteps_settle_empty (hn : occupied s = 0) (ht : s.turns = .agent .uart :: .agent .drain :: ts) :
    runSteps 2 s = .next { s with
      wire := stream s, rcur := s.wcur, txrdy := true, txip := false, turns := ts } := by
  have hcur : s.rcur = s.wcur := hok.occupied_eq_zero.1 hn
  rw [runSteps_next (step_uart ht he), runSteps_one, step_drain_empty (ts := ts)]
  · simp [uartSettled, stream, ringContents, hn, ← hcur]
  · rfl
  · exact hi
  · exact hcur

/-- With bytes in the ring the byte in flight leaves and the oldest takes its place. -/
theorem runSteps_settle_byte (hbusy : RingBusy s) (hn : 0 < occupied s)
    (ht : s.turns = .agent .uart :: .agent .drain :: ts) :
    ∃ b w, w = { s with
        wire := s.wire ++ inFlight s, txip := false, txdata := b, rcur := advance s.cfg.cap s.rcur 1, txrdy := false
        turns := ts } ∧
      runSteps 2 s = .next w ∧ stream w = stream s := by
  obtain ⟨b, hb⟩ := hok.oldest hn
  have pending : (s.txip || !s.txrdy) = true := by obtain h | h := hbusy hn <;> simp [h]
  refine ⟨b, _, rfl, ?_, ?_⟩
  · rw [runSteps_next (step_uart ht he), runSteps_one]
    exact step_drain_sends (s := uartSettled (.agent .drain :: ts) s) rfl hi pending rfl { hok with } hn hb
  · rw [stream_busy rfl, stream, hok.ringContents_pop hn hb]
    exact (List.append_cons ..).symm

end

/-- As many turns of UART and DRAIN as the ring holds bytes, and one more, settle the channel. -/
theorem runSteps_settle {ts : List Turn} (n : Nat) {s : State} (hok : RingOk s) (hbusy : RingBusy s)
    (he : s.txen = true) (hi : s.txie = true) (hn : occupied s = n) (ht : s.turns = drainSchedule (n + 1) ++ ts) :
    ∃ d, runSteps (2 * (n + 1)) s = .next { s with
      wire := stream s, rcur := s.wcur, txrdy := true, txip := false, txdata := d, turns := ts } := by
  induction n generalizing s with
  | zero => exact ⟨s.txdata, runSteps_settle_empty hok he hi hn ht⟩
  | succ n ih =>
    obtain ⟨b, w, hw, hrun, hstream⟩ := runSteps_settle_byte hok he hi hbusy (by omega) ht
    obtain ⟨hpop, hocc⟩ := hok.pop (by omega)
    have hn' : occupied w = n := by rw [hw]; exact hocc.trans (by omega)
    obtain ⟨d, hd⟩ := ih (s := w) (by rw [hw]; exact { hpop with }) (fun _ => by simp [hw]) (by rw [hw]; exact he)
      (by rw [hw]; exact hi) hn' (by rw [hw]; rfl)
    refine ⟨d, ?_⟩
    rw [show 2 * (n + 1 + 1) = 2 + 2 * (n + 1) by omega, runSteps_add hrun, hd, hstream, hw]

/-- Settles O50: TXIE is TXEN, and a ring with bytes is busy. -/
theorem settlingPutsTheStreamOnTheWire : Obligations.SettlingPutsTheStreamOnTheWire := by
  intro s ts h he ht
  exact runSteps_settle _ h.ring h.busy he (h.together.trans he) rfl ht

/-! The bus controller. -/

/-- PROD touches the output channel, the stage and the ports only. -/
theorem prodTurn_frame {s v : State} (h : prodTurn s = .next v) :
    v = { s with
      sdiv := v.sdiv, txen := v.txen, txie := v.txie, ring := v.ring, wcur := v.wcur, rcur := v.rcur
      txdata := v.txdata, txrdy := v.txrdy, stage := v.stage, cmd := v.cmd, resp := v.resp } := by
  cases runTurn_effect (t := .agent .prod) h with
  | commit _ _ _ h => rw [senqCommit_frame h]
  | nothing => rfl
  | sinit => rfl
  | stage => rfl
  | sendByte => rfl
  | sendWait => rfl
  | sendEnd => rfl
  | _ => simp_all [Turn.isAgent] -- the effect of another agent's turn

/-- Settles O57, by the frames of the three agents' turns. -/
theorem channelStepsLeaveTheBusController : Obligations.ChannelStepsLeaveTheBusController := by
  intro s t a ts ht ha h
  rw [step_cons ht] at h
  obtain rfl | rfl | rfl := ha
  · rw [drainTurn_frame h]
    simp
  · rw [uartTurn_frame h]
    simp
  · rw [prodTurn_frame h]
    simp

end Sys2Proof.Machine
end

section
/-! PROOF. Rejects: where they are answered (O14) and that they change nothing (O15). -/

namespace Sys2Proof.Machine

/-! The response word of a reject. -/

/-- Format RS as a number (30_encoding.md R85). -/
theorem toNat_responseWord (opc rej : BitVec 4) (n : BitVec 16) :
    (responseWord opc rej n).toNat = opc.toNat * 2 ^ 28 + rej.toNat * 2 ^ 24 + n.toNat := by
  simp only [responseWord, toNat_append_add, BitVec.toNat_ofNat]
  omega

/-- The field REJ of a response word. -/
theorem rej_responseWord (opc rej : BitVec 4) (n : BitVec 16) :
    (responseWord opc rej n).toNat / 2 ^ 24 % 2 ^ 4 = rej.toNat := by
  have := rej.isLt; have := n.isLt
  rw [toNat_responseWord]
  omega

/-- The bits below REJ are COUNT alone. -/
theorem count_responseWord (opc rej : BitVec 4) (n : BitVec 16) :
    (responseWord opc rej n).toNat % 2 ^ 24 = n.toNat := by
  have := n.isLt
  rw [toNat_responseWord]
  omega

/-- A reject's word, from the header that it answers: its opcode, the code and COUNT 0. -/
theorem responseWord_headerOpc (h : Word) (rej : BitVec 4) :
    responseWord (headerOpc h) rej 0 = BitVec.ofNat 32 (h.toNat / 2 ^ 28 * 2 ^ 28 + rej.toNat * 2 ^ 24) := by
  apply BitVec.eq_of_toNat_eq
  have := h.isLt; have := rej.isLt
  rw [toNat_responseWord, headerOpc_toNat, BitVec.toNat_ofNat, show (0 : BitVec 16).toNat = 0 from rfl]
  omega

/-! The codes of the two kinds of reject. -/

/-- A format reject has code 1 or 2 (30_encoding.md R92). -/
theorem decodeCommand_rejectCode {h : Word} {bytes rest : List Byte} {code : RejectCode}
    (hd : decodeCommand h bytes = .reject code rest) : code = .illegalOpcode ∨ code = .reservedBits := by
  unfold decodeCommand decodeHeader at hd
  repeat' split at hd
  all_goals cases hd
  all_goals simp

/-- A failed check has code 3 or 4 (60_exceptions.md R193). -/
theorem failedCheck_rejectCode {i : Instr} {s : State} {code : RejectCode} (hk : failedCheck i s = some code) :
    code = .notInitialised ∨ code = .argRange := by
  unfold failedCheck at hk
  repeat' split at hk
  all_goals cases hk
  all_goals simp

/-- The checks of a command do not look at the port's queues or the turns. -/
theorem failedCheck_taken (i : Instr) (s : State) (ts : List Turn) (hs : List Word) (rest : List Byte) :
    failedCheck i { s with turns := ts, hostCmds := hs, hostBytes := rest } = failedCheck i s := by
  cases i <;> rfl

/-- The check of BINIT, in terms of its quotient (40_bus_commands.md R101). -/
theorem failedCheck_binit_eq (x : BitVec 24) (s : State) :
    failedCheck (.binit x) s =
      if 0 < x.toNat ∧ 8 ≤ s.cfg.fclk / (2 * x.toNat) ∧ s.cfg.fclk / (2 * x.toNat) ≤ 263 then none
      else some .argRange := by
  simp only [failedCheck, Option.isSome_iff_exists, busDivisor_isSome_iff]

/-- The check of SINIT, in terms of its quotient (43_output_channel.md R161). -/
theorem failedCheck_sinit_eq (x : BitVec 24) (s : State) :
    failedCheck (.sinit x) s =
      if 0 < x.toNat ∧ 1 ≤ s.cfg.fclk / (16 * x.toNat) ∧ s.cfg.fclk / (16 * x.toNat) ≤ 4096 then none
      else some .argRange := by
  simp only [failedCheck, Option.isSome_iff_exists, lineDivisor_isSome_iff]

/-! Which operations can leave a reject. -/

/-- The response port holds no reject. -/
def NoReject (s : State) : Prop := ∀ r, s.resp = some r → r.word.toNat / 2 ^ 24 % 2 ^ 4 = 0

theorem NoReject.of_none {s : State} (h : s.resp = none) : NoReject s := by
  intro r hr
  cases h.symm.trans hr

/-- The response of an accepted command is no reject. -/
theorem NoReject.of_answer {s : State} {opc : BitVec 4} {n : BitVec 16} {d : List Byte}
    (h : s.resp = some ⟨responseWord opc 0 n, d⟩) : NoReject s := by
  intro r hr
  cases h.symm.trans hr
  exact rej_responseWord opc 0 n

/-- Of the effects of a turn, only those of HOST leave a reject. -/
theorem Effect.noReject {t : Turn} {u v : State} (ht : t ≠ .agent .host) (hr : u.resp = none) (h : Effect t u v) :
    NoReject v := by
  cases h with
  | takeResponse ht' => exact absurd ht' ht
  | present ht' => exact absurd ht' ht
  | rejected ht' => exact absurd ht' ht
  | binit => exact .of_answer rfl
  | sinit => exact .of_answer rfl
  | doneWrite => exact .of_answer rfl
  | sendEnd => exact .of_answer rfl
  | doneRead _ _ _ _ h => obtain ⟨bs, w, -, -, rfl⟩ := finishReceive_cases h; exact .of_answer rfl
  | commit _ _ _ h => obtain ⟨w, -, rfl⟩ := senqCommit_cases h; exact .of_answer rfl
  | failed _ _ _ _ _ _ _ h => rw [failAndStop_frame h]; exact .of_none hr
  | firstData _ _ _ _ _ _ h => rw [issueData_frame h]; exact .of_none hr
  | written _ _ _ _ _ _ h => rw [nextData_frame h]; exact .of_none hr
  | received _ _ _ _ _ _ _ hw h => rw [received_frame hw h]; exact .of_none hr
  | drain _ _ _ _ _ h => obtain ⟨b, -, -, rfl⟩ := ringToTx_cases h; exact .of_none hr
  | phy _ _ _ _ _ _ _ _ _ hv => subst hv; exact .of_none hr
  | _ => exact .of_none hr

/-- An operation that is no command has one of the effects of a turn that is not HOST's. -/
theorem exec_operation_effect {i : Instr} {u v : State} (hu : commandUnit i = none) (h : exec i u = .next v) :
    ∃ t, t ≠ .agent .host ∧ Effect t u v := by
  have bctl {c : PhyCommand} (he : exec i u = .next (phyIssue c u)) : ∃ t, t ≠ .agent .host ∧ Effect t u v := by
    cases he.symm.trans h
    exact ⟨.bctl 0, nofun, .bctl c rfl⟩
  cases i with
  | pStart => exact bctl rfl
  | pXfern => exact bctl rfl
  | pXfera => exact bctl rfl
  | pStop => exact bctl rfl
  | irqDrain =>
    refine ⟨.agent .drain, nofun, ?_⟩
    cases hq : irqRequest u with
    | false => simp [exec, execIrqDrain, hq] at h
    | true =>
      obtain ⟨hp, he⟩ := irqRequest_iff.1 hq
      exact runTurn_effect ((drainTurn_selected he hp).trans h)
  | uartDone =>
    refine ⟨.agent .uart, nofun, ?_⟩
    cases hq : uartDoneEnabled u with
    | false => simp [exec, execUartDone, hq] at h
    | true =>
      obtain ⟨hr, he⟩ : u.txrdy = false ∧ u.txen = true := by simpa [uartDoneEnabled] using hq
      exact runTurn_effect ((uartTurn_selected he hr).trans h)
  | phyComplete => exact ⟨.agent .phy, nofun, phyComplete_effect h⟩
  | phStart => exact ⟨.agent .seq, nofun, seq_effect _ (by simp) h⟩
  | phAddr => exact ⟨.agent .seq, nofun, seq_effect _ (by simp) h⟩
  | phDataFirst => exact ⟨.agent .seq, nofun, seq_effect _ (by simp) h⟩
  | phDataW => exact ⟨.agent .seq, nofun, seq_effect _ (by simp) h⟩
  | phDataR => exact ⟨.agent .seq, nofun, seq_effect _ (by simp) h⟩
  | phDone => exact ⟨.agent .seq, nofun, seq_effect _ (by simp) h⟩
  | _ => cases hu

/-- A command's meaning leaves no reject, or is the reject of a failed check and nothing else. -/
theorem exec_command_answer {i : Instr} {s t : State} (hu : commandUnit i ≠ none) (h : exec i s = .next t) :
    NoReject t ∨ ∃ opc code, (code = .notInitialised ∨ code = .argRange) ∧ t = reject opc code s := by
  cases hp : portFree s with
  | false => cases (exec_command_refused hu hp).symm.trans h
  | true =>
    obtain ⟨-, hr, -⟩ := portFree_iff.1 hp
    cases i with
    | binit x =>
      cases hd : busDivisor s.cfg.fclk x with
      | some d => cases (exec_binit_accepted hp hd).symm.trans h; exact .inl (.of_answer rfl)
      | none => cases (exec_binit_rejected hp hd).symm.trans h; exact .inr ⟨_, _, .inr rfl, rfl⟩
    | bsend a b =>
      cases he : s.ben with
      | true => cases (exec_bsend_accepted hp he).symm.trans h; exact .inl (.of_none hr)
      | false => cases (acceptBus_rejected _ _ hp he).symm.trans h; exact .inr ⟨_, _, .inl rfl, rfl⟩
    | brecv a n =>
      cases he : s.ben with
      | true => cases (exec_brecv_accepted hp he).symm.trans h; exact .inl (.of_none hr)
      | false => cases (acceptBus_rejected _ _ hp he).symm.trans h; exact .inr ⟨_, _, .inl rfl, rfl⟩
    | sinit x =>
      cases hd : lineDivisor s.cfg.fclk x with
      | some d => cases (exec_sinit_accepted hp hd).symm.trans h; exact .inl (.of_answer rfl)
      | none => cases (exec_sinit_rejected hp hd).symm.trans h; exact .inr ⟨_, _, .inr rfl, rfl⟩
    | ssendb text =>
      cases he : s.txen with
      | true => cases (exec_ssendb_accepted hp he).symm.trans h; exact .inl (.of_none hr)
      | false => cases (exec_ssendb_rejected hp he).symm.trans h; exact .inr ⟨_, _, .inl rfl, rfl⟩
    | senq text => cases (exec_senq_accepted hp).symm.trans h; exact .inl (.of_none hr)
    | _ => exact absurd rfl hu

/-- Whatever the instruction, its meaning leaves no reject, or is the reject of a failed check and nothing else. -/
theorem exec_answer {i : Instr} {s t : State} (hr : s.resp = none) (h : exec i s = .next t) :
    NoReject t ∨ ∃ opc code, (code = .notInitialised ∨ code = .argRange) ∧ t = reject opc code s := by
  by_cases hu : commandUnit i = none
  · obtain ⟨turn, hturn, he⟩ := exec_operation_effect hu h
    exact .inl (he.noReject hturn hr)
  · exact exec_command_answer hu h

/-- Settles O14, clause by clause: HOST's step answers a format reject and a failed check, the checks are the
divisors and the enables, and no effect of another turn leaves a reject. -/
theorem rejectsAreAnsweredAtThePort : Obligations.RejectsAreAnsweredAtThePort := by
  refine ⟨?_, ?_, ?_, ?_⟩
  · intro s ts h hs code rest ht hp hc hd
    have hcode := decodeCommand_rejectCode hd
    refine ⟨hcode, ?_⟩
    have hstep := (step_cons ht).trans (hostTurn_rejectFormat (s := { s with turns := ts }) hp hc hd)
    rw [hstep, reject, responseWord_headerOpc]
    obtain rfl | rfl := hcode <;> rfl
  · rintro s ts h hs i code rest _ ht hp hc hd hk rfl
    have hcode := failedCheck_rejectCode hk
    have hstep := (step_cons ht).trans
      (hostTurn_rejectCheck (s := { s with turns := ts }) hp hc hd ((failedCheck_turns i s ts).trans hk))
    have hexec := exec_failedCheck (s := { s with turns := ts, hostCmds := hs, hostBytes := rest }) hd hp
      ((failedCheck_taken i s ts hs rest).trans hk)
    refine ⟨hstep.trans hexec.symm, hcode, ?_⟩
    rw [hstep, reject, responseWord_headerOpc]
    obtain rfl | rfl := hcode <;> rfl
  · intro s x d b n q
    refine ⟨rfl, rfl, rfl, rfl, ?_, ?_⟩
    · rintro rfl; exact failedCheck_binit_eq x s
    · rintro rfl; exact failedCheck_sinit_eq x s
  · intro s t r ht h hr
    have hr' : (nextTurn s).2.resp = none := by rw [nextTurn_frame]; exact hr
    exact (step_effect h).noReject ht hr' r

/-- Settles O15: an operation that is no command leaves no reject, and a command's reject is its whole effect. -/
theorem rejectedCommandChangesNothing : Obligations.RejectedCommandChangesNothing := by
  intro i s t r hs h hr hrej
  obtain hno | ⟨opc, code, hcode, rfl⟩ := exec_answer hs h
  · exact absurd (hno r hr) hrej
  · cases hr
    refine ⟨rfl, rfl, count_responseWord _ _ 0, ?_⟩
    rw [rej_responseWord]
    obtain rfl | rfl := hcode
    · exact .inl rfl
    · exact .inr rfl

end Sys2Proof.Machine
end

section
/-! PROOF. The state after reset (O1, O2, O3). -/

namespace Sys2Proof.Machine

/-- Settles O1: the values stand in `State.reset`. -/
theorem resetLeavesStatedValues : Obligations.ResetLeavesStatedValues := by
  unfold Obligations.ResetLeavesStatedValues
  decide

/-- Settles O2: after reset the ring and every memory are empty, PH is IDLE and the ports are empty. -/
theorem resetMeetsInvariant : Obligations.ResetMeetsInvariant where
  valid := by decide
  ring := ⟨by decide, by decide, by decide, by decide⟩
  busy := nofun
  ringWf := rfl
  txpayWf := rfl
  rxbufWf := rfl
  stageWf := rfl
  ringSize := nofun
  stageSize := Nat.zero_le _
  together := rfl
  pending := nofun
  idxLe := Nat.le_refl _
  idxZero := fun _ => rfl
  idxLt := nofun
  payload := nofun
  received := fun hp => absurd rfl hp
  okSoFar := nofun
  onePort := fun hc => absurd rfl hc
  presented := nofun
  started := ⟨nofun, nofun⟩
  respIdle := fun _ => rfl
  staged := fun hs => absurd rfl hs
  bctl := .inl rfl
  agents := nofun

/-- Settles O3: bus_log is empty and PH is IDLE. -/
theorem resetMeetsLogInvariants : Obligations.ResetMeetsLogInvariants := ⟨rfl, .inl rfl⟩

end Sys2Proof.Machine
end

section
/-! PROOF. The end of a run: nothing moves after it, and a run that waits for ever has none (O51). -/

namespace Sys2Proof.Machine

/-! When a run is over. -/

/-- With the transmitter enabled, a run is over when the channel is idle too. -/
theorem runOver_iff_of_txen {s : State} (hi : s.txie = true) (he : s.txen = true) :
    runOver s = true ↔
      s.hostCmds = [] ∧ s.cmd = none ∧ s.resp = none ∧ s.ph = .idle ∧ s.txrdy = true ∧ s.txip = false := by
  simp [runOver_iff, irqRequest, uartDoneEnabled, hi, he, and_assoc, and_comm (a := s.txip = false)]

/-- With the transmitter and its interrupt disabled, neither DRAIN nor UART has a step. -/
theorem runOver_iff_of_not_txen {s : State} (hi : s.txie = false) (he : s.txen = false) :
    runOver s = true ↔ s.hostCmds = [] ∧ s.cmd = none ∧ s.resp = none ∧ s.ph = .idle := by
  simp [runOver_iff, irqRequest, uartDoneEnabled, hi, he]

/-! Nothing moves after the end. -/

/-- A turn of an agent names the agent. -/
theorem Turn.exists_agent {t : Turn} (h : t.isAgent = true) : ∃ a, t = .agent a := by
  cases t with
  | agent a => exact ⟨a, rfl⟩
  | bctl v => cases h

theorem atPort_of_noCommand {s : State} (a : Agent) (hc : s.cmd = none) : atPort a s = none :=
  atPort_eq_none fun i hi => by cases hc.symm.trans hi

/-- PROD has nothing to do without a command. -/
theorem prodTurn_of_noCommand {s : State} (hc : s.cmd = none) : prodTurn s = .next s := by
  simp only [prodTurn, atPort_of_noCommand .prod hc, prodStep, hc]

/-- Once a run is over no agent has a step. -/
theorem runTurn_of_runOver {s : State} {a : Agent} (h : runOver s = true) : runTurn (.agent a) s = .next s := by
  obtain ⟨⟨hcmds, hc, hr, hp⟩, hirq, huart⟩ := runOver_iff.1 h
  cases a with
  | host => exact hostTurn_of_incomplete hr (.inl hcmds)
  | seq => exact seqTurn_of_idle hp (by simp [hc]) (by simp [hc]) (atPort_of_noCommand .seq hc)
  | prod => exact prodTurn_of_noCommand hc
  | drain =>
    rw [irqRequest, Bool.and_eq_false_iff] at hirq
    exact drainTurn_not_enabled hirq.symm
  | uart =>
    rw [uartDoneEnabled, Bool.and_eq_false_iff, Bool.not_eq_false'] at huart
    exact uartTurn_not_enabled huart.symm
  | phy => exact phyTurn_not_enabled (.inl (by rw [hp]; rfl))

/-- Once a run is over a step takes its turn and changes nothing else. -/
theorem Invariant.step_of_runOver {s t : State} (h : Invariant s) (ho : runOver s = true) (hs : step s = .next t) :
    runOver t = true ∧ t = { s with turns := t.turns, draws := t.draws } := by
  obtain ⟨a, ha⟩ : ∃ a, (Machine.nextTurn s).1 = .agent a := Turn.exists_agent h.nextIsAgent
  have hf := nextTurn_frame s
  have ho' : runOver (Machine.nextTurn s).2 = true := by rw [hf]; exact ho
  rw [step, ha, runTurn_of_runOver ho'] at hs
  cases hs
  exact ⟨ho', hf⟩

/-! A run in which one agent has no turn. -/

/-- No effect of a turn touches the list of turns. -/
theorem Effect.turns_eq {t : Turn} {u v : State} (h : Effect t u v) : v.turns = u.turns := by
  cases h with
  | failed _ _ _ _ _ _ _ h => rw [failAndStop_frame h]
  | firstData _ _ _ _ _ _ h => rw [issueData_frame h]
  | written _ _ _ _ _ _ h => rw [nextData_frame h]
  | received _ _ _ _ _ _ _ hw h => rw [received_frame hw h]
  | doneRead _ _ _ _ h => obtain ⟨bs, hv⟩ := finishReceive_frame h; rw [hv]
  | commit _ _ _ h => rw [senqCommit_frame h]
  | drain _ _ _ _ _ h => obtain ⟨b, -, -, rfl⟩ := ringToTx_cases h; rfl
  | phy _ _ _ _ _ _ _ _ _ hv => subst hv; rfl
  | _ => rfl

/-- A step takes its own turn off the list and no other. -/
theorem step_turns {s t : State} {u : Turn} {ts : List Turn} (ht : s.turns = u :: ts) (hs : step s = .next t) :
    t.turns = ts :=
  (runTurn_effect ((step_cons ht).symm.trans hs)).turns_eq

/-- A run under a schedule begins in a state that meets the invariant too. -/
theorem Invariant.scheduled {s : State} (h : Invariant s) (next : Nat → Agent) (k : Nat) :
    Invariant (scheduled next k s) :=
  have agents : ∀ t ∈ (Machine.scheduled next k s).turns, t.isAgent = true := fun t ht => by
    obtain ⟨i, -, rfl⟩ := List.mem_map.1 ht
    rfl
  { h with ring := { h.ring with }, agents }

section
variable {P : State → Prop} {quiet : Agent}
    (keep : ∀ {s t a ts}, Invariant s → P s → s.turns = .agent a :: ts → a ≠ quiet → step s = .next t → P t)
include keep

/-- What every agent but `quiet` keeps holds at the end of a run in which `quiet` has no turn. -/
theorem runSteps_keeps (ts : List Turn) {s : State} (h : Invariant s) (hp : P s) (ht : s.turns = ts)
    (hq : .agent quiet ∉ ts) :
    ∃ t, runSteps ts.length s = .next t ∧ P t := by
  induction ts generalizing s with
  | nil => exact ⟨s, rfl, hp⟩
  | cons u ts ih =>
    obtain ⟨hu, hts⟩ := not_or.1 (mt List.mem_cons.2 hq)
    obtain ⟨a, rfl⟩ := Turn.exists_agent (h.agents u (by simp [ht]))
    obtain ⟨v, hv⟩ := stepFromInvariantCompletes s h
    have hpv : P v := keep h hp ht (fun ha => hu (by rw [ha])) hv
    obtain ⟨t, hrun, hpt⟩ := ih (stepKeepsInvariant s v h hv) hpv (step_turns ht hv) hts
    exact ⟨t, (runSteps_next hv).trans hrun, hpt⟩

/-- A condition that every agent but `quiet` keeps holds for ever under a schedule that gives `quiet` no turn. -/
theorem runSteps_scheduled_keeps {s : State} {next : Nat → Agent} (k : Nat) (h : Invariant s)
    (hp : P (scheduled next k s)) (hq : ∀ i, next i ≠ quiet) :
    ∃ t, runSteps k (scheduled next k s) = .next t ∧ P t := by
  have hlen : (scheduled next k s).turns.length = k := by simp [scheduled]
  have hquiet : .agent quiet ∉ (scheduled next k s).turns := by simp [scheduled, hq]
  simpa only [hlen] using runSteps_keeps keep _ (h.scheduled next k) hp rfl hquiet

end

/-! The two waits. -/

/-- SEQ's wait goes on until PHY has a turn (40_bus_commands.md R105). -/
theorem seqWaits_keeps {s t : State} {a : Agent} {ts : List Turn} (h : Invariant s) (hw : seqWaits s = true)
    (ht : s.turns = .agent a :: ts) (ha : a ≠ .phy) (hs : step s = .next t) : seqWaits t = true := by
  obtain ⟨hp, hb⟩ := seqWaits_iff.1 hw
  obtain ⟨hph, hbint, -⟩ := onlyPhyEndsAWait s a ts t h ht ha (waits_cases hp) hb hs
  exact seqWaits_iff.2 ⟨by rw [hph]; exact hp, hbint⟩

/-- While the transmitter is busy DRAIN's step clears TXIP at most. -/
theorem step_drain_busy {s : State} {ts : List Turn} (ht : s.turns = .agent .drain :: ts) (hr : s.txrdy = false) :
    ∃ p, step s = .next { s with txip := p, turns := ts } := by
  rw [step_cons ht, runTurn]
  by_cases hq : s.txie = true ∧ s.txip = true
  · rw [drainTurn_selected (s := { s with turns := ts }) hq.1 hq.2]
    exact ⟨false, exec_irqDrain_clears (s := { s with turns := ts }) (irqRequest_iff.2 hq.symm) (.inr hr)⟩
  · exact ⟨s.txip, drainTurn_not_enabled (by simpa [imp_iff_not_or] using hq)⟩

/-- While PROD waits, no agent but UART changes anything but TXIP. -/
theorem Invariant.step_of_prodWaits {s : State} {a : Agent} {ts : List Turn} (h : Invariant s)
    (hw : prodWaits s = true) (ht : s.turns = .agent a :: ts) (ha : a ≠ .uart) :
    ∃ p, step s = .next { s with txip := p, turns := ts } := by
  obtain ⟨text, pos, hc, hpos, hr⟩ := prodWaits_iff.1 hw
  have hcmd : s.cmd ≠ none := by simp [hc]
  obtain ⟨hidle, hresp⟩ := h.onePort hcmd
  obtain ⟨seq, prod, -, -, phy, host⟩ := waitingTurnChangesNothing s ts
  cases a with
  | host => exact ⟨s.txip, host ht hresp (.inl hcmd)⟩
  | seq => exact ⟨s.txip, seq ht (.inr ⟨hidle, by simp [hc], by simp [hc], by simp [hc]⟩)⟩
  | prod => exact ⟨s.txip, prod ht (.inl ⟨text, pos, hc, hpos, hr⟩)⟩
  | drain => exact step_drain_busy ht hr
  | uart => exact absurd rfl ha
  | phy => exact ⟨s.txip, phy ht (.inl hidle)⟩

/-- PROD's wait goes on until UART has a turn (43_output_channel.md R163). -/
theorem prodWaits_keeps {s t : State} {a : Agent} {ts : List Turn} (h : Invariant s) (hw : prodWaits s = true)
    (ht : s.turns = .agent a :: ts) (ha : a ≠ .uart) (hs : step s = .next t) : prodWaits t = true := by
  obtain ⟨p, hp⟩ := h.step_of_prodWaits hw ht ha
  cases hp.symm.trans hs
  exact hw

/-- A run that waits for ever waits after every number of steps, and there it is not over. -/
theorem WaitsForEver.not_endsIn {next : Nat → Agent} {s : State} (h : WaitsForEver next s) (t : State) :
    ¬ EndsIn next s t := by
  rintro ⟨k, hrun, hover⟩
  obtain ⟨hseq, hprod⟩ := runOver_not_waits hover
  obtain h | h := h <;> obtain ⟨u, hu, hw⟩ := h k <;> cases hu.symm.trans hrun
  · cases hseq.symm.trans hw
  · cases hprod.symm.trans hw

/-- Settles O51: the end of a run, condition by condition; no agent has a step after it; and each of the two waits goes
on while the one agent that can end it has no turn. -/
theorem runIsOverOrWaits : Obligations.RunIsOverOrWaits := by
  intro s h
  refine ⟨fun he => ?_, fun he => ?_, fun ho t => h.step_of_runOver ho, fun next hp hb hq => ?_,
    fun next text pos hc hpos hr hq => ?_, fun next hw => hw.not_endsIn⟩
  · have hover := runOver_iff_of_txen (h.together.trans he) he
    refine ⟨hover, fun ho => Nat.eq_zero_of_not_pos fun hn => ?_⟩
    obtain ⟨-, -, -, -, hr, hi⟩ := hover.1 ho
    simpa [hr, hi] using h.busy hn
  · exact runOver_iff_of_not_txen (h.together.trans he) he
  · have hw : seqWaits s = true := seqWaits_iff.2 ⟨waits_of_cases hp, hb⟩
    exact .inl fun k => runSteps_scheduled_keeps seqWaits_keeps k h hw hq
  · have hw : prodWaits s = true := prodWaits_iff.2 ⟨text, pos, hc, hpos, hr⟩
    exact .inr fun k => runSteps_scheduled_keeps prodWaits_keeps k h hw hq

end Sys2Proof.Machine
end
